-- ==== Sys2Proof/Word.lean ====
section
/-! DEFINITION. The word types of the engine (00_scope.md R7, R8). Unsigned and two's-complement signed
registers are both bit vectors; a signed one is read with `BitVec.toInt`. -/

namespace Sys2Proof

/-- A command word, and a word of the read-data queue (R8 `UInt32`). -/
abbrev Word := BitVec 32

/-- A byte of the parameter memory, and every `UInt8` register (R8). -/
abbrev Byte := BitVec 8

/-- A two's-complement `Int16`: samples of the PCM ROM, of a partial and of a frame (R8). -/
abbrev S16 := BitVec 16

/-- A two's-complement `Int32`: levels, pitches, filter memory (R8). -/
abbrev S32 := BitVec 32

/-- A `UInt32` counter or phase (R8). -/
abbrev U32 := BitVec 32

end Sys2Proof
end

