-- ==== Sys2Proof/Syntax.lean ====
section
/-! DEFINITION. The commands of the port, one constructor per row of spec/opcode_table.json (30_encoding.md R111, R112).
A command keeps its reserved bits (`rsv`), because a command with a reserved bit set is still taken and rejected
(R115); a reserved opcode keeps the whole rest of its word (R116). -/

namespace Sys2Proof

/-- One command of the port. Field order follows the word from bit 27 down (R112). -/
inductive Instr where
  /-- NOTE_ON, format N (R112, R250). -/
  | noteOn (part : BitVec 4) (key vel : Byte) (rsv : BitVec 8)
  /-- NOTE_OFF, format K (R112, R251). -/
  | noteOff (part : BitVec 4) (key : Byte) (rsv : BitVec 16)
  /-- SUSTAIN, format S (R112, R252). -/
  | sustain (part : BitVec 4) (rsv : BitVec 23) (on : BitVec 1)
  /-- PROGRAM_CHANGE, format G (R112, R253). -/
  | programChange (part : BitVec 4) (patch : Byte) (rsv : BitVec 16)
  /-- ALL_NOTES_OFF, format P (R112, R254). -/
  | allNotesOff (part : BitVec 4) (rsv : BitVec 24)
  /-- BLOCK_WRITE, format B with a length word (R117) and data words (R118, R142). -/
  | blockWrite (rsv : BitVec 4) (addr : BitVec 24) (rsvLen n : BitVec 16) (data : List Word)
  /-- BLOCK_READ, format B with a length word (R117, R143). -/
  | blockRead (rsv : BitVec 4) (addr : BitVec 24) (rsvLen n : BitVec 16)
  /-- RENDER, format C (R112, R280). -/
  | render (rsv : BitVec 4) (frames : BitVec 24)
  /-- STATUS, format T (R112, R145). -/
  | status (rsv : BitVec 27) (clear : BitVec 1)
  /-- A header word with opcode 0x0 (R116). -/
  | reserved0 (body : BitVec 28)
  /-- A header word with opcode 0xA or 0xB (R116). -/
  | reservedAB (body : BitVec 29)
  /-- A header word with opcode 0xC to 0xF (R116). -/
  | reservedCF (body : BitVec 30)
  deriving DecidableEq, Repr

/-- The number of data words that carry `n` bytes, `ceil(n / 4)` (R113, R118). -/
def dataWords (n : BitVec 16) : Nat := (n.toNat + 3) / 4

end Sys2Proof
end

