-- ==== Sys2Proof/WellFormed.lean ====
section
/-! DEFINITION. Which terms of `Instr` are commands of the port: field widths are in the types, so the one thing left to
check is that a BLOCK_WRITE carries exactly the data words its length word asks for (30_encoding.md R113, R118). -/

namespace Sys2Proof

/-- A term is a command when its data words are as many as its length word says (R113). -/
def Instr.wellFormed : Instr → Bool
  | .blockWrite _ _ _ n data => data.length == dataWords n
  | .blockRead .. => true
  | .noteOn .. => true
  | .noteOff .. => true
  | .sustain .. => true
  | .programChange .. => true
  | .allNotesOff .. => true
  | .render .. => true
  | .status .. => true
  | .reserved0 _ => true
  | .reservedAB _ => true
  | .reservedCF _ => true

end Sys2Proof
end

