-- ==== Sys2Proof/Decode.lean ====
section
/-! DEFINITION. The decoder and the encoder of command words (30_encoding.md R110 to R121), the byte transport of words
(20_memory.md R86), and the packing of block data (R118). -/

namespace Sys2Proof

/-- Why no command can be taken from the words that have arrived. Neither is a reject (R119). -/
inductive DecodeStop where
  /-- No word has arrived: the engine has nothing to do (60_exceptions.md R316). Safe. -/
  | noWord
  /-- The header has arrived and a later word of the same command has not (R119). Safe. -/
  | incomplete
  deriving DecidableEq, Repr

/-- The number of words a command occupies, applied or rejected (R113). -/
def Instr.length : Instr → Nat
  | .blockWrite _ _ _ n _ => 2 + dataWords n
  | .blockRead .. => 2
  | .noteOn .. => 1
  | .noteOff .. => 1
  | .sustain .. => 1
  | .programChange .. => 1
  | .allNotesOff .. => 1
  | .render .. => 1
  | .status .. => 1
  | .reserved0 _ => 1
  | .reservedAB _ => 1
  | .reservedCF _ => 1

/-- `w[lo+len-1 : lo]` (00_scope.md R7). -/
def field (w : Word) (lo len : Nat) : BitVec len := w.extractLsb' lo len

/-- Decodes the BLOCK_WRITE whose header is `w`, from the words after it (R113, R117, R118, R119). -/
def decodeBlockWrite (w : Word) : List Word → Except DecodeStop (Instr × List Word)
  | [] => .error .incomplete
  | w1 :: rest =>
    let n := field w1 0 16
    if rest.length < dataWords n then .error .incomplete
    else .ok (.blockWrite (field w 24 4) (field w 0 24) (field w1 16 16) n (rest.take (dataWords n)),
              rest.drop (dataWords n))

/-- Decodes the BLOCK_READ whose header is `w`, from the words after it (R113, R117, R119). -/
def decodeBlockRead (w : Word) : List Word → Except DecodeStop (Instr × List Word)
  | [] => .error .incomplete
  | w1 :: rest => .ok (.blockRead (field w 24 4) (field w 0 24) (field w1 16 16) (field w1 0 16), rest)

/-- Takes one command from the front of a stream: the command and the words after it, or the reason there is none yet.
Total: every header word is one of the nine commands or a reserved opcode (R111, R116, R121). -/
def decode : List Word → Except DecodeStop (Instr × List Word)
  | [] => .error .noWord
  | w :: rest =>
    match (field w 28 4).toNat with
    | 0 => .ok (.reserved0 (field w 0 28), rest)
    | 1 => .ok (.noteOn (field w 24 4) (field w 16 8) (field w 8 8) (field w 0 8), rest)
    | 2 => .ok (.noteOff (field w 24 4) (field w 16 8) (field w 0 16), rest)
    | 3 => .ok (.sustain (field w 24 4) (field w 1 23) (field w 0 1), rest)
    | 4 => .ok (.programChange (field w 24 4) (field w 16 8) (field w 0 16), rest)
    | 5 => .ok (.allNotesOff (field w 24 4) (field w 0 24), rest)
    | 6 => decodeBlockWrite w rest
    | 7 => decodeBlockRead w rest
    | 8 => .ok (.render (field w 24 4) (field w 0 24), rest)
    | 9 => .ok (.status (field w 1 27) (field w 0 1), rest)
    | 10 => .ok (.reservedAB (field w 0 29), rest)
    | 11 => .ok (.reservedAB (field w 0 29), rest)
    | _ => .ok (.reservedCF (field w 0 30), rest)

/-- The words of a command, written from the formats of R112, R116, R117 and R118. -/
def encode : Instr → List Word
  | .noteOn part key vel rsv => [0x1#4 ++ part ++ key ++ vel ++ rsv]
  | .noteOff part key rsv => [0x2#4 ++ part ++ key ++ rsv]
  | .sustain part rsv on => [0x3#4 ++ part ++ rsv ++ on]
  | .programChange part patch rsv => [0x4#4 ++ part ++ patch ++ rsv]
  | .allNotesOff part rsv => [0x5#4 ++ part ++ rsv]
  | .blockWrite rsv addr rsvLen n data => (0x6#4 ++ rsv ++ addr) :: (rsvLen ++ n) :: data
  | .blockRead rsv addr rsvLen n => [0x7#4 ++ rsv ++ addr, rsvLen ++ n]
  | .render rsv frames => [0x8#4 ++ rsv ++ frames]
  | .status rsv clear => [0x9#4 ++ rsv ++ clear]
  | .reserved0 body => [0x0#4 ++ body]
  | .reservedAB body => [0x5#3 ++ body]
  | .reservedCF body => [0x3#2 ++ body]

/-- The four bytes of a word as a byte transport carries them, least significant first (20_memory.md R86). -/
def bytesOfWord (w : Word) : List Byte := [field w 0 8, field w 8 8, field w 16 8, field w 24 8]

/-- The word four transported bytes make, least significant first (20_memory.md R86). -/
def wordOfBytes (b0 b1 b2 b3 : Byte) : Word := b3 ++ b2 ++ b1 ++ b0

/-- The whole words a run of transported bytes makes, and the bytes left over: the stream has no unit finer than a
word (20_memory.md R86, R87). -/
def wordsOfBytes : List Byte → List Word × List Byte
  | b0 :: b1 :: b2 :: b3 :: rest =>
    let (ws, left) := wordsOfBytes rest
    (wordOfBytes b0 b1 b2 b3 :: ws, left)
  | left => ([], left)

/-- Byte `k` of block data: bits `8*(k mod 4)+7 : 8*(k mod 4)` of data word `k div 4` (R118). -/
def dataByte (data : List Word) (k : Nat) : Byte := field (data.getD (k / 4) 0) (8 * (k % 4)) 8

/-- The `n` bytes that data words carry (R118, 40_memory_commands.md R142). -/
def unpackBytes (data : List Word) (n : Nat) : List Byte := (List.range n).map (dataByte data)

/-- The data words that carry bytes, bytes past the last being 0 (R118, 40_memory_commands.md R143). -/
def packBytes (b : List Byte) : List Word :=
  (List.range ((b.length + 3) / 4)).map fun j =>
    wordOfBytes (b.getD (4 * j) 0) (b.getD (4 * j + 1) 0) (b.getD (4 * j + 2) 0) (b.getD (4 * j + 3) 0)

/-- Whether the unused bytes of the last data word hold a 1 bit: `d[ceil(n/4)-1][31 : 8*r] != 0` with
`r = n mod 4 != 0` (R118, 40_memory_commands.md R142). -/
def unusedDataBits (data : List Word) (n : BitVec 16) : Bool :=
  n.toNat % 4 != 0 && (data.getD (dataWords n - 1) 0) >>> (8 * (n.toNat % 4)) != 0#32

/-- The number of words of the command whose first two words are `w0` and `w1` (R113). -/
def commandWords (w0 w1 : Word) : Nat :=
  match (field w0 28 4).toNat with
  | 6 => 2 + dataWords (field w1 0 16)
  | 7 => 2
  | _ => 1

/-- The words of an instruction given as one number, bit 0 the least significant bit of the first word, every bit from
`nbits` up being 0; as many words as `nbits` fills and as the command needs (R113). -/
def tableWords (nbits w : Nat) : List Word :=
  let v := w % 2 ^ nbits
  let word (j : Nat) : Word := BitVec.ofNat 32 (v >>> (32 * j))
  (List.range (max ((nbits + 31) / 32) (commandWords (word 0) (word 1)))).map word

/-- The instruction the decoder reads from an instruction given as one number. -/
def decodeTableWord (nbits w : Nat) : Option Instr :=
  match decode (tableWords nbits w) with
  | .ok (i, _) => some i
  | .error _ => none

end Sys2Proof
end

