-- ==== Sys2Proof/Config.lean ====
section
/-! DEFINITION. What an implementation fixes and this spec leaves OPEN: the records the OPEN functions take and give
(10_state.md R28, R30, R34, R37, 41_patch_cache.md R162, R170, R171), the lookup tables (10_state.md R50 to R58), the
OPEN functions of 10_state.md R60 as constants with no body, and the fixed parameters of 00_scope.md R6.

`OpenFns` collects the OPEN functions so that a meaning is written once over any collection of them. The laws of R60
are not stated here: Machine/OpenFunctions.lean applies each function through a wrapper under which its law holds. -/

namespace Sys2Proof

/-- TVF filter memory: four `Int32` words owned by `F_tvf` (10_state.md R30). -/
structure FState where
  s0 : S32
  s1 : S32
  s2 : S32
  s3 : S32
  deriving DecidableEq, Repr, Inhabited

/-- `FSTATE0`: all four words 0 (R30). -/
def fstate0 : FState := ⟨0, 0, 0, 0⟩

/-- The OPEN type of reverb coefficients (R34). DESIGN CHOICE (safe, log 6): integers in a list hold any finite record. -/
structure RevCoeff where
  words : List Int
  deriving DecidableEq, Repr, Inhabited

/-- The OPEN type of the reverb delay-line state (R34). DESIGN CHOICE (safe, log 6): as `RevCoeff`. -/
structure RevState where
  words : List Int
  deriving DecidableEq, Repr, Inhabited

/-- The argument `kind` of `F_envTime` and `F_envLevel` (R60). -/
inductive EnvKind where
  | pitch
  | tvf
  | tva
  deriving DecidableEq, Repr, Inhabited

/-- The arguments of `F_basePitch`, in the order of R60. -/
structure BasePitchArgs where
  pitchCoarse : Byte
  pitchFine : Byte
  keyfollowScale : S32
  freq : S32
  fineTune : Byte
  masterTune : Byte
  pcm : Bool
  tuning : S32
  deriving DecidableEq, Repr, Inhabited

/-- The arguments of `F_envTime`, in the order of R60. -/
structure EnvTimeArgs where
  kind : EnvKind
  timeByte : Byte
  timeKeyfollow : Byte
  timeVeloSens : Byte
  freq : S32
  velocity : Byte
  sr : Nat
  deriving DecidableEq, Repr, Inhabited

/-- The arguments of `F_envLevel`, in the order of R60. -/
structure EnvLevelArgs where
  kind : EnvKind
  levelByte : Byte
  depth : Byte
  veloSens : Byte
  depthKeyfollow : Byte
  freq : S32
  velocity : Byte
  deriving DecidableEq, Repr, Inhabited

/-- One envelope segment `(target, dur)` (41_patch_cache.md R170). -/
structure EnvSeg where
  target : S32
  dur : Nat
  deriving DecidableEq, Repr, Inhabited

/-- An envelope definition; `nAtk` is `atk.length` (R170). -/
structure EnvDef where
  init : S32
  atk : List EnvSeg
  rel : EnvSeg
  sustain : Bool
  deriving DecidableEq, Repr, Inhabited

/-- One side of a bias curve (R171): `dir` false acts on keys below the point, true on keys above. -/
structure BiasSide where
  dir : Bool
  pointKey : Byte
  level : S32
  deriving DecidableEq, Repr, Inhabited

/-- The coefficients built at note-on for one partial, field by field as R162 lists them. `t` is `0..3`, `structPos` is
`0..1`, `mix` is `0..3`. -/
structure PatchCache where
  t : Fin 4
  src : List Byte
  key : Byte
  vel : Byte
  freq : S32
  pcm : Bool
  pcmWave : Byte
  waveform : Byte
  structPos : Fin 2
  partner : Option (Fin 4)
  mix : Fin 4
  sustainP : Bool
  sustainF : Bool
  sustainA : Bool
  pitchKF : S32
  basePitch : S32
  benderOn : Bool
  benderRange : Byte
  pwEff : U32
  lfoPeriod : Nat
  lfoDepth : S32
  lfoOn : Bool
  penvDef : EnvDef
  fenvDef : EnvDef
  aenvDef : EnvDef
  tvfBias : BiasSide
  ampBias0 : BiasSide
  ampBias1 : BiasSide
  deriving DecidableEq, Repr, Inhabited

/-- The lookup tables that every OPEN function may read (10_state.md R51, R52, R56, R57, R60), and 42_partial.md R197
reads `sine` too. Each is indexed as its rule says. Entry types are OPEN but for `SINE` (R51). DESIGN CHOICE (safe,
log 8) of integers for what is OPEN. -/
structure CommonTables where
  /-- `SINE`, 65536 entries of `Int16` (R51). -/
  sine : BitVec 16 → S16
  /-- `NOTE_FREQ`, one entry per key (R52). -/
  noteFreq : Fin 128 → Int
  /-- `VELO_AMP` and `VELO_CUTOFF`: 128 velocity rows, then the sensitivity byte 0..100 (R56). -/
  veloAmp : Fin 128 → Fin 101 → Int
  veloCutoff : Fin 128 → Fin 101 → Int
  /-- `RES_INV_GAIN`, by resonance byte 0..30 (R57). -/
  resInvGain : Fin 31 → Int

/-- `PITCH_PERIOD`, which `F_pitch` alone reads (R53). Its domain and entry type are OPEN, and integers here (DESIGN
CHOICE, safe, log 8). -/
structure PitchTables where
  pitchPeriod : Int → Int

/-- `ENV_TIME` and `ENV_LEVEL`, by parameter byte 0..100, which `F_envTime` and `F_envLevel` alone read (R54). Integers
for the OPEN entry types (DESIGN CHOICE, safe, log 8). -/
structure EnvTables where
  envTime : Fin 101 → Int
  envLevel : Fin 101 → Int

/-- `LFO_RATE` and `LFO_DEPTH`, by parameter byte 0..100, which `F_lfoPeriod` and `F_lfoDepth` alone read (R55). Integers
for the OPEN entry types (DESIGN CHOICE, safe, log 8). -/
structure LfoTables where
  lfoRate : Fin 101 → Int
  lfoDepth : Fin 101 → Int

/-- `FILTER_COEFF` and its `FILTER_GRANULARITY` (R57), which belong to `F_tvf` and which it alone reads (42_partial.md
R203, 93_implementation_defined.md P10). -/
structure FilterTables where
  /-- `FILTER_COEFF`, by cutoff and resonance. Its domain and entry type are OPEN, and integers here (DESIGN CHOICE, safe,
  log 8). -/
  filterCoeff : Int → Int → Int
  /-- `FILTER_GRANULARITY` (00_scope.md R6). DESIGN CHOICE (unsafe, log 8): the spec gives it no type, and the model takes
  a natural number. -/
  filterGranularity : Nat

/-- `TABLES`, the lookup tables of the Table Initializer (R38, R50 to R57), by who may read them. -/
structure Tables extends CommonTables, PitchTables, EnvTables, LfoTables, FilterTables

/-- One collection of the OPEN functions of 10_state.md R60. Each may read the tables, and each takes those of them that
no rule keeps for other readers: `PITCH_PERIOD` goes to `pitch` alone (R53), `ENV_TIME` and `ENV_LEVEL` to `envTime` and
`envLevel` alone (R54), `LFO_RATE` and `LFO_DEPTH` to `lfoPeriod` and `lfoDepth` alone (R55), and `FILTER_COEFF` with
`FILTER_GRANULARITY` to `tvf` alone (42_partial.md R203, 93_implementation_defined.md P10). -/
structure OpenFns where
  /-- The sine table is a function of compile-time constants alone (R51); the other tables may depend on `SR` (R58). -/
  sine : BitVec 16 → S16
  noteFreq : (sr : Nat) → (key : Fin 128) → Int
  pitchPeriod : (sr : Nat) → Int → Int
  envTimeTable : (sr : Nat) → Fin 101 → Int
  envLevelTable : (sr : Nat) → Fin 101 → Int
  lfoRateTable : (sr : Nat) → Fin 101 → Int
  lfoDepthTable : (sr : Nat) → Fin 101 → Int
  veloAmp : (sr : Nat) → (vel : Fin 128) → (sens : Fin 101) → Int
  veloCutoff : (sr : Nat) → (vel : Fin 128) → (sens : Fin 101) → Int
  resInvGain : (sr : Nat) → Fin 31 → Int
  filterCoeff : (sr : Nat) → (cutoff resonance : Int) → Int
  /-- DESIGN CHOICE (unsafe, log 8): a natural number; the spec gives neither value nor type. -/
  filterGranularity : Nat
  basePitch : CommonTables → BasePitchArgs → S32
  keyfollowPitch : CommonTables → Byte → S32
  pw : CommonTables → (pulseWidth pwVeloSens velocity : Byte) → U32
  envTime : CommonTables → EnvTables → EnvTimeArgs → Nat
  envLevel : CommonTables → EnvTables → EnvLevelArgs → S32
  lfoPeriod : CommonTables → LfoTables → (rate : Byte) → (sr : Nat) → Nat
  lfoDepth : CommonTables → LfoTables → (depth modSensitivity : Byte) → S32
  pitch : CommonTables → PitchTables → PatchCache → (penvLevel lfoVal bend : S32) → U32
  synth : CommonTables → (waveform : Byte) → (pwEff phase : U32) → S16
  tvf : CommonTables → FilterTables → PatchCache → (fenvLevel : S32) → FState → S16 → S16 × FState
  tva : CommonTables → PatchCache → (aenvLevel : S32) → S16 → S16
  gain : CommonTables → (voiceSum : S32) → (level masterVol : Byte) → Int
  panL : CommonTables → Byte → Int
  panR : CommonTables → Byte → Int
  reverbInit : CommonTables → (mode time level : Byte) → (sr : Nat) → RevCoeff
  reverbStep : CommonTables → RevCoeff → RevState → (send : Int) → Int × Int × RevState
  rs0 : CommonTables → RevState
  /-- The MODEL's own free value (DESIGN CHOICE, safe, log 9): what a `UInt32` sample counter holds where the exact
  count does not fit 32 bits, which the spec does not state. -/
  unstatedCount : Nat → U32

namespace Config

/-- Smallest and largest sample rate (00_scope.md R6). -/
abbrev srMin : Nat := 8000
abbrev srMax : Nat := 96000
/-- Smallest and largest `MAX_PARTIALS` (R6). -/
abbrev maxPartialsMin : Nat := 4
abbrev maxPartialsMax : Nat := 255
/-- The default of `MAX_PARTIALS` (R6). -/
abbrev maxPartialsDefault : Nat := 32
/-- Parts, with the rhythm part last (R6). -/
abbrev numParts : Nat := 9
abbrev rhythmPart : Nat := 8
/-- Entries of the PCM wave table (R6). -/
abbrev numPcmWaves : Nat := 128
/-- Bytes of the parameter memory (R6, 20_memory.md R72). -/
abbrev memSize : Nat := 0x10347
/-- The pitch reference in Hz and the sine table's size (R6); OPEN functions alone use the former. -/
abbrev pitchRef : Nat := 440
abbrev sineSize : Nat := 65536
/-- The TVA level at or below which a releasing partial ends (R6). -/
abbrev silenceLevel : Int := 0

/-! The OPEN constants and functions of the hardware (10_state.md R51 to R57, R60). None has a body (log 5). -/

opaque sine : BitVec 16 → S16
opaque noteFreq : (sr : Nat) → (key : Fin 128) → Int
opaque pitchPeriod : (sr : Nat) → Int → Int
opaque envTimeTable : (sr : Nat) → Fin 101 → Int
opaque envLevelTable : (sr : Nat) → Fin 101 → Int
opaque lfoRateTable : (sr : Nat) → Fin 101 → Int
opaque lfoDepthTable : (sr : Nat) → Fin 101 → Int
opaque veloAmp : (sr : Nat) → (vel : Fin 128) → (sens : Fin 101) → Int
opaque veloCutoff : (sr : Nat) → (vel : Fin 128) → (sens : Fin 101) → Int
opaque resInvGain : (sr : Nat) → Fin 31 → Int
opaque filterCoeff : (sr : Nat) → (cutoff resonance : Int) → Int
/-- DESIGN CHOICE (unsafe, log 8): a natural number. -/
opaque filterGranularity : Nat
opaque basePitch : CommonTables → BasePitchArgs → S32
opaque keyfollowPitch : CommonTables → Byte → S32
opaque pw : CommonTables → (pulseWidth pwVeloSens velocity : Byte) → U32
opaque envTime : CommonTables → EnvTables → EnvTimeArgs → Nat
opaque envLevel : CommonTables → EnvTables → EnvLevelArgs → S32
opaque lfoPeriod : CommonTables → LfoTables → (rate : Byte) → (sr : Nat) → Nat
opaque lfoDepth : CommonTables → LfoTables → (depth modSensitivity : Byte) → S32
opaque pitch : CommonTables → PitchTables → PatchCache → (penvLevel lfoVal bend : S32) → U32
opaque synth : CommonTables → (waveform : Byte) → (pwEff phase : U32) → S16
opaque tvf : CommonTables → FilterTables → PatchCache → (fenvLevel : S32) → FState → S16 → S16 × FState
opaque tva : CommonTables → PatchCache → (aenvLevel : S32) → S16 → S16
opaque gain : CommonTables → (voiceSum : S32) → (level masterVol : Byte) → Int
opaque panL : CommonTables → Byte → Int
opaque panR : CommonTables → Byte → Int
opaque reverbInit : CommonTables → (mode time level : Byte) → (sr : Nat) → RevCoeff
opaque reverbStep : CommonTables → RevCoeff → RevState → (send : Int) → Int × Int × RevState
opaque rs0 : CommonTables → RevState
opaque unstatedCount : Nat → U32

/-- The OPEN functions of this hardware. -/
def openFns : OpenFns where
  sine := sine
  noteFreq := noteFreq
  pitchPeriod := pitchPeriod
  envTimeTable := envTimeTable
  envLevelTable := envLevelTable
  lfoRateTable := lfoRateTable
  lfoDepthTable := lfoDepthTable
  veloAmp := veloAmp
  veloCutoff := veloCutoff
  resInvGain := resInvGain
  filterCoeff := filterCoeff
  filterGranularity := filterGranularity
  basePitch := basePitch
  keyfollowPitch := keyfollowPitch
  pw := pw
  envTime := envTime
  envLevel := envLevel
  lfoPeriod := lfoPeriod
  lfoDepth := lfoDepth
  pitch := pitch
  synth := synth
  tvf := tvf
  tva := tva
  gain := gain
  panL := panL
  panR := panR
  reverbInit := reverbInit
  reverbStep := reverbStep
  rs0 := rs0
  unstatedCount := unstatedCount

end Config

end Sys2Proof
end

