-- ==== Sys2Proof/Machine/OpenFunctions.lean ====
section
/-! DEFINITION. The OPEN functions as the rules apply them: the tables of one sample rate (10_state.md R58), and the four
laws of R60, each built in by clamping, so that the law holds for every collection of OPEN functions and every function
with the law is still one of them (log 5). -/

namespace Sys2Proof.Machine

/-- `F_tables(SR)` (R58). -/
def tables (F : OpenFns) (sr : Nat) : Tables where
  sine := F.sine
  noteFreq := F.noteFreq sr
  pitchPeriod := F.pitchPeriod sr
  envTime := F.envTimeTable sr
  envLevel := F.envLevelTable sr
  lfoRate := F.lfoRateTable sr
  lfoDepth := F.lfoDepthTable sr
  veloAmp := F.veloAmp sr
  veloCutoff := F.veloCutoff sr
  resInvGain := F.resInvGain sr
  filterCoeff := F.filterCoeff sr
  filterGranularity := F.filterGranularity

/-- The tables of one sample rate that every OPEN function may read (R60). -/
def commonTables (F : OpenFns) (sr : Nat) : CommonTables := (tables F sr).toCommonTables

/-- The table that `F_pitch` alone reads (R53). -/
def pitchTables (F : OpenFns) (sr : Nat) : PitchTables := (tables F sr).toPitchTables

/-- The tables that `F_envTime` and `F_envLevel` alone read (R54). -/
def envTables (F : OpenFns) (sr : Nat) : EnvTables := (tables F sr).toEnvTables

/-- The tables that `F_lfoPeriod` and `F_lfoDepth` alone read (R55). -/
def lfoTables (F : OpenFns) (sr : Nat) : LfoTables := (tables F sr).toLfoTables

/-- The table and the constant that `F_tvf` alone reads (42_partial.md R203, 93_implementation_defined.md P10). -/
def filterTables (F : OpenFns) (sr : Nat) : FilterTables := (tables F sr).toFilterTables

/-- `F_envTime` (R60). -/
def fEnvTime (F : OpenFns) (x : EnvTimeArgs) : Nat := F.envTime (commonTables F x.sr) (envTables F x.sr) x

/-- `F_envLevel`, whose value of kind TVA is at least 0 (R60). -/
def fEnvLevel (F : OpenFns) (sr : Nat) (x : EnvLevelArgs) : S32 :=
  let level := F.envLevel (commonTables F sr) (envTables F sr) x
  if x.kind = .tva ∧ level.toInt < 0 then 0 else level

/-- `F_lfoPeriod`, whose value is at least 1 (R60). -/
def fLfoPeriod (F : OpenFns) (rate : Byte) (sr : Nat) : Nat :=
  max 1 (F.lfoPeriod (commonTables F sr) (lfoTables F sr) rate sr)

/-- `F_tva`, which is 0 where the level is at most 0 (R60). -/
def fTva (F : OpenFns) (sr : Nat) (c : PatchCache) (level : S32) (y : S16) : S16 :=
  if level.toInt ≤ 0 then 0 else F.tva (commonTables F sr) c level y

/-- `F_gain`, which is 0 of a voice sum of 0 (R60). -/
def fGain (F : OpenFns) (sr : Nat) (voiceSum : S32) (level masterVol : Byte) : Int :=
  if voiceSum = 0#32 then 0 else F.gain (commonTables F sr) voiceSum level masterVol

/-- `PAN_L` and `PAN_R` (R60). -/
def fPanL (F : OpenFns) (sr : Nat) (pan : Byte) : Int := F.panL (commonTables F sr) pan
def fPanR (F : OpenFns) (sr : Nat) (pan : Byte) : Int := F.panR (commonTables F sr) pan

/-- `RS0` (R60). -/
def fRs0 (F : OpenFns) (sr : Nat) : RevState := F.rs0 (commonTables F sr)

/-- What a `UInt32` sample counter holds for an exact count. No rule states what it holds for a count of 2^32 or more:
there it is a free value (DESIGN CHOICE, safe, log 9). -/
def countU32 (F : OpenFns) (n : Nat) : U32 :=
  if n < 2 ^ 32 then BitVec.ofNat 32 n else F.unstatedCount n

end Sys2Proof.Machine
end

