-- ==== Sys2Proof/Machine/State.lean ====
section
/-! DEFINITION. The state of the engine (10_state.md R20 to R41), every register of it as plain data; the ways a step can
stop; and the state after reset, which for this block is the state after construction (R41). -/

namespace Sys2Proof.Machine

/-- Four things, one per timbre partial index 0..3. -/
structure Quad (α : Type) where
  q0 : α
  q1 : α
  q2 : α
  q3 : α
  deriving DecidableEq, Repr, Inhabited

/-- The states of a partial (R27). -/
inductive PartialState where
  | inactive
  | attack
  | sustainHold
  | release
  deriving DecidableEq, Repr, Inhabited

/-- The segment position of an envelope unit (R28). -/
inductive EnvPhase where
  | atk (i : Nat)
  | hold
  | rel
  | done
  deriving DecidableEq, Repr, Inhabited

/-- An envelope unit (R28). -/
structure EnvUnit where
  phase : EnvPhase
  cnt : U32
  start : S32
  level : S32
  deriving DecidableEq, Repr, Inhabited

/-- The registers of one part (R23). -/
structure PartRegs where
  pedal : Bool
  bend : S32
  deriving DecidableEq, Repr, Inhabited

/-- One voice slot (R24). -/
structure Voice where
  playing : Bool
  part : Byte
  key : Byte
  freq : S32
  velocity : Byte
  reverb : Bool
  decay : Bool
  partials : Quad (Option Nat)
  pedalHeld : Bool
  sustain : Bool
  age : U32
  level : Byte
  pan : Byte
  masterVol : Byte
  deriving DecidableEq, Repr, Inhabited

/-- One partial slot (R26). -/
structure Partial where
  st : PartialState
  owner : Nat
  tIdx : Fin 4
  cache : PatchCache
  penv : EnvUnit
  fenv : EnvUnit
  aenv : EnvUnit
  lfoCnt : U32
  phase : U32
  pcmPos : Nat
  pcmFrac : BitVec 16
  pcmEnded : Bool
  fstate : FState
  raw : S16
  out : S16
  deriving DecidableEq, Repr, Inhabited

/-- The stored fields of the status register; `activePartials` is live and not stored (R33, 40_memory_commands.md R145). -/
structure StatusReg where
  lastReject : Byte
  rejectCount : BitVec 16
  deriving DecidableEq, Repr, Inhabited

/-- A stereo frame `(L, R)` (R35). -/
structure Frame where
  left : S16
  right : S16
  deriving DecidableEq, Repr, Inhabited

/-- One entry of the PCM wave table (R37). -/
structure PcmWave where
  name : List Byte
  addr : Nat
  len : Nat
  loop : Bool
  loopStart : Nat
  tuning : S32
  deriving DecidableEq, Repr, Inhabited

/-- The parameter memory (R36) as (address, byte) pairs in one canonical form: addresses strictly rising, no byte 0.
An unlisted address reads as 0, so that every image of the memory has exactly one such list (log 2). -/
abbrev Memory := List Host.Cell

/-- The canonical form of a memory: addresses strictly rising, no entry equal to what an unlisted address reads as. -/
def Memory.wf : Memory → Bool
  | [] => true
  | [c] => c.2 != 0#8
  | c :: d :: rest => c.2 != 0#8 && decide (c.1 < d.1) && Memory.wf (d :: rest)

/-- The state of the block (R20). `sr`, `rom` and `pcm` are the construction arguments the running block reads; they are
never written (R40). `stream` is the command stream the host has appended so far (R21, 70_reset_and_hazards.md R337). -/
structure State where
  cp : Nat
  stream : List Word
  parts : List PartRegs
  voices : List Voice
  partials : List Partial
  mem : Memory
  status : StatusReg
  reverbDirty : Bool
  rc : RevCoeff
  rs : RevState
  readQ : List Word
  audioQ : List Frame
  sr : Nat
  rom : List S16
  pcm : List PcmWave
  deriving DecidableEq, Repr

/-- Why a step has no next state. The block has no trap (60_exceptions.md R300, R308); the one way it stops making
progress is a command whose words have not arrived (30_encoding.md R119, 93_implementation_defined.md U1). -/
inductive Fault where
  /-- Raised by `step` when every word of the stream has been taken: the engine holds its state and does nothing until
  the host appends words (60_exceptions.md R316). Safe: nothing is changed, nothing is skipped. -/
  | noCommand
  /-- Raised by `step` when the header of a BLOCK_WRITE or BLOCK_READ has arrived and a later word of it has not, and by
  the meaning of a BLOCK_WRITE term with too few data words: the engine is stuck at `cp` (30_encoding.md R119). Safe:
  nothing is changed, and it is no reject. -/
  | incompleteCommand
  deriving DecidableEq, Repr

/-- Why an instruction has no meaning. No instruction of this model answers with one. -/
inductive Refusal where
  /-- For an instruction the model gives no meaning yet; raised by an arm of `exec` alone. Safe. There is none. -/
  | notModelled (mnemonic : String)
  deriving DecidableEq, Repr

/-- A Quad holding one thing four times. -/
def Quad.const {α : Type} (x : α) : Quad α := ⟨x, x, x, x⟩

/-- The part registers after construction (R23). -/
def PartRegs.reset : PartRegs := ⟨false, 0⟩

/-- A voice slot's reset value (R24). -/
def Voice.reset : Voice where
  playing := false
  part := 0
  key := 0
  freq := 0
  velocity := 0
  reverb := false
  decay := false
  partials := Quad.const none
  pedalHeld := false
  sustain := false
  age := 0
  level := 0
  pan := 0
  masterVol := 0

/-- An envelope unit's reset value: phase DONE, all fields 0 (R26). -/
def EnvUnit.reset : EnvUnit := ⟨.done, 0, 0, 0⟩

/-- The envelope definition of a cache no note has built. DESIGN CHOICE (log 7). -/
def blankEnvDef : EnvDef := ⟨0, [], ⟨0, 0⟩, false⟩

/-- The cache of a slot no note has started, which the spec leaves unspecified and no rule reads (R26). DESIGN CHOICE
(unsafe, log 7). -/
def blankCache : PatchCache where
  t := 0
  src := []
  key := 0
  vel := 0
  freq := 0
  pcm := false
  pcmWave := 0
  waveform := 0
  structPos := 0
  partner := none
  mix := 0
  sustainP := false
  sustainF := false
  sustainA := false
  pitchKF := 0
  basePitch := 0
  benderOn := false
  benderRange := 0
  pwEff := 0
  lfoPeriod := 1
  lfoDepth := 0
  lfoOn := false
  penvDef := blankEnvDef
  fenvDef := blankEnvDef
  aenvDef := blankEnvDef
  tvfBias := ⟨false, 0, 0⟩
  ampBias0 := ⟨false, 0, 0⟩
  ampBias1 := ⟨false, 0, 0⟩

/-- A partial slot's reset value (R26). -/
def Partial.reset : Partial where
  st := .inactive
  owner := 0
  tIdx := 0
  cache := blankCache
  penv := EnvUnit.reset
  fenv := EnvUnit.reset
  aenv := EnvUnit.reset
  lfoCnt := 0
  phase := 0
  pcmPos := 0
  pcmFrac := 0
  pcmEnded := false
  fstate := fstate0
  raw := 0
  out := 0

/-- The reset table of R41 for given construction arguments and a given `RS0`: `maxPartials` slots, the image `mem`, the
sample rate, the PCM ROM and the checked PCM wave table. -/
def State.constructed (rs0 : RevState) (maxPartials sr : Nat) (rom : List S16) (pcm : List PcmWave) (mem : Memory) :
    State where
  cp := 0
  stream := []
  parts := List.replicate Config.numParts PartRegs.reset
  voices := List.replicate maxPartials Voice.reset
  partials := List.replicate maxPartials Partial.reset
  mem := mem
  status := ⟨0, 0⟩
  reverbDirty := true
  rc := ⟨[]⟩
  rs := rs0
  readQ := []
  audioQ := []
  sr := sr
  rom := rom
  pcm := pcm

/-- The PCM ROM of `State.reset`. DESIGN CHOICE (unsafe, log 1): the host supplies it; these samples are those of
95_test_vectors.md section 0.3. -/
def resetRom : List S16 := [100, 200, 300, 400]

/-- The PCM wave table of `State.reset`. DESIGN CHOICE (unsafe, log 1): as `resetRom`. -/
def resetPcm : List PcmWave :=
  List.replicate Config.numPcmWaves ⟨[], 0, 4, true, 0, 0⟩

/-- The machine right after reset: the state after a successful construction (R41), from the construction arguments of
95_test_vectors.md section 0.3, the all-zero image among them. DESIGN CHOICE of the arguments (unsafe, log 1, log 2). -/
def State.reset : State :=
  State.constructed (fRs0 Config.openFns 32000) Config.maxPartialsDefault 32000 resetRom resetPcm []

end Sys2Proof.Machine
end

