-- ==== Sys2Proof/Machine/Layout.lean ====
section
/-! DEFINITION. The layout of the parameter memory (20_memory.md R71 to R82): the regions, the address decode, and the
legal range of every byte. Every legal range starts at 0, so a field is given by its largest legal value. -/

namespace Sys2Proof.Machine

/-- The regions of the parameter memory, in order (R72). -/
inductive Region where
  | patchTemp
  | rhythmTemp
  | timbreTemp
  | patches
  | timbres
  | system
  deriving DecidableEq, Repr

/-- A region's first address (R72). -/
def regionBase : Region → Nat
  | .patchTemp => 0x00000
  | .rhythmTemp => 0x00080
  | .timbreTemp => 0x00180
  | .patches => 0x00930
  | .timbres => 0x00D30
  | .system => 0x10330

/-- A region's record size (R72). -/
def recordSize : Region → Nat
  | .patchTemp => 16
  | .rhythmTemp => 4
  | .timbreTemp => 246
  | .patches => 8
  | .timbres => 246
  | .system => 23

/-- A region's number of records (R72). -/
def recordCount : Region → Nat
  | .patchTemp => 8
  | .rhythmTemp => 64
  | .timbreTemp => 8
  | .patches => 128
  | .timbres => 256
  | .system => 1

/-- The address of record `n` of a region (R72). -/
def recordAddr (r : Region) (n : Nat) : Nat := regionBase r + recordSize r * n

/-- The region an address of the memory lies in (R72). -/
def regionOf (a : Nat) : Region :=
  if a < 0x00080 then .patchTemp
  else if a < 0x00180 then .rhythmTemp
  else if a < 0x00930 then .timbreTemp
  else if a < 0x00D30 then .patches
  else if a < 0x10330 then .timbres
  else .system

/-- `decode(a)`: region, record and offset of an address, or nothing at `MEM_SIZE` and above (R73). -/
def decodeAddr (a : Nat) : Option (Region × Nat × Nat) :=
  if a < Config.memSize then
    let r := regionOf a
    some (r, (a - regionBase r) / recordSize r, (a - regionBase r) % recordSize r)
  else none

/-- Largest legal values of a PatchParam: timbreGroup, timbreNum, keyShift, fineTune, benderRange, assignMode,
reverbSwitch, dummy (R74). -/
def patchMax : List Nat := [3, 63, 48, 100, 24, 3, 1, 255]

/-- Largest legal values of a PatchTemp: a PatchParam, outputLevel, panpot, six dummies (R75). -/
def patchTempMax : List Nat := patchMax ++ [100, 14] ++ List.replicate 6 255

/-- Largest legal values of a RhythmTemp: timbre, outputLevel, panpot, reverbSwitch (R76). -/
def rhythmTempMax : List Nat := [94, 100, 14, 1]

/-- Largest legal values of a timbre common block: name, partialStructure12, partialStructure34, partialMute,
noSustain (R77). -/
def timbreCommonMax : List Nat := List.replicate 10 255 ++ [12, 12, 15, 1]

/-- Largest legal values of a timbre partial block, in the groups wg, penv, lfo, tvf, tva (R78). -/
def timbrePartialMax : List Nat :=
  [96, 100, 16, 1, 1, 127, 100, 14] ++
  ([10, 100, 4] ++ List.replicate 4 100 ++ List.replicate 5 100) ++
  [100, 100, 100] ++
  ([100, 30, 16, 127, 14, 100, 100, 4, 4] ++ List.replicate 5 100 ++ List.replicate 4 100) ++
  ([100, 100, 127, 12, 127, 12, 4, 4] ++ List.replicate 5 100 ++ List.replicate 4 100)

/-- The largest legal value at an offset of a timbre record: common block, then four partial blocks (R79). -/
def timbreMax (off : Nat) : Nat :=
  if off < 14 then timbreCommonMax.getD off 0 else timbrePartialMax.getD ((off - 14) % 58) 0

/-- Largest legal values of the system area: masterTune, reverbMode, reverbTime, reverbLevel, reserve[0..8],
chanAssign[0..8], masterVol (R80). -/
def systemMax : List Nat :=
  [127, 3, 7, 7] ++ List.replicate 9 32 ++ List.replicate 9 16 ++ [100]

/-- The largest legal value of the field at an offset of a region's record (R82). -/
def fieldMax : Region → Nat → Nat
  | .patchTemp, off => patchTempMax.getD off 0
  | .rhythmTemp, off => rhythmTempMax.getD off 0
  | .timbreTemp, off => timbreMax off
  | .patches, off => patchMax.getD off 0
  | .timbres, off => timbreMax off
  | .system, off => systemMax.getD off 0

/-- `legal(a, b)`: the byte value `b` lies in the legal range of the field at address `a` (R82). -/
def legal (a : Nat) (b : Byte) : Bool :=
  match decodeAddr a with
  | some (r, _, off) => decide (b.toNat ≤ fieldMax r off)
  | none => false

/-- Addresses of the system area that the block reads (R80, R81). -/
abbrev masterTuneAddr : Nat := 0x10330
abbrev reverbModeAddr : Nat := 0x10331
abbrev reverbTimeAddr : Nat := 0x10332
abbrev reverbLevelAddr : Nat := 0x10333
abbrev masterVolAddr : Nat := 0x10346

end Sys2Proof.Machine
end

