-- ==== Sys2Proof/Machine/Ops.lean ====
section
/-! DEFINITION. The shared operations: exact arithmetic and its narrowings (00_scope.md R9, R12), reads and writes of the
parameter memory (20_memory.md R88), updates of one voice or partial slot, the command pointer (10_state.md R21), and
the one outcome of a command that fails validation, a reject (00_scope.md R10, 60_exceptions.md R300 to R304). The block has
no exception entry and no return from one (R310). -/

namespace Sys2Proof.Machine

/-! ## Arithmetic -/

/-- `sat16(x)`: clamps to -32768..32767 (R9). -/
def sat16 (x : Int) : S16 := BitVec.ofInt 16 (max (-32768) (min 32767 x))

/-- `satU16(x)`: clamps to 0..65535 (R9). -/
def satU16 (x : Nat) : BitVec 16 := BitVec.ofNat 16 (min 65535 x)

/-- `satU32(x)`: clamps to 0..2^32-1 (R9). -/
def satU32 (x : Nat) : U32 := BitVec.ofNat 32 (min 4294967295 x)

/-- `a >> s`: the arithmetic right shift of an `Int`, which rounds toward minus infinity (R9). -/
def asr (a : Int) (s : Nat) : Int := a / 2 ^ s

/-- `tdiv(a, b)`: division truncated toward zero (R9). -/
def tdiv (a b : Int) : Int := Int.tdiv a b

/-- An exact `Int` held in an `Int32` register (R8, log 10). -/
def toS32 (x : Int) : S32 := BitVec.ofInt 32 x

/-- `popcount(m)` of a 4-bit mask (R9). -/
def popcount4 (m : BitVec 4) : Nat :=
  (m.getLsbD 0).toNat + (m.getLsbD 1).toNat + (m.getLsbD 2).toNat + (m.getLsbD 3).toNat

/-! ## Four-fold records -/

/-- The entry for timbre partial `t`. -/
def Quad.get {α : Type} (q : Quad α) (t : Fin 4) : α :=
  match t with
  | 0 => q.q0
  | 1 => q.q1
  | 2 => q.q2
  | 3 => q.q3

/-- Replaces the entry for timbre partial `t`. -/
def Quad.set {α : Type} (q : Quad α) (t : Fin 4) (x : α) : Quad α :=
  match t with
  | 0 => { q with q0 := x }
  | 1 => { q with q1 := x }
  | 2 => { q with q2 := x }
  | 3 => { q with q3 := x }

/-- The four entries in ascending `t`. -/
def Quad.toList {α : Type} (q : Quad α) : List α := [q.q0, q.q1, q.q2, q.q3]

/-- Applies a function to every entry. -/
def Quad.map {α β : Type} (f : α → β) (q : Quad α) : Quad β := ⟨f q.q0, f q.q1, f q.q2, f q.q3⟩

/-- The four timbre partial indices in ascending order. -/
def allT : List (Fin 4) := [0, 1, 2, 3]

/-! ## Parameter memory -/

/-- The byte at an address; an unlisted address reads as 0 (log 2). -/
def Memory.read : Memory → Nat → Byte
  | [], _ => 0#8
  | c :: rest, a => if c.1 = a then c.2 else Memory.read rest a

/-- Stores one byte, keeping the canonical form. -/
def Memory.write : Memory → Nat → Byte → Memory
  | [], a, b => if b = 0#8 then [] else [(a, b)]
  | c :: rest, a, b =>
    if a < c.1 then (if b = 0#8 then c :: rest else (a, b) :: c :: rest)
    else if a = c.1 then (if b = 0#8 then rest else (a, b) :: rest)
    else c :: Memory.write rest a b

/-- `MemRead(addr, n)` (R9). -/
def Memory.readBlock (m : Memory) (addr n : Nat) : List Byte :=
  (List.range n).map fun k => Memory.read m (addr + k)

/-- `MemWrite(addr, n, bytes)`, all bytes at once (R9). -/
def Memory.writeBlock (m : Memory) (addr : Nat) : List Byte → Memory
  | [] => m
  | b :: bs => Memory.writeBlock (Memory.write m addr b) (addr + 1) bs

/-- The canonical memory that holds the bytes of an image from an address on. -/
def Memory.ofImage (addr : Nat) : List Byte → Memory
  | [] => []
  | b :: bs => if b = 0#8 then Memory.ofImage (addr + 1) bs else (addr, b) :: Memory.ofImage (addr + 1) bs

/-! ## Slots and queues -/

/-- Changes voice slot `v` and nothing else. -/
def State.modVoice (s : State) (v : Nat) (f : Voice → Voice) : State := { s with voices := s.voices.modify v f }

/-- Changes partial slot `i` and nothing else. -/
def State.modPartial (s : State) (i : Nat) (f : Partial → Partial) : State := { s with partials := s.partials.modify i f }

/-- Changes the registers of part `p` and nothing else. -/
def State.modPart (s : State) (p : Nat) (f : PartRegs → PartRegs) : State := { s with parts := s.parts.modify p f }

/-- `partial[i].st`, a slot outside the arena counting as INACTIVE (log 11). -/
def State.partialSt (s : State) (i : Nat) : PartialState :=
  match s.partials[i]? with
  | some p => p.st
  | none => .inactive

/-- `push_read(w)` (R9). -/
def State.pushRead (s : State) (w : Word) : State := { s with readQ := s.readQ ++ [w] }

/-- `push_frame(L, R)` (R9). -/
def State.pushFrame (s : State) (fr : Frame) : State := { s with audioQ := s.audioQ ++ [fr] }

/-- Moves the command pointer past a command of `n` words (10_state.md R21). -/
def State.advance (s : State) (n : Nat) : State := { s with cp := s.cp + n }

/-! ## Rejects -/

/-- The reject codes (60_exceptions.md R301). -/
inductive RejectCode where
  | badOpcode
  | reservedBits
  | badPart
  | noPatchOnRhythm
  | badKey
  | badVelocity
  | badPatch
  | badAddress
  | illegalParam
  | rhythmUnmapped
  deriving DecidableEq, Repr

/-- The value of a reject code (R301). -/
def rejectValue : RejectCode → Byte
  | .badOpcode => 0x01
  | .reservedBits => 0x02
  | .badPart => 0x03
  | .noPatchOnRhythm => 0x04
  | .badKey => 0x05
  | .badVelocity => 0x06
  | .badPatch => 0x07
  | .badAddress => 0x08
  | .illegalParam => 0x09
  | .rhythmUnmapped => 0x0A

/-- `raise Reject(c)` by a command of `len` words: the status register and `cp` change and nothing else
(00_scope.md R10, 60_exceptions.md R300, R302). -/
def reject (len : Nat) (c : RejectCode) (s : State) : State :=
  { s with
    status := ⟨rejectValue c, satU16 (s.status.rejectCount.toNat + 1)⟩
    cp := s.cp + len }

/-- The code of the first check that fails, checks in ascending code order (R303). -/
def firstReject : List (Bool × RejectCode) → Option RejectCode
  | [] => none
  | (failed, c) :: rest => if failed then some c else firstReject rest

/-- A command of `len` words: rejected if a check failed, else applied in full; `cp` advances either way
(R300, R304, 10_state.md R21). -/
def command (len : Nat) (check : Option RejectCode) (apply : State → State) (s : State) :
    Host.Outcome State Fault Refusal :=
  match check with
  | some c => .next (reject len c s)
  | none => .next ((apply s).advance len)

/-! ## Taking a command from the stream -/

/-- The words that have arrived and not been taken, from `cp` on (R21). -/
def State.pending (s : State) : List Word := s.stream.drop s.cp

/-- The next command of the stream, if all its words have arrived (30_encoding.md R119). -/
def fetch (s : State) : Except DecodeStop Instr :=
  match decode s.pending with
  | .ok (i, _) => .ok i
  | .error e => .error e

/-- The fault that stands for a stream from which no command can be taken (R119, 60_exceptions.md R316). -/
def stopFault : DecodeStop → Fault
  | .noWord => .noCommand
  | .incomplete => .incompleteCommand

/-- The stream of `s` with the given words standing at `cp` in place of what stood there; words that have been taken
and words further on stay. A stream shorter than `cp` is filled up with zero words first. -/
def streamWith (s : State) (ws : List Word) : List Word :=
  (s.stream.take s.cp ++ List.replicate (s.cp - s.stream.length) 0) ++ ws ++ s.stream.drop (s.cp + ws.length)

end Sys2Proof.Machine
end

