-- ==== Sys2Proof/Machine/Flags.lean ====
section
/-! DEFINITION. The block has no condition flags (10_state.md R32). This file gives what flags and status it has: the status
word with its live count (R33, 40_memory_commands.md R144, R145), and the rule that sets `reverbDirty` (20_memory.md R89). -/

namespace Sys2Proof.Machine

/-- `activePartials`: the number of partial slots that are not INACTIVE (R144). -/
def activePartials (s : State) : Nat := s.partials.countP fun p => p.st ≠ .inactive

/-- `freePartials()`: the number of slots that are INACTIVE (43_voice_allocator.md R241). -/
def freePartials (s : State) : Nat := s.partials.countP fun p => p.st = .inactive

/-- The status register as STATUS pushes it: `lastReject`, `activePartials`, `rejectCount` (R33, R145). -/
def statusWord (s : State) : Word :=
  s.status.lastReject ++ BitVec.ofNat 8 (activePartials s) ++ s.status.rejectCount

/-- Whether the range `[addr, addr + n)` takes in one of the reverb bytes 0x10331 to 0x10333 (R89). -/
def touchesReverb (addr n : Nat) : Bool :=
  decide (0 < n) && decide (addr ≤ reverbLevelAddr) && decide (reverbModeAddr < addr + n)

end Sys2Proof.Machine
end

