-- ==== Sys2Proof/Machine/Operands.lean ====
section
/-! DEFINITION. Operands: which operand values a command is rejected for, in the check order of each command
(30_encoding.md R114, R115, 60_exceptions.md R301, R303), and the fields of the records a note-on reads, by name
(20_memory.md R74 to R79). -/

namespace Sys2Proof.Machine

/-! ## Operand checks -/

/-- `part > 8` (R301 BAD_PART). -/
def badPart (part : BitVec 4) : Bool := decide (Config.rhythmPart < part.toNat)

/-- `part = 8`, the rhythm part (00_scope.md R6). -/
def isRhythm (part : BitVec 4) : Bool := decide (part.toNat = Config.rhythmPart)

/-- Above 127: BAD_KEY, BAD_VELOCITY, BAD_PATCH (R301). -/
def above127 (x : Byte) : Bool := decide (127 < x.toNat)

/-- Outside the rhythm keys 24..87 (20_memory.md R85). -/
def outsideRhythmKeys (key : Byte) : Bool := decide (key.toNat < 24) || decide (87 < key.toNat)

/-- The checks of NOTE_ON (43_voice_allocator.md R250). -/
def checkNoteOn (part : BitVec 4) (key vel : Byte) (rsv : BitVec 8) : Option RejectCode :=
  firstReject [(rsv != 0#8, .reservedBits), (badPart part, .badPart), (above127 key, .badKey),
    (above127 vel, .badVelocity), (isRhythm part && outsideRhythmKeys key, .rhythmUnmapped)]

/-- The checks of NOTE_OFF (R251). -/
def checkNoteOff (part : BitVec 4) (key : Byte) (rsv : BitVec 16) : Option RejectCode :=
  firstReject [(rsv != 0#16, .reservedBits), (badPart part, .badPart), (above127 key, .badKey)]

/-- The checks of SUSTAIN (R252). -/
def checkSustain (part : BitVec 4) (rsv : BitVec 23) : Option RejectCode :=
  firstReject [(rsv != 0#23, .reservedBits), (badPart part, .badPart)]

/-- The checks of PROGRAM_CHANGE (R253). -/
def checkProgramChange (part : BitVec 4) (patch : Byte) (rsv : BitVec 16) : Option RejectCode :=
  firstReject [(rsv != 0#16, .reservedBits), (badPart part, .badPart), (isRhythm part, .noPatchOnRhythm),
    (above127 patch, .badPatch)]

/-- The checks of ALL_NOTES_OFF (R254). -/
def checkAllNotesOff (part : BitVec 4) (rsv : BitVec 24) : Option RejectCode :=
  firstReject [(rsv != 0#24, .reservedBits), (badPart part, .badPart)]

/-- A block's range runs past the end of the memory, computed exactly (40_memory_commands.md R140, R141). -/
def badAddress (addr : BitVec 24) (n : BitVec 16) : Bool := decide (Config.memSize < addr.toNat + n.toNat)

/-- Every byte is legal at its own address, the first at `addr` (R142). -/
def allLegal (addr : Nat) : List Byte → Bool
  | [] => true
  | b :: bs => legal addr b && allLegal (addr + 1) bs

/-- The checks of BLOCK_WRITE (R142). -/
def checkBlockWrite (rsv : BitVec 4) (addr : BitVec 24) (rsvLen n : BitVec 16) (data : List Word) : Option RejectCode :=
  firstReject [(rsv != 0#4 || rsvLen != 0#16 || unusedDataBits data n, .reservedBits), (badAddress addr n, .badAddress),
    (!allLegal addr.toNat (unpackBytes data n.toNat), .illegalParam)]

/-- The checks of BLOCK_READ (R143). -/
def checkBlockRead (rsv : BitVec 4) (addr : BitVec 24) (rsvLen n : BitVec 16) : Option RejectCode :=
  firstReject [(rsv != 0#4 || rsvLen != 0#16, .reservedBits), (badAddress addr n, .badAddress)]

/-- The checks of RENDER (44_mixer_render.md R280). -/
def checkRender (rsv : BitVec 4) : Option RejectCode := firstReject [(rsv != 0#4, .reservedBits)]

/-- The checks of STATUS (R145). -/
def checkStatus (rsv : BitVec 27) : Option RejectCode := firstReject [(rsv != 0#27, .reservedBits)]

/-! ## Fields of records -/

/-- The byte at an offset of a record. -/
def byteAt (rec : List Byte) (off : Nat) : Byte := rec.getD off 0

/-- Fields of a timbre's common block (R77). -/
def partialStructure12 (timbre : List Byte) : Byte := byteAt timbre 10
def partialStructure34 (timbre : List Byte) : Byte := byteAt timbre 11
def noSustain (timbre : List Byte) : Byte := byteAt timbre 13

/-- The playable set `m = T[12] & 0xF` (41_patch_cache.md R161, 43_voice_allocator.md R243). -/
def partialMask (timbre : List Byte) : BitVec 4 := (byteAt timbre 12).extractLsb' 0 4

/-- Timbre partial `t` is playable (R161). -/
def playable (timbre : List Byte) (t : Fin 4) : Bool := (partialMask timbre).getLsbD t.val

/-- Partial block `t` of a timbre, 58 bytes at offset `14 + 58*t` (R79). -/
def partialBlock (timbre : List Byte) (t : Fin 4) : List Byte := (timbre.drop (14 + 58 * t.val)).take 58

/-- Fields of a partial block (R78). -/
def wgPitchCoarse (src : List Byte) : Byte := byteAt src 0
def wgPitchFine (src : List Byte) : Byte := byteAt src 1
def wgPitchKeyfollow (src : List Byte) : Byte := byteAt src 2
def wgPitchBenderEnabled (src : List Byte) : Byte := byteAt src 3
def wgWaveform (src : List Byte) : Byte := byteAt src 4
def wgPcmWave (src : List Byte) : Byte := byteAt src 5
def wgPulseWidth (src : List Byte) : Byte := byteAt src 6
def wgPulseWidthVeloSens (src : List Byte) : Byte := byteAt src 7
def penvDepth (src : List Byte) : Byte := byteAt src 8
def penvVeloSens (src : List Byte) : Byte := byteAt src 9
def penvTimeKeyfollow (src : List Byte) : Byte := byteAt src 10
def penvTime (src : List Byte) (i : Nat) : Byte := byteAt src (11 + i)
def penvLevel (src : List Byte) (i : Nat) : Byte := byteAt src (15 + i)
def lfoRate (src : List Byte) : Byte := byteAt src 20
def lfoDepth (src : List Byte) : Byte := byteAt src 21
def lfoModSensitivity (src : List Byte) : Byte := byteAt src 22
def tvfCutoff (src : List Byte) : Byte := byteAt src 23
def tvfResonance (src : List Byte) : Byte := byteAt src 24
def tvfKeyfollow (src : List Byte) : Byte := byteAt src 25
def tvfBiasPoint (src : List Byte) : Byte := byteAt src 26
def tvfBiasLevel (src : List Byte) : Byte := byteAt src 27
def tvfEnvDepth (src : List Byte) : Byte := byteAt src 28
def tvfEnvVeloSens (src : List Byte) : Byte := byteAt src 29
def tvfEnvDepthKeyfollow (src : List Byte) : Byte := byteAt src 30
def tvfEnvTimeKeyfollow (src : List Byte) : Byte := byteAt src 31
def tvfEnvTime (src : List Byte) (i : Nat) : Byte := byteAt src (32 + i)
def tvfEnvLevel (src : List Byte) (i : Nat) : Byte := byteAt src (37 + i)
def tvaLevel (src : List Byte) : Byte := byteAt src 41
def tvaVeloSens (src : List Byte) : Byte := byteAt src 42
def tvaBiasPoint1 (src : List Byte) : Byte := byteAt src 43
def tvaBiasLevel1 (src : List Byte) : Byte := byteAt src 44
def tvaBiasPoint2 (src : List Byte) : Byte := byteAt src 45
def tvaBiasLevel2 (src : List Byte) : Byte := byteAt src 46
def tvaEnvTimeKeyfollow (src : List Byte) : Byte := byteAt src 47
def tvaEnvTimeVeloSens (src : List Byte) : Byte := byteAt src 48
def tvaEnvTime (src : List Byte) (i : Nat) : Byte := byteAt src (49 + i)
def tvaEnvLevel (src : List Byte) (i : Nat) : Byte := byteAt src (54 + i)

/-- The patch context of a note (41_patch_cache.md R163). -/
structure PatchContext where
  keyShift : Byte
  fineTune : Byte
  benderRange : Byte
  assignMode : Byte
  reverb : Bool
  level : Byte
  pan : Byte
  deriving DecidableEq, Repr

/-- The context a PATCH_TEMP record gives a melodic part (R163, 43_voice_allocator.md R242). -/
def melodicContext (patchTemp : List Byte) : PatchContext where
  keyShift := byteAt patchTemp 2
  fineTune := byteAt patchTemp 3
  benderRange := byteAt patchTemp 4
  assignMode := byteAt patchTemp 5
  reverb := byteAt patchTemp 6 == 1#8
  level := byteAt patchTemp 8
  pan := byteAt patchTemp 9

/-- The context a RHYTHM_TEMP record gives the rhythm part (R163, R242). -/
def rhythmContext (rhythmTemp : List Byte) : PatchContext where
  keyShift := 24
  fineTune := 50
  benderRange := 0
  assignMode := 2
  reverb := byteAt rhythmTemp 3 == 1#8
  level := byteAt rhythmTemp 1
  pan := byteAt rhythmTemp 2

/-- The frequency of a note, `key + keyShift - 24` (R162, R245). -/
def noteFreq (key : Byte) (ctx : PatchContext) : S32 := toS32 (key.toNat + ctx.keyShift.toNat - 24)

/-- The two policies of an assign mode (43_voice_allocator.md R248). -/
inductive AssignPolicy where
  | mono
  | poly
  deriving DecidableEq, Repr

/-- `ASSIGN_POLICY`: modes 0 and 1 are MONO, modes 2 and 3 are POLY (R248, 00_scope.md R6). -/
def assignPolicy (mode : Byte) : AssignPolicy := if mode.toNat < 2 then .mono else .poly

end Sys2Proof.Machine
end

