-- ==== Sys2Proof/Machine/MemoryCommands.lean ====
section
/-! DEFINITION. The memory-model commands: BLOCK_WRITE, BLOCK_READ, STATUS (40_memory_commands.md R140 to R145). -/

namespace Sys2Proof.Machine

/-- What a BLOCK_WRITE that passed its checks does: all bytes at once, and `reverbDirty` where the range takes in a
reverb byte (R142, 20_memory.md R89, R90). -/
def writeBytes (addr : Nat) (bytes : List Byte) (s : State) : State :=
  { s with
    mem := Memory.writeBlock s.mem addr bytes
    reverbDirty := s.reverbDirty || touchesReverb addr bytes.length }

/-- BLOCK_WRITE (R142). A term with fewer data words than its length word asks for is a command whose words have not all
arrived: the engine is stuck (30_encoding.md R119, log 12). -/
def execBlockWrite (rsv : BitVec 4) (addr : BitVec 24) (rsvLen n : BitVec 16) (data : List Word) (s : State) :
    Host.Outcome State Fault Refusal :=
  if data.length < dataWords n then .fault .incompleteCommand
  else
    command (2 + dataWords n) (checkBlockWrite rsv addr rsvLen n data)
      (writeBytes addr.toNat (unpackBytes data n.toNat)) s

/-- What a BLOCK_READ that passed its checks does: pushes the bytes packed four to a word (R143, 30_encoding.md R118). -/
def readBytes (addr n : Nat) (s : State) : State :=
  { s with readQ := s.readQ ++ packBytes (Memory.readBlock s.mem addr n) }

/-- BLOCK_READ (R143). -/
def execBlockRead (rsv : BitVec 4) (addr : BitVec 24) (rsvLen n : BitVec 16) (s : State) :
    Host.Outcome State Fault Refusal :=
  command 2 (checkBlockRead rsv addr rsvLen n) (readBytes addr.toNat n.toNat) s

/-- What a STATUS that passed its checks does: pushes the status word as it stands, then clears the two stored fields
where `clear = 1` (R145). -/
def pushStatus (clear : Bool) (s : State) : State :=
  let s1 := s.pushRead (statusWord s)
  if clear then { s1 with status := ⟨0, 0⟩ } else s1

/-- STATUS (R145). -/
def execStatus (rsv : BitVec 27) (clear : BitVec 1) (s : State) : Host.Outcome State Fault Refusal :=
  command 1 (checkStatus rsv) (pushStatus (clear == 1#1)) s

end Sys2Proof.Machine
end

