-- ==== Sys2Proof/Machine/Partial.lean ====
section
/-! DEFINITION. The partial unit (42_partial.md): its state machine (R190 to R196) and one step of one partial for one output
frame (R197 to R206). -/

namespace Sys2Proof.Machine

/-! ## Envelopes -/

/-- `envInit(D)` (R191). -/
def envInit (D : EnvDef) : EnvUnit := ⟨.atk 0, 0, D.init, D.init⟩

/-- The segment an envelope unit is in; `none` in HOLD and DONE, where a step changes nothing (R192). -/
def envSegment (E : EnvUnit) (D : EnvDef) : Option EnvSeg :=
  match E.phase with
  | .atk j => D.atk[j]?
  | .rel => some D.rel
  | .hold => none
  | .done => none

/-- `next(phase, D)`, the phase after a segment completes (R192). -/
def envNext (phase : EnvPhase) (D : EnvDef) : EnvPhase :=
  match phase with
  | .atk j =>
    if j + 1 < D.atk.length then .atk (j + 1)
    else if D.sustain then .hold else .rel
  | .rel => .done
  | .hold => .hold
  | .done => .done

/-- `envStep(E, D)`: one sample of an envelope unit (R192). -/
def envStep (F : OpenFns) (E : EnvUnit) (D : EnvDef) : EnvUnit :=
  match envSegment E D with
  | none => E
  | some seg =>
    let c := E.cnt.toNat + 1
    if seg.dur ≤ c then ⟨envNext E.phase D, 0, seg.target, seg.target⟩
    else
      { E with
        cnt := countU32 F c
        level := toS32 (E.start.toInt + tdiv ((seg.target.toInt - E.start.toInt) * c) seg.dur) }

/-- `envRelease(E)` (R193). -/
def envRelease (E : EnvUnit) : EnvUnit :=
  match E.phase with
  | .atk _ => { E with phase := .rel, start := E.level, cnt := 0 }
  | .hold => { E with phase := .rel, start := E.level, cnt := 0 }
  | .rel => E
  | .done => E

/-! ## State machine -/

/-- `startPartial(i, v, t, c)`: every field of the slot (R191). -/
def startedPartial (v : Nat) (t : Fin 4) (c : PatchCache) : Partial where
  st := .attack
  owner := v
  tIdx := t
  cache := c
  penv := envInit c.penvDef
  fenv := envInit c.fenvDef
  aenv := envInit c.aenvDef
  lfoCnt := 0
  phase := 0
  pcmPos := 0
  pcmFrac := 0
  pcmEnded := false
  fstate := fstate0
  raw := 0
  out := 0

/-- `releasePartial(i)` on the slot's contents (R193). -/
def releasePartial (p : Partial) : Partial :=
  if p.st = .attack ∨ p.st = .sustainHold then
    { p with st := .release, penv := envRelease p.penv, fenv := envRelease p.fenv, aenv := envRelease p.aenv }
  else p

/-- `killPartial(i)` on the slot's contents (R196). -/
def killPartial (p : Partial) : Partial := { p with st := .inactive }

/-- The envelope-driven transition of a partial in ATTACK (R194). -/
def attackNext (st : PartialState) (aenvPhase : EnvPhase) : PartialState :=
  match st with
  | .attack =>
    match aenvPhase with
    | .hold => .sustainHold
    | .rel => .release
    | .done => .release
    | .atk _ => .attack
  | .sustainHold => .sustainHold
  | .release => .release
  | .inactive => .inactive

/-- The end of a partial in RELEASE: its TVA unit is DONE, or its level is at most `SILENCE_LEVEL` (R195). -/
def silenceNext (st : PartialState) (aenv : EnvUnit) : PartialState :=
  if st = .release ∧ (aenv.phase = .done ∨ aenv.level.toInt ≤ Config.silenceLevel) then .inactive else st

/-! ## Per-sample algorithm -/

/-- The LFO counter after a step (R197). -/
def lfoNext (F : OpenFns) (cnt : U32) (period : Nat) : U32 := countU32 F ((cnt.toNat + 1) % period)

/-- The LFO value read at a counter: the sine entry at `(cnt * 65536) div period`, or 0 where the LFO is off (R197). -/
def lfoValue (F : OpenFns) (sr : Nat) (c : PatchCache) (cnt : U32) : S32 :=
  if c.lfoOn then ((tables F sr).sine (BitVec.ofNat 16 (cnt.toNat * 65536 / c.lfoPeriod))).signExtend 32 else 0

/-- The partner of a partial: the live slot its owning voice names at its cache's partner index (10_state.md R29). -/
def partnerSlot (s : State) (p : Partial) : Option Partial :=
  match p.cache.partner, s.voices[p.owner]? with
  | some q, some v =>
    match v.partials.get q with
    | some j =>
      match s.partials[j]? with
      | some pj => if pj.st ≠ .inactive then some pj else none
      | none => none
    | none => none
  | _, _ => none

/-- `part[voice[P.owner].part].bend` where the cache has the bender on, else 0 (R198). -/
def bendOf (s : State) (p : Partial) : S32 :=
  if p.cache.benderOn then
    match s.voices[p.owner]? with
    | some v =>
      match s.parts[v.part.toNat]? with
      | some r => r.bend
      | none => 0
    | none => 0
  else 0

/-- `Rom(i)`; a sample outside the ROM is never read (00_scope.md R9, 20_memory.md R98, log 11). -/
def romAt (rom : List S16) (i : Nat) : S16 := rom.getD i 0

/-- What the oscillator of one step gives: the sample, and the position registers after the advance. -/
structure OscStep where
  sample : S16
  phase : U32
  pcmPos : Nat
  pcmFrac : BitVec 16
  pcmEnded : Bool
  deriving DecidableEq, Repr

/-- The synthesized oscillator: the sample at the phase before the advance; the phase wraps modulo 2^32 (R199). -/
def synthStep (F : OpenFns) (sr : Nat) (p : Partial) (inc : U32) : OscStep :=
  ⟨F.synth (commonTables F sr) p.cache.waveform p.cache.pwEff p.phase, p.phase + inc, p.pcmPos, p.pcmFrac, p.pcmEnded⟩

/-- The position after an advance to `pos` in a wave: folded into the loop past the end of a looping wave (R200). -/
def pcmFold (w : PcmWave) (pos : Nat) : Nat :=
  if w.len ≤ pos ∧ w.loop then w.loopStart + (pos - w.loopStart) % (w.len - w.loopStart) else pos

/-- The PCM fetch of a wave: the sample at the position before the advance, without interpolation (R200). -/
def pcmStep (rom : List S16) (w : PcmWave) (p : Partial) (inc : U32) : OscStep :=
  if p.pcmEnded then ⟨0, p.phase, p.pcmPos, p.pcmFrac, true⟩
  else
    let total := p.pcmPos * 65536 + p.pcmFrac.toNat + inc.toNat
    let pos := total / 65536
    ⟨romAt rom (w.addr + p.pcmPos), p.phase, pcmFold w pos, BitVec.ofNat 16 (total % 65536), decide (w.len ≤ pos) && !w.loop⟩

/-- The raw sample of a step, PCM or synthesized as the cache says (R199, R200, R206 step 3). A wave outside the table
gives nothing (log 11). -/
def oscStep (F : OpenFns) (s : State) (p : Partial) (inc : U32) : OscStep :=
  if p.cache.pcm then
    match s.pcm[p.cache.pcmWave.toNat]? with
    | some w => pcmStep s.rom w p inc
    | none => ⟨0, p.phase, p.pcmPos, p.pcmFrac, p.pcmEnded⟩
  else synthStep F s.sr p inc

/-- `ring(a, b) = sat16((a * b) >> 15)` (R202). -/
def ring (a b : S16) : S16 := sat16 (asr (a.toInt * b.toInt) 15)

/-- The filter's input: the slave of a pair of mix 1 or 2 is ring-modulated by its partner's `raw` (R202). -/
def combine (s : State) (p : Partial) (sample : S16) : S16 :=
  if (p.cache.mix = 1 ∨ p.cache.mix = 2) ∧ p.cache.structPos = 1 then
    match partnerSlot s p with
    | some pj => ring pj.raw sample
    | none => sample
  else sample

/-- The amplifier's output: the master of a pair of mix 2 is muted while it has a partner (R204). -/
def ampOut (F : OpenFns) (s : State) (p : Partial) (aenvLevel : S32) (y : S16) : S16 :=
  if p.cache.mix = 2 ∧ p.cache.structPos = 0 ∧ (partnerSlot s p).isSome then 0
  else fTva F s.sr p.cache aenvLevel y

/-- One whole step of a partial: the slot's contents after it (R206). -/
def steppedPartial (F : OpenFns) (s : State) (p : Partial) : Partial :=
  let c := p.cache
  -- 1. envelopes
  let penv := envStep F p.penv c.penvDef
  let fenv := envStep F p.fenv c.fenvDef
  let aenv := envStep F p.aenv c.aenvDef
  let st := attackNext p.st aenv.phase
  -- 2. LFO and pitch
  let lfoCnt := lfoNext F p.lfoCnt c.lfoPeriod
  let inc := F.pitch (commonTables F s.sr) (pitchTables F s.sr) c penv.level (lfoValue F s.sr c lfoCnt) (bendOf s p)
  -- 3. raw sample
  let osc := oscStep F s p inc
  -- 4. structure combination
  let x := combine s p osc.sample
  -- 5. TVF and 6. TVA
  let (y, fstate) := F.tvf (commonTables F s.sr) (filterTables F s.sr) c fenv.level p.fstate x
  -- 7. emit and silence
  { p with
    st := silenceNext st aenv
    penv := penv
    fenv := fenv
    aenv := aenv
    lfoCnt := lfoCnt
    phase := osc.phase
    pcmPos := osc.pcmPos
    pcmFrac := osc.pcmFrac
    pcmEnded := osc.pcmEnded
    fstate := fstate
    raw := osc.sample
    out := ampOut F s p aenv.level y }

/-- `stepPartial(i)` (R206). -/
def stepPartial (F : OpenFns) (s : State) (i : Nat) : State :=
  s.modPartial i (steppedPartial F s)

end Sys2Proof.Machine
end

