-- ==== Sys2Proof/Machine/Mixer.lean ====
section
/-! DEFINITION. The mixer and sample renderer: RENDER and the frame step (44_mixer_render.md R280 to R289). -/

namespace Sys2Proof.Machine

/-- `reverbRecompute()` (R283). -/
def reverbRecompute (F : OpenFns) (s : State) : State :=
  { s with
    rc := F.reverbInit (commonTables F s.sr) (Memory.read s.mem reverbModeAddr) (Memory.read s.mem reverbTimeAddr)
      (Memory.read s.mem reverbLevelAddr) s.sr
    rs := fRs0 F s.sr
    reverbDirty := false }

/-- Steps the partial a voice names at one timbre index, if there is one and it is not INACTIVE (R281 step 2). -/
def stepNamed (F : OpenFns) (s : State) (i : Option Nat) : State :=
  match i with
  | some i => if s.partialSt i ≠ .inactive then stepPartial F s i else s
  | none => s

/-- Steps the partials of voice `v` in the order `t = 0, 1, 2, 3` (R281 step 2, 42_partial.md R207). -/
def stepVoice (F : OpenFns) (s : State) (v : Nat) : State :=
  match s.voices[v]? with
  | some x => if x.playing then x.partials.toList.foldl (stepNamed F) s else s
  | none => s

/-- Steps every partial, voices in ascending order (R281 step 2, 42_partial.md R207). -/
def stepPartials (F : OpenFns) (s : State) : State := (List.range s.voices.length).foldl (stepVoice F) s

/-- `out` of the partial a voice names, 0 where it names none. -/
def outOf (s : State) (i : Option Nat) : Int :=
  match i with
  | some i =>
    match s.partials[i]? with
    | some p => p.out.toInt
    | none => 0
  | none => 0

/-- The sum of a voice's outputs (R287). -/
def voiceSum (s : State) (x : Voice) : Int := (x.partials.toList.map (outOf s)).sum

/-- The three buses of the dry mix (R287). -/
structure Mix where
  dryL : Int
  dryR : Int
  send : Int
  deriving DecidableEq, Repr

/-- Adds one playing voice to the buses (R287). -/
def mixVoice (F : OpenFns) (s : State) (mix : Mix) (x : Voice) : Mix :=
  if x.playing then
    let g := fGain F s.sr (toS32 (voiceSum s x)) x.level x.masterVol
    { dryL := mix.dryL + asr (g * fPanL F s.sr x.pan) 15
      dryR := mix.dryR + asr (g * fPanR F s.sr x.pan) 15
      send := if x.reverb then mix.send + g else mix.send }
  else mix

/-- `mixVoices()` (R287). -/
def mixVoices (F : OpenFns) (s : State) : Mix := s.voices.foldl (mixVoice F s) ⟨0, 0, 0⟩

/-- Reverb and output: one reverb step, and the frame it makes with the dry mix (R288, R289). -/
def outputFrame (F : OpenFns) (s : State) : State :=
  let mix := mixVoices F s
  let (revL, revR, rs) := F.reverbStep (commonTables F s.sr) s.rc s.rs mix.send
  { s with rs := rs }.pushFrame ⟨sat16 (mix.dryL + revL), sat16 (mix.dryR + revR)⟩

/-- `clearInactive()` on one voice (R284). -/
def clearVoice (s : State) (x : Voice) : Voice :=
  if x.playing then
    { x with partials := x.partials.map fun i => match i with
        | some i => if s.partialSt i = .inactive then none else some i
        | none => none }
  else x

/-- `freeEmptyVoices()` on one voice (R285). -/
def freeVoice (x : Voice) : Voice := if x.playing && x.partials == Quad.const none then Voice.reset else x

/-- `ageVoices()` on one voice (R286). -/
def ageVoice (x : Voice) : Voice := if x.playing then { x with age := satU32 (x.age.toNat + 1) } else x

/-- The bookkeeping of a frame: clear ended partials, free empty voices, age the rest (R281 step 6, R284 to R286). -/
def bookkeep (s : State) : State :=
  { s with voices := s.voices.map fun x => ageVoice (freeVoice (clearVoice s x)) }

/-- `frameStep()` (R281). -/
def frameStep (F : OpenFns) (s : State) : State :=
  let s1 := if s.reverbDirty then reverbRecompute F s else s
  bookkeep (outputFrame F (stepPartials F s1))

/-- `repeat f times: frameStep()` (R280). -/
def frames (F : OpenFns) : Nat → State → State
  | 0, s => s
  | k + 1, s => frames F k (frameStep F s)

/-- RENDER over any collection of OPEN functions (R280). -/
def renderWith (F : OpenFns) (rsv : BitVec 4) (count : BitVec 24) (s : State) : Host.Outcome State Fault Refusal :=
  command 1 (checkRender rsv) (frames F count.toNat) s

/-- RENDER (R280). -/
def execRender (rsv : BitVec 4) (count : BitVec 24) (s : State) : Host.Outcome State Fault Refusal :=
  renderWith Config.openFns rsv count s

end Sys2Proof.Machine
end

