-- ==== Sys2Proof/Machine/Reserved.lean ====
section
/-! DEFINITION. The reserved opcodes: each word is one command that is rejected BAD_OPCODE and no other check is made
(30_encoding.md R116, 60_exceptions.md R301, R303). -/

namespace Sys2Proof.Machine

/-- A header word with a reserved opcode (R116). -/
def rejectOpcode (s : State) : Host.Outcome State Fault Refusal := command 1 (some .badOpcode) id s

/-- Opcode 0x0 (R116). -/
def execReserved0 (s : State) : Host.Outcome State Fault Refusal := rejectOpcode s

/-- Opcodes 0xA and 0xB (R116). -/
def execReservedAB (s : State) : Host.Outcome State Fault Refusal := rejectOpcode s

/-- Opcodes 0xC to 0xF (R116). -/
def execReservedCF (s : State) : Host.Outcome State Fault Refusal := rejectOpcode s

end Sys2Proof.Machine
end

