-- ==== Sys2Proof/Machine/CacheBuilder.lean ====
section
/-! DEFINITION. The patch cache builder (41_patch_cache.md R160 to R172). -/

namespace Sys2Proof.Machine

/-- `STRUCT_TABLE`: `pcmBits` and `mix` of structures 1 to 13 (R164). -/
def structTable : List (BitVec 2 × Fin 4) :=
  [(0, 0), (0, 1), (2, 0), (2, 1), (1, 1), (3, 0), (3, 1), (0, 3), (3, 3), (0, 2), (2, 2), (1, 2), (3, 2)]

/-- The structure row of the pair that timbre partial `t` belongs to (R164, R165). -/
def structRow (timbre : List Byte) (t : Fin 4) : BitVec 2 × Fin 4 :=
  let s := if t.val < 2 then partialStructure12 timbre else partialStructure34 timbre
  structTable.getD s.toNat (0, 0)

/-- `structPos`: 0 for the master `t = 0, 2`, 1 for the slave `t = 1, 3` (R165). -/
def structPosOf (t : Fin 4) : Fin 2 := ⟨t.val % 2, by omega⟩

/-- `t xor 1`, the other partial of the pair (R165). -/
def pairOf (t : Fin 4) : Fin 4 :=
  match t with
  | 0 => 1
  | 1 => 0
  | 2 => 3
  | 3 => 2

/-- The PCM flag: bit 1 of `pcmBits` for position 0, bit 0 for position 1 (R164, R165). -/
def pcmFlag (timbre : List Byte) (t : Fin 4) : Bool :=
  if structPosOf t = 0 then (structRow timbre t).1.getLsbD 1 else (structRow timbre t).1.getLsbD 0

/-- The partner: the other partial of the pair where it is playable (R165). -/
def partnerOf (timbre : List Byte) (t : Fin 4) : Option (Fin 4) :=
  if playable timbre (pairOf t) then some (pairOf t) else none

/-- A bias side: direction in bit 6, key point `33 + bits[5:0]`, level less an offset (R171, R172). -/
def biasSide (point levelByte : Byte) (levelOffset : Int) : BiasSide where
  dir := point.getLsbD 6
  pointKey := 33 + (point &&& 0x3F)
  level := toS32 (levelByte.toNat - levelOffset)

/-- The pitch envelope's definition (R170). -/
def pitchEnvDef (F : OpenFns) (sr : Nat) (src : List Byte) (freq : S32) (vel : Byte) (sustain : Bool) : EnvDef :=
  let level (i : Nat) : S32 :=
    fEnvLevel F sr ⟨.pitch, penvLevel src i, penvDepth src, penvVeloSens src, 0, freq, vel⟩
  let time (i : Nat) : Nat := fEnvTime F ⟨.pitch, penvTime src i, penvTimeKeyfollow src, 0, freq, vel, sr⟩
  { init := level 0
    atk := [⟨level 1, time 0⟩, ⟨level 2, time 1⟩, ⟨level 3, time 2⟩]
    rel := ⟨level 4, time 3⟩
    sustain := sustain }

/-- The TVF envelope's definition (R170). -/
def tvfEnvDef (F : OpenFns) (sr : Nat) (src : List Byte) (freq : S32) (vel : Byte) (sustain : Bool) : EnvDef :=
  let level (i : Nat) : S32 :=
    fEnvLevel F sr ⟨.tvf, tvfEnvLevel src i, tvfEnvDepth src, tvfEnvVeloSens src, tvfEnvDepthKeyfollow src, freq, vel⟩
  let time (i : Nat) : Nat := fEnvTime F ⟨.tvf, tvfEnvTime src i, tvfEnvTimeKeyfollow src, 0, freq, vel, sr⟩
  { init := 0
    atk := [⟨level 0, time 0⟩, ⟨level 1, time 1⟩, ⟨level 2, time 2⟩, ⟨level 3, time 3⟩]
    rel := ⟨0, time 4⟩
    sustain := sustain }

/-- The TVA envelope's definition (R170). -/
def tvaEnvDef (F : OpenFns) (sr : Nat) (src : List Byte) (freq : S32) (vel : Byte) (sustain : Bool) : EnvDef :=
  let level (i : Nat) : S32 :=
    fEnvLevel F sr ⟨.tva, tvaEnvLevel src i, tvaLevel src, tvaVeloSens src, 0, freq, vel⟩
  let time (i : Nat) : Nat :=
    fEnvTime F ⟨.tva, tvaEnvTime src i, tvaEnvTimeKeyfollow src, tvaEnvTimeVeloSens src, freq, vel, sr⟩
  { init := 0
    atk := [⟨level 0, time 0⟩, ⟨level 1, time 1⟩, ⟨level 2, time 2⟩, ⟨level 3, time 3⟩]
    rel := ⟨0, time 4⟩
    sustain := sustain }

/-- The tuning of a PCM wave; a wave outside the table has none (R166, log 11). -/
def waveTuning (pcmTable : List PcmWave) (wave : Byte) : S32 :=
  match pcmTable[wave.toNat]? with
  | some w => w.tuning
  | none => 0

/-- The cache of timbre partial `t`, every field of R162 (R164 to R172). -/
def cacheOf (F : OpenFns) (sr : Nat) (pcmTable : List PcmWave) (masterTune : Byte) (timbre : List Byte) (t : Fin 4)
    (ctx : PatchContext) (key vel : Byte) : PatchCache :=
  let src := partialBlock timbre t
  let freq := noteFreq key ctx
  let pcm := pcmFlag timbre t
  let sustain := noSustain timbre == 0#8
  let pitchKF := F.keyfollowPitch (commonTables F sr) (wgPitchKeyfollow src)
  { t := t
    src := src
    key := key
    vel := vel
    freq := freq
    pcm := pcm
    pcmWave := wgPcmWave src
    waveform := wgWaveform src
    structPos := structPosOf t
    partner := partnerOf timbre t
    mix := (structRow timbre t).2
    sustainP := sustain
    sustainF := sustain
    sustainA := sustain
    pitchKF := pitchKF
    basePitch := F.basePitch (commonTables F sr) ⟨wgPitchCoarse src, wgPitchFine src, pitchKF, freq, ctx.fineTune,
      masterTune, pcm, if pcm then waveTuning pcmTable (wgPcmWave src) else 0⟩
    benderOn := wgPitchBenderEnabled src == 1#8
    benderRange := ctx.benderRange
    pwEff := F.pw (commonTables F sr) (wgPulseWidth src) (wgPulseWidthVeloSens src) vel
    lfoPeriod := fLfoPeriod F (lfoRate src) sr
    lfoDepth := F.lfoDepth (commonTables F sr) (lfoTables F sr) (lfoDepth src) (lfoModSensitivity src)
    lfoOn := lfoDepth src != 0#8
    penvDef := pitchEnvDef F sr src freq vel sustain
    fenvDef := tvfEnvDef F sr src freq vel sustain
    aenvDef := tvaEnvDef F sr src freq vel sustain
    tvfBias := biasSide (tvfBiasPoint src) (tvfBiasLevel src) 7
    ampBias0 := biasSide (tvaBiasPoint1 src) (tvaBiasLevel1 src) 12
    ampBias1 := biasSide (tvaBiasPoint2 src) (tvaBiasLevel2 src) 12 }

/-- `buildCache(T, t, ctx, key, vel)`: `none` is INVALID, for an index outside 0..3 or a partial that is not playable
(R160, R161). -/
def buildCache (F : OpenFns) (sr : Nat) (pcmTable : List PcmWave) (masterTune : Byte) (timbre : List Byte) (t : Nat)
    (ctx : PatchContext) (key vel : Byte) : Option PatchCache :=
  if h : t < 4 then
    if playable timbre ⟨t, h⟩ then some (cacheOf F sr pcmTable masterTune timbre ⟨t, h⟩ ctx key vel) else none
  else none

end Sys2Proof.Machine
end

