-- ==== Sys2Proof/Machine/Allocator.lean ====
section
/-! DEFINITION. The shared procedures of the voice allocator (43_voice_allocator.md R240 to R249). -/

namespace Sys2Proof.Machine

/-! ## Choices (R241) -/

/-- The oldest of the voices of a list that a test admits, slots counted from `v`, beside the best so far: the greatest
age, among equal ages the lowest slot (R241). -/
def oldestFrom (p : Voice → Bool) : List Voice → Nat → Option (Nat × Nat) → Option (Nat × Nat)
  | [], _, best => best
  | x :: rest, v, best =>
    if p x then
      match best with
      | some (u, age) =>
        if age < x.age.toNat then oldestFrom p rest (v + 1) (some (v, x.age.toNat))
        else oldestFrom p rest (v + 1) (some (u, age))
      | none => oldestFrom p rest (v + 1) (some (v, x.age.toNat))
    else oldestFrom p rest (v + 1) best

/-- The slot of the oldest voice that a test admits (R241). -/
def oldest (p : Voice → Bool) (voices : List Voice) : Option Nat := (oldestFrom p voices 0 none).map (·.1)

/-- The lowest free voice (R241). -/
def lowestFreeVoice (s : State) : Option Nat := s.voices.findIdx? fun x => !x.playing

/-- The lowest free partial (R241). -/
def lowestFreePartial (s : State) : Option Nat := s.partials.findIdx? fun p => decide (p.st = .inactive)

/-! ## Release and stealing -/

/-- Applies a change to a partial slot, if there is one. -/
def modSlot (f : Partial → Partial) (s : State) (i : Option Nat) : State :=
  match i with
  | some i => s.modPartial i f
  | none => s

/-- Applies a change to every partial slot a voice names, in ascending `t`. -/
def modNamed (s : State) (q : Quad (Option Nat)) (f : Partial → Partial) : State := q.toList.foldl (modSlot f) s

/-- `releaseVoice(v)` (R249). -/
def releaseVoice (s : State) (v : Nat) : State :=
  match s.voices[v]? with
  | some x =>
    modNamed (s.modVoice v fun x => { x with decay := true, pedalHeld := false }) x.partials releasePartial
  | none => s

/-- Kills the partials of voice `u` and frees its slot (R247). -/
def killVoice (s : State) (u : Nat) : State :=
  match s.voices[u]? with
  | some x => (modNamed s x.partials killPartial).modVoice u fun _ => Voice.reset
  | none => s

/-- Voice stealing: while fewer than `n` partial slots are free, the oldest playing voice is killed; at most `fuel`
passes (R247; `MAX_PARTIALS` passes always suffice, log 12). -/
def stealVoices (n : Nat) : Nat → State → State
  | 0, s => s
  | fuel + 1, s =>
    if freePartials s < n then
      match oldest (·.playing) s.voices with
      | some u => stealVoices n fuel (killVoice s u)
      | none => s
    else s

/-- `monoRelease(p)`: releases the oldest voice of the part that is playing and not decaying (R248). -/
def monoRelease (s : State) (p : Nat) : State :=
  match oldest (fun x => x.playing && x.part.toNat == p && !x.decay) s.voices with
  | some u => releaseVoice s u
  | none => s

/-- Releases voice slot `v` if a test admits it. -/
def releaseIf (p : Voice → Bool) (s : State) (v : Nat) : State :=
  match s.voices[v]? with
  | some x => if p x then releaseVoice s v else s
  | none => s

/-- Releases every voice slot that a test admits, in ascending order (R251, R252, R254). -/
def releaseWhere (s : State) (p : Voice → Bool) : State := (List.range s.voices.length).foldl (releaseIf p) s

/-! ## Note-on -/

/-- `resolve(p, k)`: the timbre and context of a note, or `none` for OFF (R242). On the rhythm part the key is 24 to 87,
which the command has checked. -/
def resolve (m : Memory) (p : Nat) (key : Byte) : Option (List Byte × PatchContext) :=
  if p < Config.rhythmPart then
    some (Memory.readBlock m (recordAddr .timbreTemp p) 246,
      melodicContext (Memory.readBlock m (recordAddr .patchTemp p) 16))
  else
    let rt := Memory.readBlock m (recordAddr .rhythmTemp (key.toNat - 24)) 4
    if byteAt rt 0 = 94#8 then none
    else some (Memory.readBlock m (recordAddr .timbres (128 + (byteAt rt 0).toNat)) 246, rhythmContext rt)

/-- The new voice of a note, its partials not yet filled in (R245). -/
def newVoice (m : Memory) (p : BitVec 4) (key vel : Byte) (timbre : List Byte) (ctx : PatchContext) : Voice where
  playing := true
  part := p.setWidth 8
  key := key
  freq := noteFreq key ctx
  velocity := vel
  reverb := ctx.reverb
  decay := false
  partials := Quad.const none
  pedalHeld := false
  sustain := noSustain timbre == 0#8
  age := 0
  level := ctx.level
  pan := ctx.pan
  masterVol := Memory.read m masterVolAddr

/-- Starts timbre partial `t` of a note in voice `v`, on the lowest free slot, where `t` is playable (R246). -/
def allocatePartial (F : OpenFns) (timbre : List Byte) (ctx : PatchContext) (key vel : Byte) (v : Nat) (s : State)
    (t : Fin 4) : State :=
  match buildCache F s.sr s.pcm (Memory.read s.mem masterTuneAddr) timbre t.val ctx key vel, lowestFreePartial s with
  | some c, some i =>
    (s.modPartial i fun _ => startedPartial v t c).modVoice v fun x => { x with partials := x.partials.set t (some i) }
  | _, _ => s

/-- Takes the lowest free voice for a note and starts the note's partials in ascending `t` (R245, R246). A free voice
always exists after stealing (R245, log 12). -/
def allocateNote (F : OpenFns) (p : BitVec 4) (key vel : Byte) (timbre : List Byte) (ctx : PatchContext)
    (s : State) : State :=
  match lowestFreeVoice s with
  | some v =>
    allT.foldl (allocatePartial F timbre ctx key vel v)
      (s.modVoice v fun _ => newVoice s.mem p key vel timbre ctx)
  | none => s

/-- What a NOTE_ON that passed its checks does (R250): resolve, count, release under MONO, steal, start. -/
def strike (F : OpenFns) (p : BitVec 4) (key vel : Byte) (s : State) : State :=
  match resolve s.mem p.toNat key with
  | none => s
  | some (timbre, ctx) =>
    let n := popcount4 (partialMask timbre)
    if n = 0 then s
    else
      let s1 := if assignPolicy ctx.assignMode = .mono then monoRelease s p.toNat else s
      allocateNote F p key vel timbre ctx (stealVoices n s1.partials.length s1)

end Sys2Proof.Machine
end

