-- ==== Sys2Proof/Machine/VoiceCommands.lean ====
section
/-! DEFINITION. The voice allocator commands: NOTE_ON, NOTE_OFF, SUSTAIN, PROGRAM_CHANGE, ALL_NOTES_OFF
(43_voice_allocator.md R250 to R254). -/

namespace Sys2Proof.Machine

/-- NOTE_ON over any collection of OPEN functions (R250). -/
def noteOnWith (F : OpenFns) (part : BitVec 4) (key vel : Byte) (rsv : BitVec 8) (s : State) :
    Host.Outcome State Fault Refusal :=
  command 1 (checkNoteOn part key vel rsv) (strike F part key vel) s

/-- NOTE_ON (R250). -/
def execNoteOn (part : BitVec 4) (key vel : Byte) (rsv : BitVec 8) (s : State) : Host.Outcome State Fault Refusal :=
  noteOnWith Config.openFns part key vel rsv s

/-- `part[p].pedal`. -/
def pedalOf (s : State) (p : Nat) : Bool :=
  match s.parts[p]? with
  | some r => r.pedal
  | none => false

/-- A voice a NOTE_OFF acts on: playing, of the part, struck with the key, not decaying, not pedal-held (R251). -/
def noteOffMatches (p : Nat) (key : Byte) (x : Voice) : Bool :=
  x.playing && x.part.toNat == p && x.key == key && !x.decay && !x.pedalHeld

/-- Marks every matching voice pedal-held (R251). -/
def holdWhere (s : State) (p : Voice → Bool) : State :=
  { s with voices := s.voices.map fun x => if p x then { x with pedalHeld := true } else x }

/-- What a NOTE_OFF that passed its checks does (R251). -/
def releaseKey (p : Nat) (key : Byte) (s : State) : State :=
  if pedalOf s p then holdWhere s (noteOffMatches p key) else releaseWhere s (noteOffMatches p key)

/-- NOTE_OFF (R251). -/
def execNoteOff (part : BitVec 4) (key : Byte) (rsv : BitVec 16) (s : State) : Host.Outcome State Fault Refusal :=
  command 1 (checkNoteOff part key rsv) (releaseKey part.toNat key) s

/-- A voice a pedal-up releases: playing, of the part, pedal-held (R252). -/
def pedalUpMatches (p : Nat) (x : Voice) : Bool := x.playing && x.part.toNat == p && x.pedalHeld

/-- What a SUSTAIN that passed its checks does (R252). -/
def setPedal (p : Nat) (on : Bool) (s : State) : State :=
  let s1 := s.modPart p fun r => { r with pedal := on }
  if on then s1 else releaseWhere s1 (pedalUpMatches p)

/-- SUSTAIN (R252). -/
def execSustain (part : BitVec 4) (rsv : BitVec 23) (on : BitVec 1) (s : State) : Host.Outcome State Fault Refusal :=
  command 1 (checkSustain part rsv) (setPedal part.toNat (on == 1#1)) s

/-- The timbre index a PatchParam selects, `64*timbreGroup + timbreNum` (20_memory.md R84). -/
def timbreIndex (patch : List Byte) : Nat := 64 * (byteAt patch 0).toNat + (byteAt patch 1).toNat

/-- The two copies of a PROGRAM_CHANGE: PATCHES[n] onto the part's PATCH_TEMP bytes 0..7, and the timbre it selects onto
the part's TIMBRE_TEMP (R253). -/
def loadPatch (m : Memory) (p n : Nat) : Memory :=
  let patch := Memory.readBlock m (recordAddr .patches n) 8
  let m1 := Memory.writeBlock m (recordAddr .patchTemp p) patch
  Memory.writeBlock m1 (recordAddr .timbreTemp p) (Memory.readBlock m1 (recordAddr .timbres (timbreIndex patch)) 246)

/-- PROGRAM_CHANGE (R253). -/
def execProgramChange (part : BitVec 4) (patch : Byte) (rsv : BitVec 16) (s : State) :
    Host.Outcome State Fault Refusal :=
  command 1 (checkProgramChange part patch rsv) (fun s => { s with mem := loadPatch s.mem part.toNat patch.toNat }) s

/-- A voice an ALL_NOTES_OFF releases: playing, of the part, not decaying (R254). -/
def allOffMatches (p : Nat) (x : Voice) : Bool := x.playing && x.part.toNat == p && !x.decay

/-- ALL_NOTES_OFF (R254). -/
def execAllNotesOff (part : BitVec 4) (rsv : BitVec 24) (s : State) : Host.Outcome State Fault Refusal :=
  command 1 (checkAllNotesOff part rsv) (fun s => releaseWhere s (allOffMatches part.toNat)) s

end Sys2Proof.Machine
end

