-- ==== Sys2Proof/Machine/Dispatch.lean ====
section
/-! DEFINITION. One arm per command: which meaning each instruction has. -/

namespace Sys2Proof.Machine

def exec (i : Instr) (s : State) : Host.Outcome State Fault Refusal :=
  match i with
  | .noteOn part key vel rsv => Sys2Proof.Machine.execNoteOn part key vel rsv s
  | .noteOff part key rsv => Sys2Proof.Machine.execNoteOff part key rsv s
  | .sustain part rsv on => Sys2Proof.Machine.execSustain part rsv on s
  | .programChange part patch rsv => Sys2Proof.Machine.execProgramChange part patch rsv s
  | .allNotesOff part rsv => Sys2Proof.Machine.execAllNotesOff part rsv s
  | .blockWrite rsv addr rsvLen n data => Sys2Proof.Machine.execBlockWrite rsv addr rsvLen n data s
  | .blockRead rsv addr rsvLen n => Sys2Proof.Machine.execBlockRead rsv addr rsvLen n s
  | .render rsv count => Sys2Proof.Machine.execRender rsv count s
  | .status rsv clear => Sys2Proof.Machine.execStatus rsv clear s
  | .reserved0 _ => Sys2Proof.Machine.execReserved0 s
  | .reservedAB _ => Sys2Proof.Machine.execReservedAB s
  | .reservedCF _ => Sys2Proof.Machine.execReservedCF s

end Sys2Proof.Machine
end

