-- ==== Sys2Proof/Machine/Step.lean ====
section
/-! DEFINITION. One step of the engine: take the next complete command of the stream and run it (10_state.md R21,
30_encoding.md R119). `cp` advances inside the command's meaning. -/

namespace Sys2Proof.Machine

/-- One step: the command at `cp` is run; where no complete command has arrived the engine is stuck (R119). -/
def step (s : State) : Host.Outcome State Fault Refusal :=
  match fetch s with
  | .ok i => exec i s
  | .error e => .fault (stopFault e)

/-- `s` with an instruction, given as one number, standing in the command stream at `cp`, so that the next step takes
exactly it. It stands for the host's appending of those words (70_reset_and_hazards.md R337, log 3). -/
def State.withFetchWord (s : State) (nbits w : Nat) : State := { s with stream := streamWith s (tableWords nbits w) }

end Sys2Proof.Machine
end

