-- ==== Sys2Proof/Machine/Assembler.lean ====
section
/-! DEFINITION. The assembler forms of the commands and the pseudo-commands (30_encoding.md R122, R123), as terms; no text is
read. -/

namespace Sys2Proof.Machine

/-- The assembler forms (R122). -/
inductive Asm where
  | noteOn (part key vel : Nat)
  | noteOff (part key : Nat)
  | sustain (part on : Nat)
  | prog (part patch : Nat)
  | allOff (part : Nat)
  | bwrite (addr : Nat) (bytes : List Byte)
  | bread (addr n : Nat)
  | render (frames : Nat)
  | status (clear : Nat)
  deriving DecidableEq, Repr

/-- The command an assembler form stands for, its reserved bits 0 (R122). DESIGN CHOICE (unsafe, log 15): a number too
wide for its field is taken modulo 2 to the power of the field's width, of which R122 says nothing; so a `BWRITE` of more
than 65535 bytes becomes a term that `Instr.wellFormed` refuses. -/
def assemble : Asm → Instr
  | .noteOn part key vel => .noteOn (BitVec.ofNat 4 part) (BitVec.ofNat 8 key) (BitVec.ofNat 8 vel) 0
  | .noteOff part key => .noteOff (BitVec.ofNat 4 part) (BitVec.ofNat 8 key) 0
  | .sustain part on => .sustain (BitVec.ofNat 4 part) 0 (BitVec.ofNat 1 on)
  | .prog part patch => .programChange (BitVec.ofNat 4 part) (BitVec.ofNat 8 patch) 0
  | .allOff part => .allNotesOff (BitVec.ofNat 4 part) 0
  | .bwrite addr bytes => .blockWrite 0 (BitVec.ofNat 24 addr) 0 (BitVec.ofNat 16 bytes.length) (packBytes bytes)
  | .bread addr n => .blockRead 0 (BitVec.ofNat 24 addr) 0 (BitVec.ofNat 16 n)
  | .render frames => .render 0 (BitVec.ofNat 24 frames)
  | .status clear => .status 0 (BitVec.ofNat 1 clear)

/-- The pseudo-commands (R123). -/
inductive Pseudo where
  | nop
  | pedalOn (part : Nat)
  | pedalOff (part : Nat)
  | writePatch (n : Nat) (bytes : List Byte)
  | writeTimbre (n : Nat) (bytes : List Byte)
  | writeTempPatch (part : Nat) (bytes : List Byte)
  | writeRhythm (key : Nat) (bytes : List Byte)
  | readStatus
  | clearStatus
  deriving DecidableEq, Repr

/-- What a pseudo-command expands to (R123). DESIGN CHOICE (unsafe, log 15): R123 gives the four WRITE forms 8, 246, 16
and 4 bytes and says nothing of a list of another length, which here becomes a `BWRITE` of as many bytes as it has.
The address is R123's formula for every operand, whether or not there is such a record (DEDUCED, safe, log 15); that of
`WRITE_RHYTHM k`, `0x80 + 4*(k-24)`, is written as `0x80 + 4*k - 96` so that it is exact below 24 too. -/
def expandPseudo : Pseudo → Asm
  | .nop => .render 0
  | .pedalOn part => .sustain part 1
  | .pedalOff part => .sustain part 0
  | .writePatch n bytes => .bwrite (recordAddr .patches n) bytes
  | .writeTimbre n bytes => .bwrite (recordAddr .timbres n) bytes
  | .writeTempPatch part bytes => .bwrite (recordAddr .patchTemp part) bytes
  | .writeRhythm key bytes => .bwrite (recordAddr .rhythmTemp key - 4 * 24) bytes
  | .readStatus => .status 0
  | .clearStatus => .status 1

end Sys2Proof.Machine
end

