-- ==== Sys2Proof/Machine/HostPort.lean ====
section
/-! DEFINITION. What the host may do to a running block, and nothing else (70_reset_and_hazards.md R337). The host acts
between commands, so these are functions beside `step` and no part of it (log 3). -/

namespace Sys2Proof.Machine

/-- The host appends command words to the stream (R337). -/
def hostAppend (s : State) (ws : List Word) : State := { s with stream := s.stream ++ ws }

/-- The host appends command words over a byte transport, least significant byte first; bytes that make no whole word
yet are left over (R337, 20_memory.md R86). -/
def hostAppendBytes (s : State) (bytes : List Byte) : State × List Byte :=
  (hostAppend s (wordsOfBytes bytes).1, (wordsOfBytes bytes).2)

/-- The host removes the oldest word of `readQ` (R337, 10_state.md R35). -/
def hostTakeRead (s : State) : Option (Word × State) :=
  match s.readQ with
  | [] => none
  | w :: rest => some (w, { s with readQ := rest })

/-- The host removes the oldest frame of `audioQ`, read as `L` then `R` (R337, 44_mixer_render.md R289). -/
def hostTakeFrame (s : State) : Option (Frame × State) :=
  match s.audioQ with
  | [] => none
  | fr :: rest => some (fr, { s with audioQ := rest })

end Sys2Proof.Machine
end

