-- ==== Sys2Proof/Machine/Construct.lean ====
section
/-! DEFINITION. Construction, the block's only initialisation: argument checks, fatal codes, the state it yields
(70_reset_and_hazards.md R330 to R333, 60_exceptions.md R306, R307). -/

namespace Sys2Proof.Machine

/-- The fatal codes of a construction (60_exceptions.md R306). -/
inductive Fatal where
  | badSampleRate
  | badPcmTable
  | badInitialMemory
  | badConfig
  deriving DecidableEq, Repr

/-- The value of a fatal code (R306). -/
def fatalValue : Fatal → Byte
  | .badSampleRate => 0x80
  | .badPcmTable => 0x81
  | .badInitialMemory => 0x82
  | .badConfig => 0x83

/-- The arguments of a construction beside the OPEN functions (R330). -/
structure ConstructArgs where
  maxPartials : Nat
  sr : Nat
  rom : List S16
  pcm : List PcmWave
  img : List Byte
  deriving DecidableEq, Repr

/-- A wave table entry that is not malformed: at least one sample, all of it in the ROM (R331). -/
def waveOk (romSize : Nat) (e : PcmWave) : Bool := decide (1 ≤ e.len) && decide (e.addr + e.len ≤ romSize)

/-- The clamp of a loop start at or past the wave's length (R331). -/
def clampLoop (e : PcmWave) : PcmWave := if e.len ≤ e.loopStart then { e with loopStart := e.len - 1 } else e

/-- `checkPcm(PCM0, S)`: the table with its loop starts clamped, or `none` for a malformed table (R331). -/
def checkPcm (pcm : List PcmWave) (romSize : Nat) : Option (List PcmWave) :=
  if pcm.length = Config.numPcmWaves ∧ pcm.all (waveOk romSize) then some (pcm.map clampLoop) else none

/-- `checkImage(IMG)`: the image has the memory's size and every byte of it is legal (R332). -/
def checkImage (img : List Byte) : Bool := decide (img.length = Config.memSize) && allLegal 0 img

/-- `construct`: the first failing check's fatal code and no state, or the state of 10_state.md R41 (R330, R307, R333). -/
def construct (F : OpenFns) (x : ConstructArgs) : Except Fatal State :=
  if x.maxPartials < Config.maxPartialsMin ∨ Config.maxPartialsMax < x.maxPartials then .error .badConfig
  else if x.sr < Config.srMin ∨ Config.srMax < x.sr then .error .badSampleRate
  else
    match checkPcm x.pcm x.rom.length with
    | none => .error .badPcmTable
    | some pcm =>
      if checkImage x.img then
        .ok (State.constructed (fRs0 F x.sr) x.maxPartials x.sr x.rom pcm (Memory.ofImage 0 x.img))
      else .error .badInitialMemory

end Sys2Proof.Machine
end

