-- ==== Sys2Proof/Safety.lean ====
section
/-! DEFINITION. What a good state of the engine is: the invariants the spec states of it between commands
(10_state.md R25, 20_memory.md R83, R98, 42_partial.md R197, R200), in the terms statements use. -/

namespace Sys2Proof.Machine

/-- The memory invariant: the memory has its canonical form, lists no address outside the memory, and every byte of it
is legal (20_memory.md R83). -/
structure MemInv (s : State) : Prop where
  canonical : Memory.wf s.mem = true
  inside : ∀ c ∈ s.mem, c.1 < Config.memSize
  legal : ∀ a, a < Config.memSize → legal a (Memory.read s.mem a) = true

/-- The voice invariants (10_state.md R25), with the arena's size (00_scope.md R6) and the fact that a live partial is
always named by the voice that owns it (42_partial.md R207). -/
structure VoiceInv (s : State) : Prop where
  atLeastFour : Config.maxPartialsMin ≤ s.partials.length
  atMost255 : s.partials.length ≤ Config.maxPartialsMax
  voicesMatch : s.voices.length = s.partials.length
  /-- Condition 1: a playing voice names at least one partial. -/
  namesSome : ∀ (v : Nat) (x : Voice), s.voices[v]? = some x → x.playing = true → ∃ (t : Fin 4) (i : Nat), x.partials.get t = some i
  /-- Conditions 1 and 2: every partial a playing voice names is live, owned by it and at its index. Condition 3, that
  no partial is named by two voices, follows. -/
  namesLive : ∀ (v : Nat) (x : Voice), s.voices[v]? = some x → x.playing = true → ∀ (t : Fin 4) (i : Nat), x.partials.get t = some i →
    ∃ p : Partial, s.partials[i]? = some p ∧ p.st ≠ .inactive ∧ p.owner = v ∧ p.tIdx = t
  /-- A free voice names no partial. -/
  freeNamesNone : ∀ (v : Nat) (x : Voice), s.voices[v]? = some x → x.playing = false → ∀ t : Fin 4, x.partials.get t = none
  /-- A live partial is named by the voice that owns it. -/
  liveNamed : ∀ (i : Nat) (p : Partial), s.partials[i]? = some p → p.st ≠ .inactive →
    ∃ x : Voice, s.voices[p.owner]? = some x ∧ x.playing = true ∧ x.partials.get p.tIdx = some i

/-- A wave table entry as construction leaves it (10_state.md R37, 70_reset_and_hazards.md R331). -/
structure WaveInv (romSize : Nat) (w : PcmWave) : Prop where
  nonEmpty : 1 ≤ w.len
  inRom : w.addr + w.len ≤ romSize
  loopInside : w.loopStart < w.len

/-- Every PCM read is in range: the table is as construction leaves it, and the position of a PCM partial that has not
ended lies inside its wave (20_memory.md R98, 42_partial.md R200). -/
structure PcmInv (s : State) : Prop where
  tableSize : s.pcm.length = Config.numPcmWaves
  waves : ∀ w ∈ s.pcm, WaveInv s.rom.length w
  position : ∀ (i : Nat) (p : Partial) (w : PcmWave), s.partials[i]? = some p → p.cache.pcm = true → s.pcm[p.cache.pcmWave.toNat]? = some w →
    p.pcmEnded = false → p.pcmPos < w.len

/-- An envelope unit in an attack phase is in one of its definition's segments (10_state.md R28). -/
def phaseInside (E : EnvUnit) (D : EnvDef) : Prop := ∀ j, E.phase = .atk j → j < D.atk.length

/-- The counters of one partial are in range: an LFO period of at least 1 with the counter below it, and envelope
phases inside their definitions (10_state.md R26, R28). -/
structure CounterInv (p : Partial) : Prop where
  periodPos : 1 ≤ p.cache.lfoPeriod
  lfoBelow : p.lfoCnt.toNat < p.cache.lfoPeriod
  pitchPhase : phaseInside p.penv p.cache.penvDef
  tvfPhase : phaseInside p.fenv p.cache.fenvDef
  tvaPhase : phaseInside p.aenv p.cache.aenvDef

/-- The register files and construction arguments are in range: nine parts with no bend, a legal sample rate, and a
command pointer inside the stream (00_scope.md R6, 10_state.md R21, R23). -/
structure FileInv (s : State) : Prop where
  nineParts : s.parts.length = Config.numParts
  noBend : ∀ r ∈ s.parts, r.bend = 0
  rateLow : Config.srMin ≤ s.sr
  rateHigh : s.sr ≤ Config.srMax
  cpInside : s.cp ≤ s.stream.length

/-- A voice's captured operands are in range (10_state.md R24). -/
structure VoiceRange (x : Voice) : Prop where
  part : x.part.toNat ≤ 8
  key : x.key.toNat ≤ 127
  velocity : x.velocity.toNat ≤ 127
  level : x.level.toNat ≤ 100
  pan : x.pan.toNat ≤ 14
  masterVol : x.masterVol.toNat ≤ 100
  freqLow : -24 ≤ x.freq.toInt
  freqHigh : x.freq.toInt ≤ 151

/-- Whether a slot is among those a voice names. -/
def namesSlot (q : Quad (Option Nat)) (j : Nat) : Bool := decide (some j ∈ q.toList)

/-- A voice after its release (43_voice_allocator.md R249). -/
def releasedVoice (x : Voice) : Voice := { x with decay := true, pedalHeld := false }

/-- The release of every voice that a test admits, all at once. -/
def releaseAll (s : State) (m : Voice → Bool) : State :=
  { s with
    voices := s.voices.map fun x => if m x then releasedVoice x else x
    partials := s.partials.mapIdx fun j p =>
      if s.voices.any fun x => m x && namesSlot x.partials j then releasePartial p else p }

/-- Whether a command has the cause the table of reject codes gives for a code (60_exceptions.md R301), each cause
read by itself and in no order. -/
def hasCause : Instr → RejectCode → Prop
  | .noteOn part key vel rsv, c =>
    (c = .reservedBits ∧ rsv ≠ 0) ∨ (c = .badPart ∧ 8 < part.toNat) ∨ (c = .badKey ∧ 127 < key.toNat) ∨
      (c = .badVelocity ∧ 127 < vel.toNat) ∨
      (c = .rhythmUnmapped ∧ part.toNat = 8 ∧ ¬(24 ≤ key.toNat ∧ key.toNat ≤ 87))
  | .noteOff part key rsv, c =>
    (c = .reservedBits ∧ rsv ≠ 0) ∨ (c = .badPart ∧ 8 < part.toNat) ∨ (c = .badKey ∧ 127 < key.toNat)
  | .sustain part rsv _, c => (c = .reservedBits ∧ rsv ≠ 0) ∨ (c = .badPart ∧ 8 < part.toNat)
  | .programChange part patch rsv, c =>
    (c = .reservedBits ∧ rsv ≠ 0) ∨ (c = .badPart ∧ 8 < part.toNat) ∨ (c = .noPatchOnRhythm ∧ part.toNat = 8) ∨
      (c = .badPatch ∧ 127 < patch.toNat)
  | .allNotesOff part rsv, c => (c = .reservedBits ∧ rsv ≠ 0) ∨ (c = .badPart ∧ 8 < part.toNat)
  | .blockWrite rsv addr rsvLen n data, c =>
    (c = .reservedBits ∧ (rsv ≠ 0 ∨ rsvLen ≠ 0 ∨
      (n.toNat % 4 ≠ 0 ∧ (data.getD ((n.toNat + 3) / 4 - 1) 0) >>> (8 * (n.toNat % 4)) ≠ 0))) ∨
    (c = .badAddress ∧ 0x10347 < addr.toNat + n.toNat) ∨
    (c = .illegalParam ∧ ∃ k, k < n.toNat ∧
      legal (addr.toNat + k) ((data.getD (k / 4) 0).extractLsb' (8 * (k % 4)) 8) = false)
  | .blockRead rsv addr rsvLen n, c =>
    (c = .reservedBits ∧ (rsv ≠ 0 ∨ rsvLen ≠ 0)) ∨ (c = .badAddress ∧ 0x10347 < addr.toNat + n.toNat)
  | .render rsv _, c => c = .reservedBits ∧ rsv ≠ 0
  | .status rsv _, c => c = .reservedBits ∧ rsv ≠ 0
  | .reserved0 _, c => c = .badOpcode
  | .reservedAB _, c => c = .badOpcode
  | .reservedCF _, c => c = .badOpcode

/-- The state of a command of `len` words rejected with a code: the status register and `cp` change, and nothing else
(00_scope.md R10, 60_exceptions.md R302). -/
def rejectedState (len : Nat) (c : RejectCode) (s : State) : State :=
  { s with
    status :=
      { lastReject := rejectValue c
        rejectCount := BitVec.ofNat 16 (min 65535 (s.status.rejectCount.toNat + 1)) }
    cp := s.cp + len }

/-- The opcodes of a command's header word (30_encoding.md R111). -/
def opcodesOf : Instr → List Nat
  | .reserved0 _ => [0x0]
  | .noteOn .. => [0x1]
  | .noteOff .. => [0x2]
  | .sustain .. => [0x3]
  | .programChange .. => [0x4]
  | .allNotesOff .. => [0x5]
  | .blockWrite .. => [0x6]
  | .blockRead .. => [0x7]
  | .render .. => [0x8]
  | .status .. => [0x9]
  | .reservedAB _ => [0xA, 0xB]
  | .reservedCF _ => [0xC, 0xD, 0xE, 0xF]

/-- The free partial slots in ascending order (43_voice_allocator.md R241). -/
def freeSlots (s : State) : List Nat :=
  (List.range s.partials.length).filter fun i => (s.partials[i]?).any fun p => decide (p.st = .inactive)

/-- How many playable timbre partials come before `t`: the set bits of byte 12 below bit `t` (41_patch_cache.md R161,
R246). -/
def rankOf (timbre : List Byte) (t : Fin 4) : Nat :=
  ([0, 1, 2, 3].filter fun k => (timbre.getD 12 0).getLsbD k && decide (k < t.val)).length

/-- A safe outcome: the engine goes on (60_exceptions.md R308). -/
def goesOn (o : Host.Outcome State Fault Refusal) : Prop := ∃ t, o = .next t

end Sys2Proof.Machine
end

