-- ==== Sys2Proof/Certificates/Slice0/Obligations.lean ====
section
/-! DEFINITION. The statements for the provers, by file of the spec. -/

open Sys2Proof Sys2Proof.Machine

/-! ## Encoding (30_encoding.md) -/

/-- Decoding the words of any well-formed command, whatever follows them, gives the command and what follows. -/
def Obligations.DecodeOfEncode : Prop :=
  ∀ (i : Instr) (rest : List Word), i.wellFormed = true → decode (encode i ++ rest) = .ok (i, rest)

/-- The words a command was decoded from are its encoding: no bit of a word is dropped. -/
def Obligations.EncodeOfDecode : Prop :=
  ∀ (ws : List Word) (i : Instr) (rest : List Word), decode ws = .ok (i, rest) →
    i.wellFormed = true ∧ encode i ++ rest = ws

/-- R111, R121: the opcode in bits 31:28 selects the command, and every header word decodes once the words of the
longest command have arrived. -/
def Obligations.OpcodeSelectsCommand : Prop :=
  (∀ (w : Word) (rest : List Word) (i : Instr) (rest' : List Word), decode (w :: rest) = .ok (i, rest') →
    w.toNat / 2 ^ 28 ∈ opcodesOf i) ∧
  ∀ (w : Word) (rest : List Word), 16385 ≤ rest.length → ∃ i rest', decode (w :: rest) = .ok (i, rest')

/-- R113: the number of words a decoded command occupied, by its opcode and the length word alone. -/
def Obligations.CommandLength : Prop :=
  ∀ (w : Word) (rest : List Word) (i : Instr) (rest' : List Word), decode (w :: rest) = .ok (i, rest') →
    (w :: rest).length = i.length + rest'.length ∧
    i.length =
      (if w.toNat / 2 ^ 28 = 6 then 2 + ((rest.getD 0 0).toNat % 2 ^ 16 + 3) / 4
       else if w.toNat / 2 ^ 28 = 7 then 2 else 1)

/-- R125: the worked encodings decode to the commands they stand for. -/
def Obligations.WorkedEncodingsDecode : Prop :=
  decode [0x103C6400] = .ok (assemble (.noteOn 0 60 100), []) ∧
  decode [0x203C0000] = .ok (assemble (.noteOff 0 60), []) ∧
  decode [0x30000001] = .ok (assemble (.sustain 0 1), []) ∧
  decode [0x43050000] = .ok (assemble (.prog 3 5), []) ∧
  decode [0x58000000] = .ok (assemble (.allOff 8), []) ∧
  decode [0x60010331, 0x00000003, 0x00070401] = .ok (assemble (.bwrite 0x10331 [1, 4, 7]), []) ∧
  decode [0x70000930, 0x00000008] = .ok (assemble (.bread 0x930 8), []) ∧
  decode [0x800003E8] = .ok (assemble (.render 1000), []) ∧
  decode [0x90000001] = .ok (assemble (.status 1), [])

/-! ## Sequencing (10_state.md R21, 30_encoding.md R119, 60_exceptions.md R308) -/

/-- A step runs the decoded command: where the words at `cp` decode to a command, step is exec of it. -/
def Obligations.StepRunsDecoded : Prop :=
  ∀ (s : State) (i : Instr) (rest : List Word), decode (s.stream.drop s.cp) = .ok (i, rest) → step s = exec i s

/-- R21: `cp` is 0 at reset; every command, applied or rejected, advances it by its length, and none moves it otherwise
or touches the stream. -/
def Obligations.CpAdvancesByLength : Prop :=
  State.reset.cp = 0 ∧
  ∀ (i : Instr) (s t : State), exec i s = .next t → t.cp = s.cp + i.length ∧ t.stream = s.stream

/-- The engine is stuck exactly while a command's words have not all arrived; the two faults are the model's form of
being stuck (log 4). -/
def Obligations.StuckOnlyWhileIncomplete : Prop :=
  ∀ s : State,
    (step s = .fault .noCommand ↔ s.stream.length ≤ s.cp) ∧
    (step s = .fault .incompleteCommand ↔
      ∃ w rest, s.stream.drop s.cp = w :: rest ∧
        ((w.toNat / 2 ^ 28 = 7 ∧ rest = []) ∨
         (w.toNat / 2 ^ 28 = 6 ∧
           (rest = [] ∨ ∃ w1 rest1, rest = w1 :: rest1 ∧ rest1.length < (w1.toNat % 2 ^ 16 + 3) / 4)))) ∧
    (goesOn (step s) ∨ step s = .fault .noCommand ∨ step s = .fault .incompleteCommand)

/-! ## Rejects (60_exceptions.md R300 to R305) -/

/-- R301, R302, R303: the ten reject codes; a command with a cause of rejection is rejected with the lowest-numbered code
whose cause it has, and a reject changes `status` and `cp` and nothing else. -/
def Obligations.LowestCodeRejects : Prop :=
  (rejectValue .badOpcode = 0x01 ∧ rejectValue .reservedBits = 0x02 ∧ rejectValue .badPart = 0x03 ∧
    rejectValue .noPatchOnRhythm = 0x04 ∧ rejectValue .badKey = 0x05 ∧ rejectValue .badVelocity = 0x06 ∧
    rejectValue .badPatch = 0x07 ∧ rejectValue .badAddress = 0x08 ∧ rejectValue .illegalParam = 0x09 ∧
    rejectValue .rhythmUnmapped = 0x0A) ∧
  ∀ (i : Instr) (s : State) (c : RejectCode), i.wellFormed = true → hasCause i c →
    (∀ c', hasCause i c' → (rejectValue c).toNat ≤ (rejectValue c').toNat) →
    exec i s = .next (rejectedState i.length c s)

/-- A command with no cause of rejection leaves the reject count and the last reject code as they were, unless it is the
STATUS that clears them. -/
def Obligations.AppliedCommandKeepsStatus : Prop :=
  ∀ (i : Instr) (s t : State), i.wellFormed = true → (∀ c, ¬hasCause i c) → (∀ rsv, i ≠ .status rsv 1) →
    exec i s = .next t → t.status = s.status

/-- R116: a reserved opcode is rejected BAD_OPCODE whatever its other bits, and consumes one word. -/
def Obligations.ReservedOpcodeRejected : Prop :=
  ∀ s : State,
    (∀ body, exec (.reserved0 body) s = .next (rejectedState 1 .badOpcode s)) ∧
    (∀ body, exec (.reservedAB body) s = .next (rejectedState 1 .badOpcode s)) ∧
    (∀ body, exec (.reservedCF body) s = .next (rejectedState 1 .badOpcode s))

/-- R317: the worked example of rejects and status, from the state after reset. -/
def Obligations.RejectExample : Prop :=
  ∃ t, Host.Core.run Sys2Proof.core 4 (hostAppend State.reset [0x00000000, 0x193C6400, 0x103C6401, 0x90000001]) =
      .next t ∧
    t.readQ = [0x02000003] ∧ t.status = ⟨0, 0⟩ ∧ t.cp = 4 ∧ t.voices = State.reset.voices ∧
    t.partials = State.reset.partials ∧ t.mem = State.reset.mem

/-! ## Parameter memory (20_memory.md, 40_memory_commands.md) -/

/-- R72, R73, R82: where every record lies, every address of the memory decodes to the one record byte it is and no
address beyond it decodes, and the legal range of every field is the one R74 to R80 give. -/
def Obligations.AddressDecode : Prop :=
  let patch : List Nat := [3, 63, 48, 100, 24, 3, 1, 255]
  let patchTemp : List Nat := patch ++ [100, 14, 255, 255, 255, 255, 255, 255]
  let rhythmTemp : List Nat := [94, 100, 14, 1]
  let common : List Nat := [255, 255, 255, 255, 255, 255, 255, 255, 255, 255, 12, 12, 15, 1]
  let block : List Nat :=
    [96, 100, 16, 1, 1, 127, 100, 14, 10, 100, 4, 100, 100, 100, 100, 100, 100, 100, 100, 100, 100, 100, 100, 100, 30,
      16, 127, 14, 100, 100, 4, 4, 100, 100, 100, 100, 100, 100, 100, 100, 100, 100, 100, 127, 12, 127, 12, 4, 4, 100,
      100, 100, 100, 100, 100, 100, 100, 100]
  let timbre : List Nat := common ++ block ++ block ++ block ++ block
  let system : List Nat :=
    [127, 3, 7, 7, 32, 32, 32, 32, 32, 32, 32, 32, 32, 16, 16, 16, 16, 16, 16, 16, 16, 16, 100]
  (∀ n off : Nat, ∀ b : Byte,
    (n < 8 → off < 16 → legal (16 * n + off) b = decide (b.toNat ≤ patchTemp.getD off 0)) ∧
    (n < 64 → off < 4 → legal (0x80 + 4 * n + off) b = decide (b.toNat ≤ rhythmTemp.getD off 0)) ∧
    (n < 8 → off < 246 → legal (0x180 + 246 * n + off) b = decide (b.toNat ≤ timbre.getD off 0)) ∧
    (n < 128 → off < 8 → legal (0x930 + 8 * n + off) b = decide (b.toNat ≤ patch.getD off 0)) ∧
    (n < 256 → off < 246 → legal (0xD30 + 246 * n + off) b = decide (b.toNat ≤ timbre.getD off 0)) ∧
    (off < 23 → legal (0x10330 + off) b = decide (b.toNat ≤ system.getD off 0))) ∧
  (∀ n : Nat,
    recordAddr .patchTemp n = 16 * n ∧ recordAddr .rhythmTemp n = 0x80 + 4 * n ∧
    recordAddr .timbreTemp n = 0x180 + 246 * n ∧ recordAddr .patches n = 0x930 + 8 * n ∧
    recordAddr .timbres n = 0xD30 + 246 * n ∧ recordAddr .system 0 = 0x10330) ∧
  ([Region.patchTemp, .rhythmTemp, .timbreTemp, .patches, .timbres, .system].map fun r => (recordCount r, recordSize r)) =
    [(8, 16), (64, 4), (8, 246), (128, 8), (256, 246), (1, 23)] ∧
  (∀ r n off, n < recordCount r → off < recordSize r → decodeAddr (recordAddr r n + off) = some (r, n, off)) ∧
  (∀ a r n off, decodeAddr a = some (r, n, off) →
    a < 0x10347 ∧ n < recordCount r ∧ off < recordSize r ∧ recordAddr r n + off = a) ∧
  (∀ a, decodeAddr a = none ↔ 0x10347 ≤ a)

/-- R142, R89: an applied BLOCK_WRITE stores its bytes and no other, sets `reverbDirty` where its range takes in a reverb
byte, and changes nothing else. -/
def Obligations.BlockWriteStores : Prop :=
  ∀ (s : State) (addr : BitVec 24) (n : BitVec 16) (data : List Word),
    Memory.wf s.mem = true → data.length = (n.toNat + 3) / 4 →
    (n.toNat % 4 ≠ 0 → (data.getD ((n.toNat + 3) / 4 - 1) 0) >>> (8 * (n.toNat % 4)) = 0) →
    addr.toNat + n.toNat ≤ 0x10347 →
    (∀ k, k < n.toNat → legal (addr.toNat + k) ((data.getD (k / 4) 0).extractLsb' (8 * (k % 4)) 8) = true) →
    ∃ m,
      exec (.blockWrite 0 addr 0 n data) s =
        .next { s with
          mem := m
          reverbDirty :=
            s.reverbDirty || decide (0 < n.toNat ∧ addr.toNat ≤ 0x10333 ∧ 0x10331 < addr.toNat + n.toNat)
          cp := s.cp + (2 + (n.toNat + 3) / 4) } ∧
      Memory.wf m = true ∧
      (∀ k, k < n.toNat → Memory.read m (addr.toNat + k) = (data.getD (k / 4) 0).extractLsb' (8 * (k % 4)) 8) ∧
      ∀ a, a < addr.toNat ∨ addr.toNat + n.toNat ≤ a → Memory.read m a = Memory.read s.mem a

/-- R143: an applied BLOCK_READ pushes `ceil(n/4)` words that hold the bytes of the range, least significant first, the
bytes past the last being 0, and changes nothing else. -/
def Obligations.BlockReadPushes : Prop :=
  ∀ (s : State) (addr : BitVec 24) (n : BitVec 16), addr.toNat + n.toNat ≤ 0x10347 →
    ∃ ws : List Word,
      exec (.blockRead 0 addr 0 n) s = .next { s with readQ := s.readQ ++ ws, cp := s.cp + 2 } ∧
      ws.length = (n.toNat + 3) / 4 ∧
      ∀ k, k < 4 * ws.length →
        (ws.getD (k / 4) 0).extractLsb' (8 * (k % 4)) 8 =
          if k < n.toNat then Memory.read s.mem (addr.toNat + k) else 0

/-- R99: an applied BLOCK_WRITE followed by a BLOCK_READ of the same range pushes exactly the data words written. -/
def Obligations.BlockRoundTrip : Prop :=
  ∀ (s t : State) (addr : BitVec 24) (n : BitVec 16) (data : List Word),
    Memory.wf s.mem = true → (Instr.blockWrite 0 addr 0 n data).wellFormed = true →
    (∀ c, ¬hasCause (.blockWrite 0 addr 0 n data) c) → exec (.blockWrite 0 addr 0 n data) s = .next t →
    ∃ u, exec (.blockRead 0 addr 0 n) t = .next u ∧ u.readQ = s.readQ ++ data

/-- R144, R145: STATUS pushes the status word with the live count of partials, clears the two stored fields where
`clear = 1`, and changes nothing else. -/
def Obligations.StatusPushes : Prop :=
  ∀ (s : State) (clear : BitVec 1),
    exec (.status 0 clear) s =
      .next { s with
        readQ := s.readQ ++ [s.status.lastReject ++
          BitVec.ofNat 8 (s.partials.filter fun p => decide (p.st ≠ .inactive)).length ++ s.status.rejectCount]
        status := if clear = 1 then ⟨0, 0⟩ else s.status
        cp := s.cp + 1 }

/-- R83: every step keeps the memory canonical and every byte of it legal. -/
def Obligations.MemoryStaysLegal : Prop :=
  ∀ s t : State, MemInv s → step s = .next t → MemInv t

/-! ## Patch cache (41_patch_cache.md) -/

/-- R161: `buildCache` gives a cache exactly for the playable partials. -/
def Obligations.CacheOnlyForPlayable : Prop :=
  ∀ (F : OpenFns) (sr : Nat) (pcm : List PcmWave) (masterTune : Byte) (timbre : List Byte) (t : Nat)
    (ctx : PatchContext) (key vel : Byte),
    (buildCache F sr pcm masterTune timbre t ctx key vel = none ↔
      ¬(t ≤ 3 ∧ (timbre.getD 12 0).getLsbD t = true))

/-- R164 to R172: every field of a cache (R162). -/
def Obligations.CacheFields : Prop :=
  ∀ (F : OpenFns) (sr : Nat) (pcm : List PcmWave) (masterTune : Byte) (timbre : List Byte) (t : Nat)
    (ctx : PatchContext) (key vel : Byte) (c : PatchCache),
    timbre.length = 246 → buildCache F sr pcm masterTune timbre t ctx key vel = some c →
    let s := (timbre.getD (if t < 2 then 10 else 11) 0).toNat
    let b (k : Nat) : Byte := c.src.getD k 0
    let pitchLevel (k : Nat) : S32 := fEnvLevel F sr ⟨.pitch, b k, b 8, b 9, 0, c.freq, vel⟩
    let pitchTime (k : Nat) : Nat := fEnvTime F ⟨.pitch, b k, b 10, 0, c.freq, vel, sr⟩
    let tvfLevel (k : Nat) : S32 := fEnvLevel F sr ⟨.tvf, b k, b 28, b 29, b 30, c.freq, vel⟩
    let tvfTime (k : Nat) : Nat := fEnvTime F ⟨.tvf, b k, b 31, 0, c.freq, vel, sr⟩
    let tvaLevel (k : Nat) : S32 := fEnvLevel F sr ⟨.tva, b k, b 41, b 42, 0, c.freq, vel⟩
    let tvaTime (k : Nat) : Nat := fEnvTime F ⟨.tva, b k, b 47, b 48, c.freq, vel, sr⟩
    c.t.val = t ∧ c.structPos.val = t % 2 ∧
    c.mix.val = [0, 1, 0, 1, 1, 0, 1, 3, 3, 2, 2, 2, 2].getD s 0 ∧
    c.pcm = ([0, 0, 2, 2, 1, 3, 3, 0, 3, 0, 2, 1, 3].getD s 0).testBit (1 - t % 2) ∧
    (∀ q : Fin 4, c.partner = some q ↔ q.val = t ^^^ 1 ∧ (timbre.getD 12 0).getLsbD q.val = true) ∧
    c.src.length = 58 ∧ (∀ k, k < 58 → b k = timbre.getD (14 + 58 * t + k) 0) ∧
    c.key = key ∧ c.vel = vel ∧ c.freq.toInt = key.toNat + ctx.keyShift.toNat - 24 ∧
    c.waveform = b 4 ∧ c.pcmWave = b 5 ∧
    c.sustainP = decide (timbre.getD 13 0 = 0) ∧ c.sustainF = c.sustainP ∧ c.sustainA = c.sustainP ∧
    c.pitchKF = F.keyfollowPitch (commonTables F sr) (b 2) ∧
    (c.pcm = false → c.basePitch =
      F.basePitch (commonTables F sr) ⟨b 0, b 1, c.pitchKF, c.freq, ctx.fineTune, masterTune, false, 0⟩) ∧
    (c.pcm = true → ∀ w : PcmWave, pcm[c.pcmWave.toNat]? = some w → c.basePitch =
      F.basePitch (commonTables F sr) ⟨b 0, b 1, c.pitchKF, c.freq, ctx.fineTune, masterTune, true, w.tuning⟩) ∧
    c.benderOn = decide (b 3 = 1) ∧ c.benderRange = ctx.benderRange ∧
    c.pwEff = F.pw (commonTables F sr) (b 6) (b 7) vel ∧
    c.lfoPeriod = fLfoPeriod F (b 20) sr ∧ 1 ≤ c.lfoPeriod ∧
    c.lfoDepth = F.lfoDepth (commonTables F sr) (lfoTables F sr) (b 21) (b 22) ∧ c.lfoOn = decide (b 21 ≠ 0) ∧
    c.penvDef = ⟨pitchLevel 15,
      [⟨pitchLevel 16, pitchTime 11⟩, ⟨pitchLevel 17, pitchTime 12⟩, ⟨pitchLevel 18, pitchTime 13⟩],
      ⟨pitchLevel 19, pitchTime 14⟩, c.sustainP⟩ ∧
    c.fenvDef = ⟨0,
      [⟨tvfLevel 37, tvfTime 32⟩, ⟨tvfLevel 38, tvfTime 33⟩, ⟨tvfLevel 39, tvfTime 34⟩, ⟨tvfLevel 40, tvfTime 35⟩],
      ⟨0, tvfTime 36⟩, c.sustainF⟩ ∧
    c.aenvDef = ⟨0,
      [⟨tvaLevel 54, tvaTime 49⟩, ⟨tvaLevel 55, tvaTime 50⟩, ⟨tvaLevel 56, tvaTime 51⟩, ⟨tvaLevel 57, tvaTime 52⟩],
      ⟨0, tvaTime 53⟩, c.sustainA⟩ ∧
    c.tvfBias.dir = (b 26).getLsbD 6 ∧ c.tvfBias.pointKey.toNat = 33 + (b 26).toNat % 64 ∧
    c.tvfBias.level.toInt = (b 27).toNat - 7 ∧
    c.ampBias0.dir = (b 43).getLsbD 6 ∧ c.ampBias0.pointKey.toNat = 33 + (b 43).toNat % 64 ∧
    c.ampBias0.level.toInt = (b 44).toNat - 12 ∧
    c.ampBias1.dir = (b 45).getLsbD 6 ∧ c.ampBias1.pointKey.toNat = 33 + (b 45).toNat % 64 ∧
    c.ampBias1.level.toInt = (b 46).toNat - 12

/-- R60: the four laws of the OPEN functions, as the rules apply them; a function that has its law is applied as it is,
and every function with the tables of the sample rate that the rules let it read. -/
def Obligations.OpenFunctionLaws : Prop :=
  ∀ F : OpenFns,
    (∀ sr,
      commonTables F sr =
        ⟨F.sine, F.noteFreq sr, F.veloAmp sr, F.veloCutoff sr, F.resInvGain sr⟩ ∧
      pitchTables F sr = ⟨F.pitchPeriod sr⟩ ∧ envTables F sr = ⟨F.envTimeTable sr, F.envLevelTable sr⟩ ∧
      lfoTables F sr = ⟨F.lfoRateTable sr, F.lfoDepthTable sr⟩ ∧
      filterTables F sr = ⟨F.filterCoeff sr, F.filterGranularity⟩ ∧
      tables F sr = ⟨commonTables F sr, pitchTables F sr, envTables F sr, lfoTables F sr, filterTables F sr⟩) ∧
    (∀ x, fEnvTime F x = F.envTime (commonTables F x.sr) (envTables F x.sr) x) ∧
    (∀ rate sr, 1 ≤ F.lfoPeriod (commonTables F sr) (lfoTables F sr) rate sr →
      fLfoPeriod F rate sr = F.lfoPeriod (commonTables F sr) (lfoTables F sr) rate sr) ∧
    (∀ sr x, (x.kind = .tva → 0 ≤ (F.envLevel (commonTables F sr) (envTables F sr) x).toInt) →
      fEnvLevel F sr x = F.envLevel (commonTables F sr) (envTables F sr) x) ∧
    (∀ sr c l y, 0 < l.toInt → fTva F sr c l y = F.tva (commonTables F sr) c l y) ∧
    (∀ sr v l m, v ≠ 0 → fGain F sr v l m = F.gain (commonTables F sr) v l m) ∧
    (∀ rate sr, 1 ≤ fLfoPeriod F rate sr) ∧
    (∀ sr x, x.kind = .tva → 0 ≤ (fEnvLevel F sr x).toInt) ∧
    (∀ sr c l y, l.toInt ≤ 0 → fTva F sr c l y = 0) ∧
    (∀ sr l m, fGain F sr 0 l m = 0)

/-! ## The partial (42_partial.md) -/

/-- R192: a segment of duration `d >= 1` moves linearly from its start, truncated toward it, and reaches its target after
exactly `d` steps; one of duration 0 after one step; and what phase follows each. (A duration above 2^32 does not fit
the counter: log 9.) -/
def Obligations.EnvelopeSegmentShape : Prop :=
  (∀ (D : EnvDef) (j : Nat),
    (j + 1 < D.atk.length → envNext (.atk j) D = .atk (j + 1)) ∧
    (j + 1 = D.atk.length → D.sustain = true → envNext (.atk j) D = .hold) ∧
    (j + 1 = D.atk.length → D.sustain = false → envNext (.atk j) D = .rel) ∧ envNext .rel D = .done) ∧
  ∀ (F : OpenFns) (E : EnvUnit) (D : EnvDef) (seg : EnvSeg), envSegment E D = some seg → E.cnt = 0 →
    (seg.dur = 0 → envStep F E D = ⟨envNext E.phase D, 0, seg.target, seg.target⟩) ∧
    (1 ≤ seg.dur → seg.dur ≤ 2 ^ 32 →
      (∀ k, 1 ≤ k → k < seg.dur →
        (fun E => envStep F E D)^[k] E =
          { E with
            cnt := BitVec.ofNat 32 k
            level := BitVec.ofInt 32
              (E.start.toInt + Int.tdiv ((seg.target.toInt - E.start.toInt) * k) seg.dur) }) ∧
      (fun E => envStep F E D)^[seg.dur] E = ⟨envNext E.phase D, 0, seg.target, seg.target⟩)

/-- R192: the level of an envelope unit stays between its segment's start and target, and does not change in HOLD and
DONE. -/
def Obligations.EnvelopeLevelBetween : Prop :=
  ∀ (F : OpenFns) (E : EnvUnit) (D : EnvDef),
    (E.phase = .hold ∨ E.phase = .done → envStep F E D = E) ∧
    ∀ seg, envSegment E D = some seg →
      min E.start.toInt seg.target.toInt ≤ (envStep F E D).level.toInt ∧
      (envStep F E D).level.toInt ≤ max E.start.toInt seg.target.toInt

/-- R194, R195: where one step takes a partial's state, by its TVA unit after the step. -/
def Obligations.StepStateTransitions : Prop :=
  ∀ (F : OpenFns) (s : State) (p : Partial),
    let a := envStep F p.aenv p.cache.aenvDef
    let ended := a.phase = .done ∨ a.level.toInt ≤ 0
    (p.st = .attack →
      ((∃ j, a.phase = .atk j) → (steppedPartial F s p).st = .attack) ∧
      (a.phase = .hold → (steppedPartial F s p).st = .sustainHold) ∧
      (a.phase = .rel ∨ a.phase = .done → ended → (steppedPartial F s p).st = .inactive) ∧
      (a.phase = .rel → ¬ended → (steppedPartial F s p).st = .release)) ∧
    (p.st = .sustainHold → (steppedPartial F s p).st = .sustainHold) ∧
    (p.st = .release → ended → (steppedPartial F s p).st = .inactive) ∧
    (p.st = .release → ¬ended → (steppedPartial F s p).st = .release)

/-- R190: only NOTE_ON starts a partial: a slot that is INACTIVE before any other command is unchanged after it. -/
def Obligations.OnlyNoteOnStartsPartials : Prop :=
  ∀ (i : Instr) (s t : State) (j : Nat) (p : Partial), (∀ part key vel rsv, i ≠ .noteOn part key vel rsv) →
    exec i s = .next t → s.partials[j]? = some p → p.st = .inactive → t.partials[j]? = some p

/-- R193: what a release request does to a partial and to its envelope units. -/
def Obligations.ReleaseRequest : Prop :=
  ∀ p : Partial,
    (p.st = .attack ∨ p.st = .sustainHold →
      releasePartial p =
        { p with st := .release, penv := envRelease p.penv, fenv := envRelease p.fenv, aenv := envRelease p.aenv }) ∧
    (p.st = .release ∨ p.st = .inactive → releasePartial p = p) ∧
    ∀ E : EnvUnit,
      ((∃ j, E.phase = .atk j) ∨ E.phase = .hold → envRelease E = ⟨.rel, 0, E.level, E.level⟩) ∧
      (E.phase = .rel ∨ E.phase = .done → envRelease E = E)

/-- R197: the LFO counter stays below its period, counts modulo it, and its sine index is below 65536. -/
def Obligations.LfoCounterInRange : Prop :=
  ∀ (F : OpenFns) (cnt : U32) (period : Nat), cnt.toNat < period →
    (lfoNext F cnt period).toNat < period ∧
    (lfoNext F cnt period).toNat * 65536 / period < 65536 ∧
    (period ≤ 2 ^ 32 → (lfoNext F cnt period).toNat = (cnt.toNat + 1) % period)

/-- R200, R98: a PCM fetch reads a sample of the ROM, and leaves the position inside the wave or the wave ended; once the
wave has ended it gives 0 and advances nothing. -/
def Obligations.PcmFetchInRange : Prop :=
  ∀ (rom : List S16) (w : PcmWave) (p : Partial) (inc : U32),
    let r := pcmStep rom w p inc
    let total := p.pcmPos * 65536 + p.pcmFrac.toNat + inc.toNat
    let pos := total / 65536
    (p.pcmEnded = true → r = ⟨0, p.phase, p.pcmPos, p.pcmFrac, true⟩) ∧
    (WaveInv rom.length w → p.pcmEnded = false → p.pcmPos < w.len →
      rom[w.addr + p.pcmPos]? = some r.sample ∧
      r.phase = p.phase ∧ r.pcmFrac.toNat = total % 65536 ∧
      (pos < w.len → r.pcmPos = pos ∧ r.pcmEnded = false) ∧
      (w.len ≤ pos → w.loop = true →
        r.pcmPos = w.loopStart + (pos - w.loopStart) % (w.len - w.loopStart) ∧ r.pcmEnded = false) ∧
      (w.len ≤ pos → w.loop = false → r.pcmEnded = true) ∧
      (r.pcmEnded = false → r.pcmPos < w.len))

/-- R200: the position of every PCM partial stays inside its wave: every step keeps it so. -/
def Obligations.PcmPositionsStayInside : Prop :=
  ∀ s t : State, PcmInv s → step s = .next t → PcmInv t

/-- R202: the ring product is the exact floor product, and saturates only for the two most negative samples. -/
def Obligations.RingProduct : Prop :=
  ring (-32768) (-32768) = 32767 ∧
  ∀ a b : S16, ¬(a = -32768 ∧ b = -32768) → (ring a b).toInt = Int.fdiv (a.toInt * b.toInt) (2 ^ 15)

/-- R197 to R206: one whole step of a partial but for its state: envelopes, LFO and pitch, the raw sample, the pair's
combination, filter and amplifier. Its partner changes this and nothing else: a slave of mix 1 or 2 is ring-modulated by
it, a master of mix 2 is muted by it. -/
def Obligations.PairRules : Prop :=
  ∀ (F : OpenFns) (s : State) (p : Partial),
    let c := p.cache
    let T := commonTables F s.sr
    let r := steppedPartial F s p
    let lfoVal : S32 := if c.lfoOn then (F.sine (BitVec.ofNat 16 (r.lfoCnt.toNat * 65536 / c.lfoPeriod))).signExtend 32 else 0
    let inc := F.pitch T (pitchTables F s.sr) c r.penv.level lfoVal (bendOf s p)
    r = { p with
      st := r.st, penv := envStep F p.penv c.penvDef, fenv := envStep F p.fenv c.fenvDef
      aenv := envStep F p.aenv c.aenvDef, lfoCnt := lfoNext F p.lfoCnt c.lfoPeriod, phase := r.phase
      pcmPos := r.pcmPos, pcmFrac := r.pcmFrac, pcmEnded := r.pcmEnded, fstate := r.fstate, raw := r.raw, out := r.out } ∧
    (c.benderOn = false → bendOf s p = 0) ∧
    (c.benderOn = true → ∀ (x : Voice) (g : PartRegs), s.voices[p.owner]? = some x → s.parts[x.part.toNat]? = some g →
      bendOf s p = g.bend) ∧
    (c.pcm = false →
      r.raw = F.synth T c.waveform c.pwEff p.phase ∧ r.phase.toNat = (p.phase.toNat + inc.toNat) % 2 ^ 32 ∧
      r.pcmPos = p.pcmPos ∧ r.pcmFrac = p.pcmFrac ∧ r.pcmEnded = p.pcmEnded) ∧
    (c.pcm = true → ∀ w : PcmWave, s.pcm[c.pcmWave.toNat]? = some w →
      (⟨r.raw, r.phase, r.pcmPos, r.pcmFrac, r.pcmEnded⟩ : OscStep) = pcmStep s.rom w p inc) ∧
    (∀ x : S16,
      (∀ pj, partnerSlot s p = some pj → (c.mix = 1 ∨ c.mix = 2) → c.structPos = 1 → x = ring pj.raw r.raw) →
      ((c.structPos = 0 ∨ c.mix = 0 ∨ c.mix = 3 ∨ partnerSlot s p = none) → x = r.raw) →
      let (y, fs) := F.tvf T (filterTables F s.sr) c r.fenv.level p.fstate x
      r.fstate = fs ∧
      (∀ pj, partnerSlot s p = some pj → c.mix = 2 → c.structPos = 0 → r.out = 0) ∧
      ((c.structPos = 1 ∨ c.mix ≠ 2 ∨ partnerSlot s p = none) → r.out = fTva F s.sr c r.aenv.level y)) ∧
    ∀ (x y : S16) (l : S32),
      (∀ pj, partnerSlot s p = some pj →
        (c.mix = 1 ∨ c.mix = 2 → c.structPos = 1 → combine s p x = ring pj.raw x) ∧
        (c.mix = 2 → c.structPos = 0 → ampOut F s p l y = 0)) ∧
      (c.structPos = 0 ∨ c.mix = 0 ∨ c.mix = 3 ∨ partnerSlot s p = none → combine s p x = x) ∧
      (c.structPos = 1 ∨ c.mix ≠ 2 ∨ partnerSlot s p = none → ampOut F s p l y = fTva F s.sr c l y)

/-- R29: a partial has a partner exactly where its voice names a live slot at the partner index of its cache, and that
slot is the partner; so a partner is live, belongs to the same voice and plays the partner index of the cache. -/
def Obligations.PartnerOfSameVoice : Prop :=
  (∀ (s : State) (p : Partial),
    (∀ (q : Fin 4) (x : Voice) (j : Nat) (pj : Partial), p.cache.partner = some q → s.voices[p.owner]? = some x →
      x.partials.get q = some j → s.partials[j]? = some pj → pj.st ≠ .inactive → partnerSlot s p = some pj) ∧
    (p.cache.partner = none → partnerSlot s p = none) ∧
    (∀ (q : Fin 4) (x : Voice), p.cache.partner = some q → s.voices[p.owner]? = some x →
      (∀ (j : Nat) (pj : Partial), x.partials.get q = some j → s.partials[j]? = some pj → pj.st = .inactive) →
      partnerSlot s p = none)) ∧
  ∀ (s : State) (i : Nat) (p pj : Partial), VoiceInv s → s.partials[i]? = some p → p.st ≠ .inactive →
    partnerSlot s p = some pj →
    pj.st ≠ .inactive ∧ pj.owner = p.owner ∧ p.cache.partner = some pj.tIdx

/-- R207, R345: a frame steps the live partials of the playing voices, voices ascending and `t` ascending within a voice,
each once (the voice invariants rule out a slot named twice) and each in the state that those before it leave, and no
other slot; so in each pair, 0 and 1 or 2 and 3, the master steps before its slave: it sees the slave as the last frame
left it, and the slave sees the master stepped. -/
def Obligations.MasterStepsFirst : Prop :=
  ∀ (F : OpenFns) (s : State),
    let order : List Nat := ((s.voices.filter (·.playing)).flatMap fun x => x.partials.toList.filterMap id).filter
      fun i => (s.partials[i]?).any fun p => decide (p.st ≠ .inactive)
    let t := stepPartials F s
    (VoiceInv s → order.Nodup) ∧
    (order.Nodup →
      t = order.foldl (stepPartial F) s ∧ t = { s with partials := t.partials } ∧
      (∀ (k i : Nat) (p : Partial), order[k]? = some i → s.partials[i]? = some p →
        t.partials[i]? = some (steppedPartial F ((order.take k).foldl (stepPartial F) s) p)) ∧
      (∀ j, j ∉ order → t.partials[j]? = s.partials[j]?) ∧
      ∀ (m n : Fin 4) (v i j : Nat) (x : Voice) (pi pj : Partial), (m = 0 ∧ n = 1) ∨ (m = 2 ∧ n = 3) →
        s.voices[v]? = some x → x.playing = true → x.partials.get m = some i → x.partials.get n = some j →
        s.partials[i]? = some pi → pi.st ≠ .inactive → s.partials[j]? = some pj → pj.st ≠ .inactive →
        ∃ a b : State,
          t.partials[i]? = some (steppedPartial F a pi) ∧ a.partials[j]? = some pj ∧ a.voices = s.voices ∧
          t.partials[j]? = some (steppedPartial F b pj) ∧ b.partials[i]? = t.partials[i]? ∧ b.voices = s.voices)

/-- Counters of partials stay in range: every step keeps every LFO counter below its period and every envelope phase
inside its definition. -/
def Obligations.CountersStayInRange : Prop :=
  ∀ s t : State, (∀ p ∈ s.partials, CounterInv p) → step s = .next t → ∀ p ∈ t.partials, CounterInv p

/-! ## The voice allocator (43_voice_allocator.md) -/

/-- R242: the records a note reads. -/
def Obligations.ResolveReads : Prop :=
  ∀ (m : Memory) (p : Nat) (key : Byte),
    (p ≤ 7 → ∃ timbre ctx, resolve m p key = some (timbre, ctx) ∧ timbre.length = 246 ∧
      (∀ k, k < 246 → timbre.getD k 0 = Memory.read m (0x0180 + 246 * p + k)) ∧
      ctx = ⟨Memory.read m (16 * p + 2), Memory.read m (16 * p + 3), Memory.read m (16 * p + 4),
        Memory.read m (16 * p + 5), decide (Memory.read m (16 * p + 6) = 1), Memory.read m (16 * p + 8),
        Memory.read m (16 * p + 9)⟩) ∧
    (p = 8 → 24 ≤ key.toNat → key.toNat ≤ 87 →
      let r := 0x0080 + 4 * (key.toNat - 24)
      (Memory.read m r = 94 → resolve m p key = none) ∧
      (Memory.read m r ≠ 94 → ∃ timbre ctx, resolve m p key = some (timbre, ctx) ∧ timbre.length = 246 ∧
        (∀ k, k < 246 → timbre.getD k 0 = Memory.read m (0x0D30 + 246 * (128 + (Memory.read m r).toNat) + k)) ∧
        ctx = ⟨24, 50, 0, 2, decide (Memory.read m (r + 3) = 1), Memory.read m (r + 1), Memory.read m (r + 2)⟩))

/-- R245 to R248, R250, R255: a NOTE_ON with operands in range and a timbre with playable partials always starts. Under
MONO the part's oldest voice is released, then voices are stolen while slots are short; then the lowest free voice is
the new note's, every field as R245 gives it, and each playable timbre partial is started on the lowest free slot in
turn. Every other voice and slot is as the release and the stealing leave it, and every other register unchanged. -/
def Obligations.NoteOnAlwaysStarts : Prop :=
  ∀ (s : State) (part : BitVec 4) (key vel : Byte) (timbre : List Byte) (ctx : PatchContext),
    VoiceInv s → part.toNat ≤ 8 → key.toNat ≤ 127 → vel.toNat ≤ 127 →
    (part.toNat = 8 → 24 ≤ key.toNat ∧ key.toNat ≤ 87) →
    resolve s.mem part.toNat key = some (timbre, ctx) → (∃ q : Fin 4, (timbre.getD 12 0).getLsbD q.val = true) →
    let n := ([0, 1, 2, 3].filter (timbre.getD 12 0).getLsbD).length
    let released := if ctx.assignMode.toNat < 2 then monoRelease s part.toNat else s
    let freed := stealVoices n released.partials.length released
    ∃ (t : State) (v : Nat) (x : Voice),
      exec (.noteOn part key vel 0) s = .next t ∧
      t = { s with voices := t.voices, partials := t.partials, cp := s.cp + 1 } ∧
      (∀ u y, u < v → freed.voices[u]? = some y → y.playing = true) ∧
      (∃ y, freed.voices[v]? = some y ∧ y.playing = false) ∧
      (∀ u, u ≠ v → t.voices[u]? = freed.voices[u]?) ∧
      n ≤ (freeSlots freed).length ∧
      (∀ j, j ∉ (freeSlots freed).take n → t.partials[j]? = freed.partials[j]?) ∧
      (∀ q : Fin 4, (timbre.getD 12 0).getLsbD q.val = true →
        x.partials.get q = (freeSlots freed)[rankOf timbre q]?) ∧
      t.voices[v]? = some x ∧
      x.playing = true ∧ x.part.toNat = part.toNat ∧ x.key = key ∧
      x.freq.toInt = key.toNat + ctx.keyShift.toNat - 24 ∧ x.velocity = vel ∧ x.reverb = ctx.reverb ∧
      x.decay = false ∧ x.pedalHeld = false ∧ x.sustain = decide (timbre.getD 13 0 = 0) ∧ x.age = 0 ∧
      x.level = ctx.level ∧ x.pan = ctx.pan ∧ x.masterVol = Memory.read s.mem 0x10346 ∧
      ∀ q : Fin 4,
        if (timbre.getD 12 0).getLsbD q.val = true then
          ∃ i c, x.partials.get q = some i ∧
            buildCache Config.openFns s.sr s.pcm (Memory.read s.mem 0x10330) timbre q.val ctx key vel = some c ∧
            t.partials[i]? = some {
              st := .attack, owner := v, tIdx := q, cache := c
              penv := ⟨.atk 0, 0, c.penvDef.init, c.penvDef.init⟩, fenv := ⟨.atk 0, 0, c.fenvDef.init, c.fenvDef.init⟩
              aenv := ⟨.atk 0, 0, c.aenvDef.init, c.aenvDef.init⟩, lfoCnt := 0, phase := 0, pcmPos := 0, pcmFrac := 0
              pcmEnded := false, fstate := ⟨0, 0, 0, 0⟩, raw := 0, out := 0 }
        else x.partials.get q = none

/-- R241, R246, R248, R250: a POLY NOTE_ON that finds enough free slots takes the lowest free voice, and its partials in
ascending order take the lowest free slots in ascending order; every other voice, slot and register is unchanged. -/
def Obligations.NoteOnTakesLowestSlots : Prop :=
  ∀ (s : State) (part : BitVec 4) (key vel : Byte) (timbre : List Byte) (ctx : PatchContext),
    let n := ([0, 1, 2, 3].filter (timbre.getD 12 0).getLsbD).length
    VoiceInv s → part.toNat ≤ 8 → key.toNat ≤ 127 → vel.toNat ≤ 127 →
    (part.toNat = 8 → 24 ≤ key.toNat ∧ key.toNat ≤ 87) →
    resolve s.mem part.toNat key = some (timbre, ctx) → (∃ q : Fin 4, (timbre.getD 12 0).getLsbD q.val = true) →
    n ≤ (freeSlots s).length → 2 ≤ ctx.assignMode.toNat →
    ∃ (t : State) (v : Nat) (x : Voice),
      exec (.noteOn part key vel 0) s = .next t ∧
      t = { s with voices := t.voices, partials := t.partials, cp := s.cp + 1 } ∧
      t.voices.length = s.voices.length ∧ t.partials.length = s.partials.length ∧
      (∀ u y, u < v → s.voices[u]? = some y → y.playing = true) ∧
      (∃ y, s.voices[v]? = some y ∧ y.playing = false) ∧
      t.voices[v]? = some x ∧ x.playing = true ∧ x.key = key ∧
      (∀ q : Fin 4, (timbre.getD 12 0).getLsbD q.val = true →
        x.partials.get q = (freeSlots s)[rankOf timbre q]?) ∧
      (∀ u, u ≠ v → t.voices[u]? = s.voices[u]?) ∧
      ∀ j, j ∉ (freeSlots s).take n → t.partials[j]? = s.partials[j]?

/-- R243: a note whose rhythm entry is OFF or whose timbre has no playable partial is applied with no effect but the
advance of `cp`. -/
def Obligations.NoteOnWithoutPartials : Prop :=
  ∀ (s : State) (part : BitVec 4) (key vel : Byte), part.toNat ≤ 8 → key.toNat ≤ 127 → vel.toNat ≤ 127 →
    (part.toNat = 8 → 24 ≤ key.toNat ∧ key.toNat ≤ 87) →
    (∀ timbre ctx, resolve s.mem part.toNat key = some (timbre, ctx) →
      ¬∃ q : Fin 4, (timbre.getD 12 0).getLsbD q.val = true) →
    exec (.noteOn part key vel 0) s = .next { s with cp := s.cp + 1 }

/-- The frame of NOTE_ON: voices and partials apart, and the status register of a reject, every register, the memory and
the queues are unchanged. -/
def Obligations.NoteOnFrame : Prop :=
  ∀ (s t : State) (part : BitVec 4) (key vel : Byte) (rsv : BitVec 8), exec (.noteOn part key vel rsv) s = .next t →
    t = { s with voices := t.voices, partials := t.partials, status := t.status, cp := s.cp + 1 } ∧
    t.voices.length = s.voices.length ∧ t.partials.length = s.partials.length

/-- R247: stealing frees the slots a note needs, takes whole voices oldest first (the lowest slot among equal ages), takes
none where enough are free, and stops at once: without the last voice taken fewer slots would be free than the note
needs. -/
def Obligations.StealingOldestFirst : Prop :=
  ∀ (s : State) (n : Nat), VoiceInv s → n ≤ 4 →
    let t := stealVoices n s.partials.length s
    VoiceInv t ∧ n ≤ (freeSlots t).length ∧ (n ≤ (freeSlots s).length → t = s) ∧
    (∀ v : Nat, t.voices[v]? = s.voices[v]? ∨ (t.voices[v]? = some Voice.reset ∧ v < s.voices.length)) ∧
    (∀ (u w : Nat) (x y : Voice), s.voices[u]? = some x → x.playing = true → t.voices[u]? = some Voice.reset →
      t.voices[w]? = some y → y.playing = true →
      y.age.toNat ≤ x.age.toNat ∧ (y.age.toNat = x.age.toNat → u < w)) ∧
    (∀ (u : Nat) (x : Voice), s.voices[u]? = some x → x.playing = true → t.voices[u]? = some Voice.reset →
      (∀ (w : Nat) (y : Voice), s.voices[w]? = some y → y.playing = true → t.voices[w]? = some Voice.reset →
        x.age.toNat ≤ y.age.toNat ∧ (x.age.toNat = y.age.toNat → w ≤ u)) →
      (freeSlots t).length < n + x.partials.toList.countP (·.isSome)) ∧
    ∀ (j : Nat) (p : Partial), s.partials[j]? = some p →
      t.partials[j]? = some p ∨
        (t.partials[j]? = some { p with st := .inactive } ∧ t.voices[p.owner]? = some Voice.reset)

/-- R248: MONO releases exactly the oldest of the part's voices that is playing and not decaying, if there is one; modes
0 and 1 are MONO, modes 2 and 3 POLY. -/
def Obligations.MonoReleasesOldest : Prop :=
  (assignPolicy 0 = .mono ∧ assignPolicy 1 = .mono ∧ assignPolicy 2 = .poly ∧ assignPolicy 3 = .poly) ∧
  ∀ (s : State) (p : Nat),
    ((∀ x ∈ s.voices, ¬(x.playing = true ∧ x.part.toNat = p ∧ x.decay = false)) → monoRelease s p = s) ∧
    ∀ (u : Nat) (x : Voice), s.voices[u]? = some x → x.playing = true → x.part.toNat = p → x.decay = false →
      (∀ (w : Nat) (y : Voice), s.voices[w]? = some y → y.playing = true → y.part.toNat = p → y.decay = false →
        y.age.toNat ≤ x.age.toNat ∧ (y.age.toNat = x.age.toNat → u ≤ w)) →
      monoRelease s p =
        { s with
          voices := s.voices.modify u releasedVoice
          partials := s.partials.mapIdx fun j q => if namesSlot x.partials j then releasePartial q else q }

/-- R251, R249: NOTE_OFF marks the matching voices pedal-held where the part's pedal is down, and otherwise releases
them and every partial they name; nothing else changes. -/
def Obligations.NoteOffReleases : Prop :=
  ∀ (s : State) (part : BitVec 4) (key : Byte) (r : PartRegs), part.toNat ≤ 8 → key.toNat ≤ 127 →
    s.parts[part.toNat]? = some r →
    let hits (x : Voice) : Bool :=
      x.playing && decide (x.part.toNat = part.toNat) && decide (x.key = key) && !x.decay && !x.pedalHeld
    exec (.noteOff part key 0) s =
      .next (if r.pedal then
          { s with voices := s.voices.map (fun x => if hits x then { x with pedalHeld := true } else x), cp := s.cp + 1 }
        else { releaseAll s hits with cp := s.cp + 1 })

/-- R252: SUSTAIN sets the part's pedal, and with `on = 0` releases every pedal-held voice of the part; nothing else
changes. -/
def Obligations.SustainSetsPedal : Prop :=
  ∀ (s : State) (part : BitVec 4) (on : BitVec 1), part.toNat ≤ 8 →
    let s1 := { s with parts := s.parts.modify part.toNat fun r => { r with pedal := decide (on = 1) } }
    exec (.sustain part 0 on) s =
      .next (if on = 1 then { s1 with cp := s.cp + 1 }
        else
          { releaseAll s1 (fun x => x.playing && decide (x.part.toNat = part.toNat) && x.pedalHeld) with
            cp := s.cp + 1 })

/-- R253: PROGRAM_CHANGE copies the patch and the timbre it selects, and changes nothing else. -/
def Obligations.ProgramChangeCopies : Prop :=
  ∀ (s : State) (part : BitVec 4) (patch : Byte), Memory.wf s.mem = true → part.toNat ≤ 7 → patch.toNat ≤ 127 →
    let p := part.toNat
    let from_ := 0x0930 + 8 * patch.toNat
    let ti := 64 * (Memory.read s.mem from_).toNat + (Memory.read s.mem (from_ + 1)).toNat
    ∃ m,
      exec (.programChange part patch 0) s = .next { s with mem := m, cp := s.cp + 1 } ∧ Memory.wf m = true ∧
      (∀ k, k < 8 → Memory.read m (16 * p + k) = Memory.read s.mem (from_ + k)) ∧
      (∀ k, k < 246 → Memory.read m (0x0180 + 246 * p + k) = Memory.read s.mem (0x0D30 + 246 * ti + k)) ∧
      ∀ a, ¬(16 * p ≤ a ∧ a < 16 * p + 8) → ¬(0x0180 + 246 * p ≤ a ∧ a < 0x0180 + 246 * p + 246) →
        Memory.read m a = Memory.read s.mem a

/-- R254, R249: ALL_NOTES_OFF releases every voice of the part that is not decaying, pedal-held ones too; nothing else
changes. -/
def Obligations.AllNotesOffReleases : Prop :=
  ∀ (s : State) (part : BitVec 4), part.toNat ≤ 8 →
    exec (.allNotesOff part 0) s =
      .next { releaseAll s (fun x => x.playing && decide (x.part.toNat = part.toNat) && !x.decay) with cp := s.cp + 1 }

/-- R25: every step keeps the voice invariants. -/
def Obligations.VoicesStayConsistent : Prop :=
  ∀ s t : State, VoiceInv s → step s = .next t → VoiceInv t

/-- R24: what a voice captures stays in range: with a legal memory, every step keeps it so. -/
def Obligations.VoiceFieldsStayInRange : Prop :=
  ∀ s t : State, MemInv s → (∀ x ∈ s.voices, VoiceRange x) → step s = .next t → ∀ x ∈ t.voices, VoiceRange x

/-! ## The mixer (44_mixer_render.md) -/

/-- R280, R281: RENDER runs as many frame steps as it is asked for, pushes as many frames behind those in the queue, and
writes the voices, the partials and the reverb registers beside them, nothing else. -/
def Obligations.RenderPushesFrames : Prop :=
  ∀ (s : State) (count : BitVec 24),
    ∃ (t : State) (pushed : List Frame),
      exec (.render 0 count) s = .next t ∧
      t = { (frameStep Config.openFns)^[count.toNat] s with cp := s.cp + 1 } ∧
      pushed.length = count.toNat ∧ t.audioQ = s.audioQ ++ pushed ∧
      (count = 0 → t = { s with cp := s.cp + 1 }) ∧
      t = { s with
        voices := t.voices, partials := t.partials, reverbDirty := t.reverbDirty, rc := t.rc, rs := t.rs
        audioQ := t.audioQ, cp := s.cp + 1 }

/-- R280: RENDER a followed by RENDER b gives the state and the frames of RENDER a+b, the command pointer apart. -/
def Obligations.RenderSplits : Prop :=
  ∀ (s t u : State) (a b : BitVec 24), a.toNat + b.toNat ≤ 16777215 →
    exec (.render 0 a) s = .next t → exec (.render 0 b) t = .next u →
    exec (.render 0 (a + b)) s = .next { u with cp := s.cp + 1 }

/-- R283, R287, R288, R289: the frame one frame step pushes: of each playing voice the `out` of the slots it names
summed, that sum's gain weighted by pan and summed over the voices, with one reverb step of their send, from coefficients
recomputed where a reverb byte was written, saturated to 16 bits; the partials are left as their steps leave them. -/
def Obligations.FrameIsMixAndReverb : Prop :=
  (∀ z : Int, (sat16 z).toInt = max (-32768) (min 32767 z)) ∧
  ∀ (F : OpenFns) (s : State),
    let rc := if s.reverbDirty then
        F.reverbInit (commonTables F s.sr) (Memory.read s.mem 0x10331) (Memory.read s.mem 0x10332)
          (Memory.read s.mem 0x10333) s.sr
      else s.rc
    let rs := if s.reverbDirty then F.rs0 (commonTables F s.sr) else s.rs
    let s1 := stepPartials F { s with rc := rc, rs := rs, reverbDirty := false }
    let outAt (i : Nat) : Int := match s1.partials[i]? with | some p => p.out.toInt | none => 0
    let outOfSlot (slot : Option Nat) : Int := match slot with | some i => outAt i | none => 0
    let sum (x : Voice) : Int := outOfSlot (x.partials.get 0) + outOfSlot (x.partials.get 1) +
      outOfSlot (x.partials.get 2) + outOfSlot (x.partials.get 3)
    let playing := s1.voices.filter (·.playing)
    let g (x : Voice) : Int := fGain F s.sr (BitVec.ofInt 32 (sum x)) x.level x.masterVol
    let dryL := (playing.map fun x => Int.fdiv (g x * F.panL (commonTables F s.sr) x.pan) (2 ^ 15)).sum
    let dryR := (playing.map fun x => Int.fdiv (g x * F.panR (commonTables F s.sr) x.pan) (2 ^ 15)).sum
    let send := ((playing.filter (·.reverb)).map g).sum
    let rev := F.reverbStep (commonTables F s.sr) rc rs send
    let t := frameStep F s
    t.audioQ = s.audioQ ++ [⟨sat16 (dryL + rev.1), sat16 (dryR + rev.2.1)⟩] ∧
    t.rc = rc ∧ t.rs = rev.2.2 ∧ t.reverbDirty = false ∧ t.partials = s1.partials

/-- R282, R209: a frame reads no byte of the memory, but for the three reverb bytes where `reverbDirty` is set. -/
def Obligations.FrameReadsNoMemory : Prop :=
  ∀ (F : OpenFns) (s : State) (m : Memory),
    (s.reverbDirty = true → ∀ a, 0x10331 ≤ a → a ≤ 0x10333 → Memory.read m a = Memory.read s.mem a) →
    frameStep F { s with mem := m } = { frameStep F s with mem := m }

/-- R284, R285, R286: after a frame a voice that was playing is free, if every partial it named has ended, or it names
the live ones of those it named, is one frame older, saturating, and keeps the rest of its fields. A voice that was free
is unchanged. -/
def Obligations.FrameBookkeeping : Prop :=
  ∀ (F : OpenFns) (s : State) (v : Nat) (x y : Voice),
    s.voices[v]? = some x → (frameStep F s).voices[v]? = some y →
    let ended (i : Nat) : Prop := ∀ p, (frameStep F s).partials[i]? = some p → p.st = .inactive
    (x.playing = false → y = x) ∧
    (x.playing = true →
      (y = Voice.reset ∧ ∀ (t : Fin 4) (i : Nat), x.partials.get t = some i → ended i) ∨
      (y = { x with partials := y.partials, age := y.age } ∧
        y.age.toNat = min 4294967295 (x.age.toNat + 1) ∧
        (∃ (t : Fin 4) (i : Nat), y.partials.get t = some i) ∧
        ∀ (t : Fin 4) (i : Nat), y.partials.get t = some i ↔ x.partials.get t = some i ∧ ¬ended i))

/-- R291: with no playing voice a frame is what the reverb gives for no send, and no partial is stepped. -/
def Obligations.IdleFrameIsReverbTail : Prop :=
  ∀ (F : OpenFns) (s : State), (∀ x ∈ s.voices, x.playing = false) → s.reverbDirty = false →
    let rev := F.reverbStep (commonTables F s.sr) s.rc s.rs 0
    frameStep F s = { s with rs := rev.2.2, audioQ := s.audioQ ++ [⟨sat16 rev.1, sat16 rev.2.1⟩] }

/-! ## Construction, reset and the host (70_reset_and_hazards.md, 10_state.md) -/

/-- R306: the fatal codes, and which of them a construction gives: the first failing check's, in the order of the
table. -/
def Obligations.ConstructionCheckOrder : Prop :=
  ∀ (F : OpenFns) (x : ConstructArgs),
    let configOk := 4 ≤ x.maxPartials ∧ x.maxPartials ≤ 255
    let rateOk := 8000 ≤ x.sr ∧ x.sr ≤ 96000
    let pcmOk := x.pcm.length = 128 ∧ ∀ e ∈ x.pcm, 1 ≤ e.len ∧ e.addr + e.len ≤ x.rom.length
    let imageOk := x.img.length = 0x10347 ∧ ∀ a, a < x.img.length → legal a (x.img.getD a 0) = true
    (fatalValue .badConfig = 0x83 ∧ fatalValue .badSampleRate = 0x80 ∧ fatalValue .badPcmTable = 0x81 ∧
      fatalValue .badInitialMemory = 0x82) ∧
    (construct F x = .error .badConfig ↔ ¬configOk) ∧
    (construct F x = .error .badSampleRate ↔ configOk ∧ ¬rateOk) ∧
    (construct F x = .error .badPcmTable ↔ configOk ∧ rateOk ∧ ¬pcmOk) ∧
    (construct F x = .error .badInitialMemory ↔ configOk ∧ rateOk ∧ pcmOk ∧ ¬imageOk) ∧
    ((∃ s, construct F x = .ok s) ↔ configOk ∧ rateOk ∧ pcmOk ∧ imageOk)

/-- R41, R331, R333: the state a successful construction yields, and the invariants it establishes. That a slot no note has
started holds `Partial.reset`, its cache among its fields, is the model's choice of what R26 leaves unspecified (log 7),
and that the stream is empty is the model's form of the stream (log 3). -/
def Obligations.ConstructionYieldsReset : Prop :=
  ∀ (F : OpenFns) (x : ConstructArgs) (s : State), construct F x = .ok s →
    s.cp = 0 ∧ s.parts = List.replicate 9 ⟨false, 0⟩ ∧ s.voices = List.replicate x.maxPartials Voice.reset ∧
    Voice.reset = {
      playing := false, part := 0, key := 0, freq := 0, velocity := 0, reverb := false, decay := false
      partials := ⟨none, none, none, none⟩, pedalHeld := false, sustain := false, age := 0, level := 0, pan := 0
      masterVol := 0 } ∧
    s.partials.length = x.maxPartials ∧ (∀ p ∈ s.partials, p = Partial.reset) ∧
    Partial.reset = {
      st := .inactive, owner := 0, tIdx := 0, cache := Partial.reset.cache, penv := ⟨.done, 0, 0, 0⟩
      fenv := ⟨.done, 0, 0, 0⟩, aenv := ⟨.done, 0, 0, 0⟩, lfoCnt := 0, phase := 0, pcmPos := 0, pcmFrac := 0
      pcmEnded := false, fstate := ⟨0, 0, 0, 0⟩, raw := 0, out := 0 } ∧
    (∀ a, a < 0x10347 → x.img[a]? = some (Memory.read s.mem a)) ∧ s.status = ⟨0, 0⟩ ∧ s.reverbDirty = true ∧
    s.rs = F.rs0 (commonTables F x.sr) ∧ s.readQ = [] ∧ s.audioQ = [] ∧ s.stream = [] ∧ s.sr = x.sr ∧ s.rom = x.rom ∧
    s.pcm = x.pcm.map (fun e => if e.len ≤ e.loopStart then { e with loopStart := e.len - 1 } else e) ∧
    MemInv s ∧ VoiceInv s ∧ PcmInv s ∧ FileInv s ∧ (∀ p ∈ s.partials, CounterInv p) ∧ ∀ y ∈ s.voices, VoiceRange y

/-- The state after reset is the one a construction yields from the model's own choice of arguments (log 1, log 2). -/
def Obligations.ResetIsConstructed : Prop :=
  construct Config.openFns ⟨32, 32000, resetRom, resetPcm, List.replicate 0x10347 0⟩ = .ok State.reset

/-- Every invariant holds of the state after reset, whose construction arguments are the model's choice (log 1, log 2). -/
def Obligations.InvariantsHoldAtReset : Prop :=
  MemInv State.reset ∧ VoiceInv State.reset ∧ PcmInv State.reset ∧ FileInv State.reset ∧
  (∀ p ∈ State.reset.partials, CounterInv p) ∧ ∀ x ∈ State.reset.voices, VoiceRange x

/-- R6, R21, R23: nine parts that never bend, a legal sample rate, and a command pointer inside the stream: every step
keeps these. -/
def Obligations.FilesStayInRange : Prop :=
  ∀ s t : State, FileInv s → step s = .next t → FileInv t

/-- R22, R23, R34, R35, R40, R83: what no command writes, and which commands alone write the memory, the pedals, the voices
and partials, the status register, the queues and the three registers of the reverb. -/
def Obligations.WritersOfEachRegister : Prop :=
  ∀ (i : Instr) (s t : State), exec i s = .next t →
    (t.sr = s.sr ∧ t.rom = s.rom ∧ t.pcm = s.pcm ∧ t.voices.length = s.voices.length ∧
      t.partials.length = s.partials.length ∧ t.parts.map (·.bend) = s.parts.map (·.bend)) ∧
    (t.mem ≠ s.mem → (∃ rsv addr rsvLen n data, i = .blockWrite rsv addr rsvLen n data) ∨
      ∃ part patch rsv, i = .programChange part patch rsv) ∧
    (t.parts ≠ s.parts → ∃ part rsv on, i = .sustain part rsv on) ∧
    (t.voices ≠ s.voices ∨ t.partials ≠ s.partials → (∃ part key vel rsv, i = .noteOn part key vel rsv) ∨
      (∃ part key rsv, i = .noteOff part key rsv) ∨ (∃ part rsv on, i = .sustain part rsv on) ∨
      (∃ part rsv, i = .allNotesOff part rsv) ∨ ∃ rsv count, i = .render rsv count) ∧
    (t.status ≠ s.status → (∃ c, t = rejectedState i.length c s) ∨ ∃ rsv, i = .status rsv 1) ∧
    (t.reverbDirty ≠ s.reverbDirty → (∃ rsv addr rsvLen n data, i = .blockWrite rsv addr rsvLen n data) ∨
      ∃ rsv count, i = .render rsv count) ∧
    (t.readQ ≠ s.readQ → (∃ rsv addr rsvLen n, i = .blockRead rsv addr rsvLen n) ∨ ∃ rsv clear, i = .status rsv clear) ∧
    (t.audioQ ≠ s.audioQ → ∃ rsv count, i = .render rsv count) ∧
    (t.rc ≠ s.rc ∨ t.rs ≠ s.rs → ∃ rsv count, i = .render rsv count)

/-- R35, R337: no command reads the queues, so what the host removes from them changes nothing else: a command on a
state with other queues does the same and pushes the same. -/
def Obligations.QueuesAreNeverRead : Prop :=
  ∀ (i : Instr) (s t : State) (q : List Word) (a : List Frame), exec i s = .next t →
    ∃ (dq : List Word) (da : List Frame), t.readQ = s.readQ ++ dq ∧ t.audioQ = s.audioQ ++ da ∧
      exec i { s with readQ := q, audioQ := a } = .next { t with readQ := q ++ dq, audioQ := a ++ da }
end

