-- ==== Sys2Proof/Laws/State.lean ====
section
/-! SUPPORT. Every field of the state after every update of the shared operations, each true by rfl and tagged for simp,
so that no later proof unfolds a record update. -/

namespace Sys2Proof.Machine

@[simp] theorem modVoice_cp (s : State) (v : Nat) (f : Voice → Voice) : (s.modVoice v f).cp = s.cp := rfl
@[simp] theorem modVoice_stream (s : State) (v : Nat) (f : Voice → Voice) : (s.modVoice v f).stream = s.stream := rfl
@[simp] theorem modVoice_parts (s : State) (v : Nat) (f : Voice → Voice) : (s.modVoice v f).parts = s.parts := rfl
@[simp] theorem modVoice_voices (s : State) (v : Nat) (f : Voice → Voice) : (s.modVoice v f).voices = s.voices.modify v f := rfl
@[simp] theorem modVoice_partials (s : State) (v : Nat) (f : Voice → Voice) : (s.modVoice v f).partials = s.partials := rfl
@[simp] theorem modVoice_mem (s : State) (v : Nat) (f : Voice → Voice) : (s.modVoice v f).mem = s.mem := rfl
@[simp] theorem modVoice_status (s : State) (v : Nat) (f : Voice → Voice) : (s.modVoice v f).status = s.status := rfl
@[simp] theorem modVoice_reverbDirty (s : State) (v : Nat) (f : Voice → Voice) : (s.modVoice v f).reverbDirty = s.reverbDirty := rfl
@[simp] theorem modVoice_rc (s : State) (v : Nat) (f : Voice → Voice) : (s.modVoice v f).rc = s.rc := rfl
@[simp] theorem modVoice_rs (s : State) (v : Nat) (f : Voice → Voice) : (s.modVoice v f).rs = s.rs := rfl
@[simp] theorem modVoice_readQ (s : State) (v : Nat) (f : Voice → Voice) : (s.modVoice v f).readQ = s.readQ := rfl
@[simp] theorem modVoice_audioQ (s : State) (v : Nat) (f : Voice → Voice) : (s.modVoice v f).audioQ = s.audioQ := rfl
@[simp] theorem modVoice_sr (s : State) (v : Nat) (f : Voice → Voice) : (s.modVoice v f).sr = s.sr := rfl
@[simp] theorem modVoice_rom (s : State) (v : Nat) (f : Voice → Voice) : (s.modVoice v f).rom = s.rom := rfl
@[simp] theorem modVoice_pcm (s : State) (v : Nat) (f : Voice → Voice) : (s.modVoice v f).pcm = s.pcm := rfl

@[simp] theorem modPartial_cp (s : State) (i : Nat) (f : Partial → Partial) : (s.modPartial i f).cp = s.cp := rfl
@[simp] theorem modPartial_stream (s : State) (i : Nat) (f : Partial → Partial) : (s.modPartial i f).stream = s.stream := rfl
@[simp] theorem modPartial_parts (s : State) (i : Nat) (f : Partial → Partial) : (s.modPartial i f).parts = s.parts := rfl
@[simp] theorem modPartial_voices (s : State) (i : Nat) (f : Partial → Partial) : (s.modPartial i f).voices = s.voices := rfl
@[simp] theorem modPartial_partials (s : State) (i : Nat) (f : Partial → Partial) : (s.modPartial i f).partials = s.partials.modify i f := rfl
@[simp] theorem modPartial_mem (s : State) (i : Nat) (f : Partial → Partial) : (s.modPartial i f).mem = s.mem := rfl
@[simp] theorem modPartial_status (s : State) (i : Nat) (f : Partial → Partial) : (s.modPartial i f).status = s.status := rfl
@[simp] theorem modPartial_reverbDirty (s : State) (i : Nat) (f : Partial → Partial) : (s.modPartial i f).reverbDirty = s.reverbDirty := rfl
@[simp] theorem modPartial_rc (s : State) (i : Nat) (f : Partial → Partial) : (s.modPartial i f).rc = s.rc := rfl
@[simp] theorem modPartial_rs (s : State) (i : Nat) (f : Partial → Partial) : (s.modPartial i f).rs = s.rs := rfl
@[simp] theorem modPartial_readQ (s : State) (i : Nat) (f : Partial → Partial) : (s.modPartial i f).readQ = s.readQ := rfl
@[simp] theorem modPartial_audioQ (s : State) (i : Nat) (f : Partial → Partial) : (s.modPartial i f).audioQ = s.audioQ := rfl
@[simp] theorem modPartial_sr (s : State) (i : Nat) (f : Partial → Partial) : (s.modPartial i f).sr = s.sr := rfl
@[simp] theorem modPartial_rom (s : State) (i : Nat) (f : Partial → Partial) : (s.modPartial i f).rom = s.rom := rfl
@[simp] theorem modPartial_pcm (s : State) (i : Nat) (f : Partial → Partial) : (s.modPartial i f).pcm = s.pcm := rfl

@[simp] theorem modPart_cp (s : State) (p : Nat) (f : PartRegs → PartRegs) : (s.modPart p f).cp = s.cp := rfl
@[simp] theorem modPart_stream (s : State) (p : Nat) (f : PartRegs → PartRegs) : (s.modPart p f).stream = s.stream := rfl
@[simp] theorem modPart_parts (s : State) (p : Nat) (f : PartRegs → PartRegs) : (s.modPart p f).parts = s.parts.modify p f := rfl
@[simp] theorem modPart_voices (s : State) (p : Nat) (f : PartRegs → PartRegs) : (s.modPart p f).voices = s.voices := rfl
@[simp] theorem modPart_partials (s : State) (p : Nat) (f : PartRegs → PartRegs) : (s.modPart p f).partials = s.partials := rfl
@[simp] theorem modPart_mem (s : State) (p : Nat) (f : PartRegs → PartRegs) : (s.modPart p f).mem = s.mem := rfl
@[simp] theorem modPart_status (s : State) (p : Nat) (f : PartRegs → PartRegs) : (s.modPart p f).status = s.status := rfl
@[simp] theorem modPart_reverbDirty (s : State) (p : Nat) (f : PartRegs → PartRegs) : (s.modPart p f).reverbDirty = s.reverbDirty := rfl
@[simp] theorem modPart_rc (s : State) (p : Nat) (f : PartRegs → PartRegs) : (s.modPart p f).rc = s.rc := rfl
@[simp] theorem modPart_rs (s : State) (p : Nat) (f : PartRegs → PartRegs) : (s.modPart p f).rs = s.rs := rfl
@[simp] theorem modPart_readQ (s : State) (p : Nat) (f : PartRegs → PartRegs) : (s.modPart p f).readQ = s.readQ := rfl
@[simp] theorem modPart_audioQ (s : State) (p : Nat) (f : PartRegs → PartRegs) : (s.modPart p f).audioQ = s.audioQ := rfl
@[simp] theorem modPart_sr (s : State) (p : Nat) (f : PartRegs → PartRegs) : (s.modPart p f).sr = s.sr := rfl
@[simp] theorem modPart_rom (s : State) (p : Nat) (f : PartRegs → PartRegs) : (s.modPart p f).rom = s.rom := rfl
@[simp] theorem modPart_pcm (s : State) (p : Nat) (f : PartRegs → PartRegs) : (s.modPart p f).pcm = s.pcm := rfl

@[simp] theorem pushRead_cp (s : State) (w : Word) : (s.pushRead w).cp = s.cp := rfl
@[simp] theorem pushRead_stream (s : State) (w : Word) : (s.pushRead w).stream = s.stream := rfl
@[simp] theorem pushRead_parts (s : State) (w : Word) : (s.pushRead w).parts = s.parts := rfl
@[simp] theorem pushRead_voices (s : State) (w : Word) : (s.pushRead w).voices = s.voices := rfl
@[simp] theorem pushRead_partials (s : State) (w : Word) : (s.pushRead w).partials = s.partials := rfl
@[simp] theorem pushRead_mem (s : State) (w : Word) : (s.pushRead w).mem = s.mem := rfl
@[simp] theorem pushRead_status (s : State) (w : Word) : (s.pushRead w).status = s.status := rfl
@[simp] theorem pushRead_reverbDirty (s : State) (w : Word) : (s.pushRead w).reverbDirty = s.reverbDirty := rfl
@[simp] theorem pushRead_rc (s : State) (w : Word) : (s.pushRead w).rc = s.rc := rfl
@[simp] theorem pushRead_rs (s : State) (w : Word) : (s.pushRead w).rs = s.rs := rfl
@[simp] theorem pushRead_readQ (s : State) (w : Word) : (s.pushRead w).readQ = s.readQ ++ [w] := rfl
@[simp] theorem pushRead_audioQ (s : State) (w : Word) : (s.pushRead w).audioQ = s.audioQ := rfl
@[simp] theorem pushRead_sr (s : State) (w : Word) : (s.pushRead w).sr = s.sr := rfl
@[simp] theorem pushRead_rom (s : State) (w : Word) : (s.pushRead w).rom = s.rom := rfl
@[simp] theorem pushRead_pcm (s : State) (w : Word) : (s.pushRead w).pcm = s.pcm := rfl

@[simp] theorem pushFrame_cp (s : State) (fr : Frame) : (s.pushFrame fr).cp = s.cp := rfl
@[simp] theorem pushFrame_stream (s : State) (fr : Frame) : (s.pushFrame fr).stream = s.stream := rfl
@[simp] theorem pushFrame_parts (s : State) (fr : Frame) : (s.pushFrame fr).parts = s.parts := rfl
@[simp] theorem pushFrame_voices (s : State) (fr : Frame) : (s.pushFrame fr).voices = s.voices := rfl
@[simp] theorem pushFrame_partials (s : State) (fr : Frame) : (s.pushFrame fr).partials = s.partials := rfl
@[simp] theorem pushFrame_mem (s : State) (fr : Frame) : (s.pushFrame fr).mem = s.mem := rfl
@[simp] theorem pushFrame_status (s : State) (fr : Frame) : (s.pushFrame fr).status = s.status := rfl
@[simp] theorem pushFrame_reverbDirty (s : State) (fr : Frame) : (s.pushFrame fr).reverbDirty = s.reverbDirty := rfl
@[simp] theorem pushFrame_rc (s : State) (fr : Frame) : (s.pushFrame fr).rc = s.rc := rfl
@[simp] theorem pushFrame_rs (s : State) (fr : Frame) : (s.pushFrame fr).rs = s.rs := rfl
@[simp] theorem pushFrame_readQ (s : State) (fr : Frame) : (s.pushFrame fr).readQ = s.readQ := rfl
@[simp] theorem pushFrame_audioQ (s : State) (fr : Frame) : (s.pushFrame fr).audioQ = s.audioQ ++ [fr] := rfl
@[simp] theorem pushFrame_sr (s : State) (fr : Frame) : (s.pushFrame fr).sr = s.sr := rfl
@[simp] theorem pushFrame_rom (s : State) (fr : Frame) : (s.pushFrame fr).rom = s.rom := rfl
@[simp] theorem pushFrame_pcm (s : State) (fr : Frame) : (s.pushFrame fr).pcm = s.pcm := rfl

@[simp] theorem advance_cp (s : State) (n : Nat) : (s.advance n).cp = s.cp + n := rfl
@[simp] theorem advance_stream (s : State) (n : Nat) : (s.advance n).stream = s.stream := rfl
@[simp] theorem advance_parts (s : State) (n : Nat) : (s.advance n).parts = s.parts := rfl
@[simp] theorem advance_voices (s : State) (n : Nat) : (s.advance n).voices = s.voices := rfl
@[simp] theorem advance_partials (s : State) (n : Nat) : (s.advance n).partials = s.partials := rfl
@[simp] theorem advance_mem (s : State) (n : Nat) : (s.advance n).mem = s.mem := rfl
@[simp] theorem advance_status (s : State) (n : Nat) : (s.advance n).status = s.status := rfl
@[simp] theorem advance_reverbDirty (s : State) (n : Nat) : (s.advance n).reverbDirty = s.reverbDirty := rfl
@[simp] theorem advance_rc (s : State) (n : Nat) : (s.advance n).rc = s.rc := rfl
@[simp] theorem advance_rs (s : State) (n : Nat) : (s.advance n).rs = s.rs := rfl
@[simp] theorem advance_readQ (s : State) (n : Nat) : (s.advance n).readQ = s.readQ := rfl
@[simp] theorem advance_audioQ (s : State) (n : Nat) : (s.advance n).audioQ = s.audioQ := rfl
@[simp] theorem advance_sr (s : State) (n : Nat) : (s.advance n).sr = s.sr := rfl
@[simp] theorem advance_rom (s : State) (n : Nat) : (s.advance n).rom = s.rom := rfl
@[simp] theorem advance_pcm (s : State) (n : Nat) : (s.advance n).pcm = s.pcm := rfl

@[simp] theorem reject_cp (len : Nat) (c : RejectCode) (s : State) : (reject len c s).cp = s.cp + len := rfl
@[simp] theorem reject_stream (len : Nat) (c : RejectCode) (s : State) : (reject len c s).stream = s.stream := rfl
@[simp] theorem reject_parts (len : Nat) (c : RejectCode) (s : State) : (reject len c s).parts = s.parts := rfl
@[simp] theorem reject_voices (len : Nat) (c : RejectCode) (s : State) : (reject len c s).voices = s.voices := rfl
@[simp] theorem reject_partials (len : Nat) (c : RejectCode) (s : State) : (reject len c s).partials = s.partials := rfl
@[simp] theorem reject_mem (len : Nat) (c : RejectCode) (s : State) : (reject len c s).mem = s.mem := rfl
@[simp] theorem reject_status (len : Nat) (c : RejectCode) (s : State) : (reject len c s).status = ⟨rejectValue c, satU16 (s.status.rejectCount.toNat + 1)⟩ := rfl
@[simp] theorem reject_reverbDirty (len : Nat) (c : RejectCode) (s : State) : (reject len c s).reverbDirty = s.reverbDirty := rfl
@[simp] theorem reject_rc (len : Nat) (c : RejectCode) (s : State) : (reject len c s).rc = s.rc := rfl
@[simp] theorem reject_rs (len : Nat) (c : RejectCode) (s : State) : (reject len c s).rs = s.rs := rfl
@[simp] theorem reject_readQ (len : Nat) (c : RejectCode) (s : State) : (reject len c s).readQ = s.readQ := rfl
@[simp] theorem reject_audioQ (len : Nat) (c : RejectCode) (s : State) : (reject len c s).audioQ = s.audioQ := rfl
@[simp] theorem reject_sr (len : Nat) (c : RejectCode) (s : State) : (reject len c s).sr = s.sr := rfl
@[simp] theorem reject_rom (len : Nat) (c : RejectCode) (s : State) : (reject len c s).rom = s.rom := rfl
@[simp] theorem reject_pcm (len : Nat) (c : RejectCode) (s : State) : (reject len c s).pcm = s.pcm := rfl

@[simp] theorem quad_get_const {α : Type} (x : α) (t : Fin 4) : (Quad.const x).get t = x := by
  match t with
  | 0 => rfl
  | 1 => rfl
  | 2 => rfl
  | 3 => rfl

@[simp] theorem quad_get_set_same {α : Type} (q : Quad α) (t : Fin 4) (x : α) : (q.set t x).get t = x := by
  match t with
  | 0 => rfl
  | 1 => rfl
  | 2 => rfl
  | 3 => rfl

theorem quad_get_set_other {α : Type} (q : Quad α) (t u : Fin 4) (x : α) (h : t ≠ u) :
    (q.set t x).get u = q.get u := by
  match t, u with
  | 0, 0 | 1, 1 | 2, 2 | 3, 3 => exact absurd rfl h
  | 0, 1 | 0, 2 | 0, 3 | 1, 0 | 1, 2 | 1, 3 | 2, 0 | 2, 1 | 2, 3 | 3, 0 | 3, 1 | 3, 2 => rfl

@[simp] theorem quad_get_map {α β : Type} (f : α → β) (q : Quad α) (t : Fin 4) : (q.map f).get t = f (q.get t) := by
  match t with
  | 0 => rfl
  | 1 => rfl
  | 2 => rfl
  | 3 => rfl

/-- Quads with equal entries are equal. -/
theorem quad_ext {α : Type} (q r : Quad α) (h : ∀ t, q.get t = r.get t) : q = r := by
  cases q; cases r
  have h0 := h 0; have h1 := h 1; have h2 := h 2; have h3 := h 3
  simp only [Quad.get] at h0 h1 h2 h3
  subst h0 h1 h2 h3; rfl

/-- The list of a Quad holds exactly its entries. -/
theorem quad_mem_toList {α : Type} (q : Quad α) (x : α) : x ∈ q.toList ↔ ∃ t, q.get t = x := by
  constructor
  · intro h
    simp only [Quad.toList, List.mem_cons, List.not_mem_nil, or_false] at h
    obtain rfl | rfl | rfl | rfl := h
    exacts [⟨0, rfl⟩, ⟨1, rfl⟩, ⟨2, rfl⟩, ⟨3, rfl⟩]
  · rintro ⟨t, rfl⟩
    match t with
    | 0 | 1 | 2 | 3 => simp [Quad.toList, Quad.get]

/-- A command answers a next state: the reject of its first failing check, or its whole effect with `cp` advanced. -/
theorem command_eq (len : Nat) (check : Option RejectCode) (apply : State → State) (s : State) :
    command len check apply s =
      .next (match check with
        | some c => reject len c s
        | none => (apply s).advance len) := by
  cases check <;> rfl

@[simp] theorem command_none (len : Nat) (apply : State → State) (s : State) :
    command len none apply s = .next ((apply s).advance len) := rfl

@[simp] theorem command_some (len : Nat) (c : RejectCode) (apply : State → State) (s : State) :
    command len (some c) apply s = .next (reject len c s) := rfl

@[simp] theorem firstReject_nil : firstReject [] = none := rfl

@[simp] theorem firstReject_cons (b : Bool) (c : RejectCode) (rest : List (Bool × RejectCode)) :
    firstReject ((b, c) :: rest) = if b then some c else firstReject rest := rfl

/-- No check fails exactly when every check passes. -/
theorem firstReject_eq_none (checks : List (Bool × RejectCode)) :
    firstReject checks = none ↔ ∀ x ∈ checks, x.1 = false := by
  induction checks with
  | nil => simp
  | cons x rest ih =>
    obtain ⟨b, c⟩ := x
    cases b <;> simp [ih]

end Sys2Proof.Machine
end

