-- ==== Sys2Proof/Laws/Voices.lean ====
section
/-! SUPPORT. The shared operations of the voice allocator: what each changes, said once, and what it leaves unchanged. -/

namespace Sys2Proof.Machine

/-! ## Single slots -/

@[simp] theorem releasePartial_release_twice (p : Partial) : releasePartial (releasePartial p) = releasePartial p := by
  unfold releasePartial
  split
  · simp
  · rfl

@[simp] theorem killPartial_twice (p : Partial) : killPartial (killPartial p) = killPartial p := rfl

/-- Slot `j` after a change of slot `i`. -/
theorem modPartial_get (s : State) (i j : Nat) (f : Partial → Partial) :
    (s.modPartial i f).partials[j]? = s.partials[j]?.map fun p => if i = j then f p else p := by
  simp [List.getElem?_modify]

/-- Voice `w` after a change of voice `v`. -/
theorem modVoice_get (s : State) (v w : Nat) (f : Voice → Voice) :
    (s.modVoice v f).voices[w]? = s.voices[w]?.map fun x => if v = w then f x else x := by
  simp [List.getElem?_modify]

/-! ## The partials a voice names -/

theorem namesSlot_iff (q : Quad (Option Nat)) (j : Nat) : namesSlot q j = true ↔ ∃ t, q.get t = some j := by
  simp [namesSlot, quad_mem_toList]

/-- One step of `modNamed`. -/
theorem foldl_modNamed (l : List (Option Nat)) (s : State) (f : Partial → Partial) (hf : ∀ p, f (f p) = f p) :
    l.foldl (modSlot f) s =
    { s with partials := s.partials.mapIdx fun j p => if some j ∈ l then f p else p } := by
  induction l generalizing s with
  | nil =>
    have : s.partials.mapIdx (fun j p => if some j ∈ ([] : List (Option Nat)) then f p else p) = s.partials := by
      apply List.ext_getElem? ; intro i; simp
    simp only [List.foldl_nil]
    rw [this]
  | cons i l ih =>
    rw [List.foldl_cons, ih]
    cases i with
    | none => simp [modSlot]
    | some i =>
      simp only [modSlot, State.modPartial, List.mem_cons, Option.some.injEq]
      congr 1
      apply List.ext_getElem?
      intro j
      simp only [List.getElem?_mapIdx, List.getElem?_modify]
      cases s.partials[j]? with
      | none => rfl
      | some p =>
        simp only [Option.map_eq_map, Option.map_some, Option.some.injEq]
        by_cases hij : i = j
        · subst hij; by_cases hl : some i ∈ l <;> simp [hl, hf]
        · have : ¬j = i := fun h => hij h.symm
          simp [hij, this]

/-- A change of the partials a voice names changes exactly those slots. -/
theorem modNamed_eq (s : State) (q : Quad (Option Nat)) (f : Partial → Partial) (hf : ∀ p, f (f p) = f p) :
    modNamed s q f = { s with partials := s.partials.mapIdx fun j p => if namesSlot q j then f p else p } := by
  unfold modNamed
  rw [foldl_modNamed _ _ _ hf]
  simp [namesSlot]

/-! ## Release -/

/-- `releaseVoice(v)`: voice `v` is marked, the partials it names are released, nothing else changes (R249). -/
theorem releaseVoice_eq (s : State) (v : Nat) (x : Voice) (h : s.voices[v]? = some x) :
    releaseVoice s v =
      { s with
        voices := s.voices.modify v releasedVoice
        partials := s.partials.mapIdx fun j p => if namesSlot x.partials j then releasePartial p else p } := by
  simp only [releaseVoice, h]
  rw [modNamed_eq _ _ _ releasePartial_release_twice]
  rfl

/-- The release of the admitted voices among the first `k`. -/
def releaseFirst (s : State) (m : Voice → Bool) (k : Nat) : State :=
  { s with
    voices := s.voices.mapIdx fun v x => if m x ∧ v < k then releasedVoice x else x
    partials := s.partials.mapIdx fun j p =>
      if (s.voices.take k).any fun x => m x && namesSlot x.partials j then releasePartial p else p }

theorem releaseFirst_zero (s : State) (m : Voice → Bool) : releaseFirst s m 0 = s := by
  have h1 : s.voices.mapIdx (fun v x => if m x ∧ v < 0 then releasedVoice x else x) = s.voices := by
    apply List.ext_getElem?; intro i; simp
  have h2 : s.partials.mapIdx (fun j p =>
      if (s.voices.take 0).any fun x => m x && namesSlot x.partials j then releasePartial p else p) = s.partials := by
    apply List.ext_getElem?; intro i; simp
  unfold releaseFirst
  rw [h1, h2]

theorem releaseFirst_succ (s : State) (m : Voice → Bool) (k : Nat) :
    releaseFirst s m (k + 1) =
      releaseIf m (releaseFirst s m k) k := by
  have hget : (releaseFirst s m k).voices[k]? = s.voices[k]? := by
    simp only [releaseFirst, List.getElem?_mapIdx, lt_irrefl, and_false, if_false]
    cases s.voices[k]? <;> rfl
  unfold releaseIf
  rw [hget]
  cases hk : s.voices[k]? with
  | none =>
    have hlen : s.voices.length ≤ k := by simpa using hk
    have htake : s.voices.take (k + 1) = s.voices.take k := by
      rw [List.take_of_length_le (by omega), List.take_of_length_le hlen]
    simp only [releaseFirst, htake]
    congr 1
    apply List.ext_getElem?
    intro v
    simp only [List.getElem?_mapIdx]
    rcases Nat.lt_or_ge v s.voices.length with hv | hv
    · have h1 : v < k := by omega
      have h2 : v < k + 1 := by omega
      simp [h1, h2]
    · simp [List.getElem?_eq_none hv]
  | some x =>
    have htake : s.voices.take (k + 1) = s.voices.take k ++ [x] := by
      rw [List.take_add_one, hk]; rfl
    by_cases hm : m x = true
    · simp only [hm, if_true]
      rw [releaseVoice_eq _ _ x (by rw [hget, hk])]
      simp only [releaseFirst, htake]
      congr 1
      · apply List.ext_getElem?
        intro v
        simp only [List.getElem?_mapIdx, List.getElem?_modify]
        by_cases hv : k = v
        · subst hv; simp [hk, hm]
        · cases s.voices[v]? with
          | none => rfl
          | some y =>
            have : v < k + 1 ↔ v < k := by omega
            simp [hv, this]
      · apply List.ext_getElem?
        intro j
        simp only [List.getElem?_mapIdx]
        cases s.partials[j]? with
        | none => rfl
        | some p =>
          simp only [Option.map_some, Option.some.injEq, List.any_append, List.any_cons, List.any_nil, hm,
            Bool.true_and, Bool.or_false]
          by_cases h1 : ((s.voices.take k).any fun x => m x && namesSlot x.partials j) = true <;>
            by_cases h2 : namesSlot x.partials j = true <;> simp [h1, h2]
    · have hm' : m x = false := by simpa using hm
      simp only [hm', Bool.false_eq_true, if_false]
      simp only [releaseFirst, htake]
      congr 1
      · apply List.ext_getElem?
        intro v
        simp only [List.getElem?_mapIdx]
        by_cases hv : k = v
        · subst hv; simp [hk, hm']
        · cases s.voices[v]? with
          | none => rfl
          | some y =>
            have : v < k + 1 ↔ v < k := by omega
            simp [this]
      · simp [hm']

/-- The loop of NOTE_OFF, SUSTAIN and ALL_NOTES_OFF releases exactly the voices its test admits, and each partial such
a voice names (R251, R252, R254). -/
theorem releaseWhere_eq (s : State) (m : Voice → Bool) : releaseWhere s m = releaseAll s m := by
  have key : ∀ k, (List.range k).foldl (releaseIf m) s = releaseFirst s m k := by
    intro k
    induction k with
    | zero => simp [releaseFirst_zero]
    | succ k ih => rw [List.range_succ, List.foldl_append, ih]; simp only [List.foldl_cons, List.foldl_nil]; rw [releaseFirst_succ]
  unfold releaseWhere
  rw [key]
  simp only [releaseFirst, releaseAll, List.take_length]
  congr 1
  apply List.ext_getElem?
  intro v
  simp only [List.getElem?_mapIdx, List.getElem?_map]
  rcases Nat.lt_or_ge v s.voices.length with hv | hv
  · simp [hv]
  · simp [List.getElem?_eq_none hv]

/-! ## Stealing -/

/-- `killVoice`: the partials the voice names are killed, the slot is reset, nothing else changes (R247). -/
theorem killVoice_eq (s : State) (u : Nat) (x : Voice) (h : s.voices[u]? = some x) :
    killVoice s u =
      { s with
        voices := s.voices.modify u fun _ => Voice.reset
        partials := s.partials.mapIdx fun j p => if namesSlot x.partials j then killPartial p else p } := by
  simp only [killVoice, h]
  rw [modNamed_eq _ _ _ killPartial_twice]
  rfl

/-- The accumulator form of the choice of the oldest: the result is the best so far or a later slot, and none admitted is
better. -/
theorem oldestFrom_spec (m : Voice → Bool) (l : List Voice) (v : Nat) (best : Option (Nat × Nat)) :
    match oldestFrom m l v best with
    | none => best = none ∧ ∀ x ∈ l, m x = false
    | some (u, age) =>
      ((best = some (u, age) ∧ ∀ (k : Nat) (x : Voice), l[k]? = some x → m x = true → x.age.toNat ≤ age) ∨
        (∃ k x, l[k]? = some x ∧ m x = true ∧ u = v + k ∧ age = x.age.toNat ∧
          (∀ b, best = some b → b.2 < age) ∧
          ∀ (j : Nat) (y : Voice), l[j]? = some y → m y = true → y.age.toNat ≤ age ∧ (y.age.toNat = age → k ≤ j))) := by
  induction l generalizing v best with
  | nil =>
    simp only [oldestFrom]
    cases best with
    | none => simp
    | some b => obtain ⟨u, age⟩ := b; left; simp
  | cons x l ih =>
    -- a result for the rest of the list, read as a result for the whole list
    have lift : ∀ best', (∀ b, best' = some b → (best = some b ∧ (m x = true → x.age.toNat ≤ b.2)) ∨
          (m x = true ∧ b = (v, x.age.toNat) ∧ ∀ c, best = some c → c.2 < x.age.toNat)) →
        (best' = none → best = none ∧ m x = false) →
        (match oldestFrom m l (v + 1) best' with
          | none => best = none ∧ ∀ y ∈ x :: l, m y = false
          | some (u, age) =>
            ((best = some (u, age) ∧ ∀ (k : Nat) (y : Voice), (x :: l)[k]? = some y → m y = true → y.age.toNat ≤ age) ∨
              (∃ k y, (x :: l)[k]? = some y ∧ m y = true ∧ u = v + k ∧ age = y.age.toNat ∧
                (∀ b, best = some b → b.2 < age) ∧
                ∀ (j : Nat) (z : Voice), (x :: l)[j]? = some z → m z = true →
                  z.age.toNat ≤ age ∧ (z.age.toNat = age → k ≤ j)))) := by
      intro best' hsome hnone
      have hl := ih (v + 1) best'
      cases hr : oldestFrom m l (v + 1) best' with
      | none =>
        rw [hr] at hl
        obtain ⟨h1, h2⟩ := hl
        obtain ⟨h3, h4⟩ := hnone h1
        exact ⟨h3, fun y hy => by
          obtain rfl | hy := List.mem_cons.mp hy
          · exact h4
          · exact h2 y hy⟩
      | some b =>
        obtain ⟨u, age⟩ := b
        rw [hr] at hl
        obtain ⟨h1, h2⟩ | ⟨k, y, h1, h2, h3, h4, h5, h6⟩ := hl
        · obtain ⟨h7, h8⟩ | ⟨h7, h8, h9⟩ := hsome _ h1
          · left
            refine ⟨h7, ?_⟩
            intro k y hk hm
            cases k with
            | zero => simp only [List.getElem?_cons_zero, Option.some.injEq] at hk; subst hk; exact h8 hm
            | succ k => exact h2 k y (by simpa using hk) hm
          · right
            simp only [Prod.mk.injEq] at h8
            refine ⟨0, x, by simp, h7, by omega, h8.2, fun b hb => by rw [h8.2]; exact h9 b hb, ?_⟩
            intro j z hj hz
            cases j with
            | zero => simp only [List.getElem?_cons_zero, Option.some.injEq] at hj; subst hj; exact ⟨by omega, fun _ => le_refl _⟩
            | succ j => exact ⟨h2 j z (by simpa using hj) hz, fun _ => Nat.zero_le _⟩
        · right
          refine ⟨k + 1, y, by simpa using h1, h2, by omega, h4, ?_, ?_⟩
          · intro b hb
            cases hbest : best' with
            | none => exact absurd hb (by rw [(hnone hbest).1]; simp)
            | some b' =>
              have h5' := h5 b' hbest
              obtain ⟨h7, -⟩ | ⟨-, h8, h9⟩ := hsome b' hbest
              · rw [h7] at hb; injection hb with hb; subst hb; exact h5'
              · have := h9 b hb; rw [h8] at h5'; simp only at h5'; omega
          · intro j z hj hz
            cases j with
            | zero =>
              simp only [List.getElem?_cons_zero, Option.some.injEq] at hj
              subst hj
              cases hbest : best' with
              | none => exact absurd hz (by rw [(hnone hbest).2]; simp)
              | some b' =>
                have h5' := h5 b' hbest
                obtain ⟨-, h7⟩ | ⟨-, h8, -⟩ := hsome b' hbest
                · have := h7 hz; exact ⟨by omega, fun h => by omega⟩
                · rw [h8] at h5'; simp only at h5'; exact ⟨by omega, fun h => by omega⟩
            | succ j =>
              have := h6 j z (by simpa using hj) hz
              exact ⟨this.1, fun h => by have := this.2 h; omega⟩
    simp only [oldestFrom]
    by_cases hm : m x = true
    · rw [if_pos hm]
      cases best with
      | none =>
        exact lift _ (fun b hb => .inr ⟨hm, by injection hb with hb; exact hb.symm, by simp⟩) (by simp)
      | some b =>
        obtain ⟨u, age⟩ := b
        by_cases hlt : age < x.age.toNat
        · simp only [hlt, if_true]
          exact lift _ (fun b hb => .inr ⟨hm, by injection hb with hb; exact hb.symm, fun c hc => by
            injection hc with hc; subst hc; exact hlt⟩) (by simp)
        · simp only [hlt, if_false]
          exact lift _ (fun b hb => .inl ⟨hb, fun _ => by injection hb with hb; subst hb; simpa using hlt⟩) (by simp)
    · rw [if_neg hm]
      exact lift _ (fun b hb => .inl ⟨hb, fun h => absurd h hm⟩) (fun h => ⟨h, by simpa using hm⟩)

/-- The oldest of the admitted voices: an admitted slot, no admitted voice older, and no lower slot as old (R241). -/
theorem oldest_some (m : Voice → Bool) (voices : List Voice) (u : Nat) (h : oldest m voices = some u) :
    ∃ x, voices[u]? = some x ∧ m x = true ∧
      ∀ (w : Nat) (y : Voice), voices[w]? = some y → m y = true →
        y.age.toNat ≤ x.age.toNat ∧ (y.age.toNat = x.age.toNat → u ≤ w) := by
  have hs := oldestFrom_spec m voices 0 none
  unfold oldest at h
  cases hr : oldestFrom m voices 0 none with
  | none => rw [hr] at h; simp at h
  | some b =>
    obtain ⟨u', age⟩ := b
    rw [hr] at h hs
    simp only [Option.map_some, Option.some.injEq] at h
    subst h
    obtain ⟨h1, -⟩ | ⟨k, x, h1, h2, h3, h4, -, h6⟩ := hs
    · simp at h1
    · have : u' = k := by omega
      subst this
      subst h4
      exact ⟨x, h1, h2, h6⟩

/-- There is an oldest voice exactly when some voice is admitted. -/
theorem oldest_none (m : Voice → Bool) (voices : List Voice) :
    oldest m voices = none ↔ ∀ x ∈ voices, m x = false := by
  have hs := oldestFrom_spec m voices 0 none
  unfold oldest
  cases hr : oldestFrom m voices 0 none with
  | none => rw [hr] at hs; simp only [Option.map_none, true_iff]; exact hs.2
  | some b =>
    obtain ⟨u, age⟩ := b
    rw [hr] at hs
    simp only [Option.map_some, reduceCtorEq, false_iff, not_forall]
    obtain ⟨h1, -⟩ | ⟨k, x, h1, h2, -⟩ := hs
    · simp at h1
    · exact ⟨x, List.mem_of_getElem? h1, by simp [h2]⟩

end Sys2Proof.Machine
end

