-- ==== Sys2Proof/Laws/Frames.lean ====
section
/-! SUPPORT. What each shared operation of the allocator and the mixer leaves unchanged, said once per operation. -/

namespace Sys2Proof.Machine

/-- `t` is `s` but for the contents of its voice and partial slots. -/
def SlotsOnly (s t : State) : Prop :=
  t = { s with voices := t.voices, partials := t.partials } ∧
  t.voices.length = s.voices.length ∧ t.partials.length = s.partials.length

theorem SlotsOnly.refl (s : State) : SlotsOnly s s := ⟨rfl, rfl, rfl⟩

theorem SlotsOnly.trans {s t u : State} (h1 : SlotsOnly s t) (h2 : SlotsOnly t u) : SlotsOnly s u := by
  obtain ⟨e1, a1, b1⟩ := h1
  obtain ⟨e2, a2, b2⟩ := h2
  refine ⟨?_, a2.trans a1, b2.trans b1⟩
  rw [e2, e1]

/-- A fold of steps that write slots alone writes slots alone. -/
theorem SlotsOnly.foldl {α : Type} (f : State → α → State) (hf : ∀ s a, SlotsOnly s (f s a)) (l : List α) (s : State) :
    SlotsOnly s (l.foldl f s) := by
  induction l generalizing s with
  | nil => exact .refl s
  | cons a l ih => exact (hf s a).trans (ih _)

theorem modVoice_slotsOnly (s : State) (v : Nat) (f : Voice → Voice) : SlotsOnly s (s.modVoice v f) :=
  ⟨rfl, by simp, rfl⟩

theorem modPartial_slotsOnly (s : State) (i : Nat) (f : Partial → Partial) : SlotsOnly s (s.modPartial i f) :=
  ⟨rfl, rfl, by simp⟩

theorem modNamed_slotsOnly (s : State) (q : Quad (Option Nat)) (f : Partial → Partial) :
    SlotsOnly s (modNamed s q f) := by
  refine SlotsOnly.foldl _ (fun s i => ?_) _ s
  cases i with
  | none => exact .refl s
  | some i => exact modPartial_slotsOnly s i f

theorem releaseVoice_slotsOnly (s : State) (v : Nat) : SlotsOnly s (releaseVoice s v) := by
  unfold releaseVoice
  split
  · exact (modVoice_slotsOnly _ _ _).trans (modNamed_slotsOnly _ _ _)
  · exact .refl s

theorem killVoice_slotsOnly (s : State) (v : Nat) : SlotsOnly s (killVoice s v) := by
  unfold killVoice
  split
  · exact (modNamed_slotsOnly _ _ _).trans (modVoice_slotsOnly _ _ _)
  · exact .refl s

theorem stealVoices_slotsOnly (n fuel : Nat) (s : State) : SlotsOnly s (stealVoices n fuel s) := by
  induction fuel generalizing s with
  | zero => exact .refl s
  | succ fuel ih =>
    unfold stealVoices
    split
    · split
      · exact (killVoice_slotsOnly _ _).trans (ih _)
      · exact .refl s
    · exact .refl s

theorem monoRelease_slotsOnly (s : State) (p : Nat) : SlotsOnly s (monoRelease s p) := by
  unfold monoRelease
  split
  · exact releaseVoice_slotsOnly _ _
  · exact .refl s

theorem releaseAll_slotsOnly (s : State) (m : Voice → Bool) : SlotsOnly s (releaseAll s m) :=
  ⟨rfl, by simp [releaseAll], by simp [releaseAll]⟩

theorem releaseWhere_slotsOnly (s : State) (m : Voice → Bool) : SlotsOnly s (releaseWhere s m) := by
  rw [releaseWhere_eq]; exact releaseAll_slotsOnly s m

theorem allocatePartial_slotsOnly (F : OpenFns) (timbre : List Byte) (ctx : PatchContext) (key vel : Byte) (v : Nat)
    (s : State) (t : Fin 4) : SlotsOnly s (allocatePartial F timbre ctx key vel v s t) := by
  unfold allocatePartial
  split
  · exact (modPartial_slotsOnly _ _ _).trans (modVoice_slotsOnly _ _ _)
  · exact .refl s

theorem allocateNote_slotsOnly (F : OpenFns) (p : BitVec 4) (key vel : Byte) (timbre : List Byte) (ctx : PatchContext)
    (s : State) : SlotsOnly s (allocateNote F p key vel timbre ctx s) := by
  unfold allocateNote
  split
  · exact (modVoice_slotsOnly _ _ _).trans (SlotsOnly.foldl _ (allocatePartial_slotsOnly F timbre ctx key vel _) _ _)
  · exact .refl s

/-- A note writes slots alone (R250). -/
theorem strike_slotsOnly (F : OpenFns) (p : BitVec 4) (key vel : Byte) (s : State) :
    SlotsOnly s (strike F p key vel s) := by
  unfold strike
  split
  · exact .refl s
  · simp only
    split
    · exact .refl s
    · refine .trans ?_ ((stealVoices_slotsOnly _ _ _).trans (allocateNote_slotsOnly F p key vel _ _ _))
      split
      · exact monoRelease_slotsOnly s _
      · exact .refl s

theorem stepNamed_slotsOnly (F : OpenFns) (s : State) (i : Option Nat) : SlotsOnly s (stepNamed F s i) := by
  unfold stepNamed
  split
  · split
    · exact modPartial_slotsOnly _ _ _
    · exact .refl s
  · exact .refl s

/-- The steps of a frame's partials write partial slots alone (42_partial.md R209). -/
theorem stepVoice_slotsOnly (F : OpenFns) (s : State) (v : Nat) : SlotsOnly s (stepVoice F s v) := by
  unfold stepVoice
  split
  · split
    · exact SlotsOnly.foldl _ (stepNamed_slotsOnly F) _ s
    · exact .refl s
  · exact .refl s

theorem stepPartials_slotsOnly (F : OpenFns) (s : State) : SlotsOnly s (stepPartials F s) :=
  SlotsOnly.foldl _ (stepVoice_slotsOnly F) _ s

theorem stepNamed_voices (F : OpenFns) (s : State) (i : Option Nat) : (stepNamed F s i).voices = s.voices := by
  unfold stepNamed
  split
  · split <;> rfl
  · rfl

/-- A fold of steps that keep the voices keeps the voices. -/
theorem foldl_voices {α : Type} (f : State → α → State) (hf : ∀ s a, (f s a).voices = s.voices) (l : List α)
    (s : State) : (l.foldl f s).voices = s.voices := by
  induction l generalizing s with
  | nil => rfl
  | cons a l ih => rw [List.foldl_cons, ih, hf]

theorem stepVoice_voices (F : OpenFns) (s : State) (v : Nat) : (stepVoice F s v).voices = s.voices := by
  unfold stepVoice
  split
  · split
    · exact foldl_voices _ (stepNamed_voices F) _ s
    · rfl
  · rfl

/-- Stepping partials writes no voice. -/
theorem stepPartials_voices (F : OpenFns) (s : State) : (stepPartials F s).voices = s.voices :=
  foldl_voices _ (stepVoice_voices F) _ s

/-- The registers a frame may write: the slots, the reverb registers, and one frame at the end of the queue (R281). -/
structure FrameOnly (s t : State) : Prop where
  rest : t = { s with
    voices := t.voices, partials := t.partials, reverbDirty := t.reverbDirty, rc := t.rc, rs := t.rs, audioQ := t.audioQ }
  voices : t.voices.length = s.voices.length
  partials : t.partials.length = s.partials.length

theorem FrameOnly.refl (s : State) : FrameOnly s s := ⟨rfl, rfl, rfl⟩

theorem FrameOnly.trans {s t u : State} (h1 : FrameOnly s t) (h2 : FrameOnly t u) : FrameOnly s u :=
  ⟨by rw [h2.rest, h1.rest], h2.voices.trans h1.voices, h2.partials.trans h1.partials⟩

theorem SlotsOnly.frameOnly {s t : State} (h : SlotsOnly s t) : FrameOnly s t :=
  ⟨by rw [h.1], h.2.1, h.2.2⟩

/-- The output half of a frame. -/
theorem outputFrame_eq (F : OpenFns) (s : State) :
    outputFrame F s =
      { s with
        rs := (F.reverbStep (commonTables F s.sr) s.rc s.rs (mixVoices F s).send).2.2
        audioQ := s.audioQ ++
          [⟨sat16 ((mixVoices F s).dryL + (F.reverbStep (commonTables F s.sr) s.rc s.rs (mixVoices F s).send).1),
            sat16 ((mixVoices F s).dryR + (F.reverbStep (commonTables F s.sr) s.rc s.rs (mixVoices F s).send).2.1)⟩] } := rfl

theorem frameStep_frameOnly (F : OpenFns) (s : State) : FrameOnly s (frameStep F s) := by
  have h1 : FrameOnly s (if s.reverbDirty then reverbRecompute F s else s) := by
    split
    · exact ⟨rfl, rfl, rfl⟩
    · exact .refl s
  have h2 := h1.trans (stepPartials_slotsOnly F _).frameOnly
  exact h2.trans ⟨rfl, by simp [frameStep, bookkeep, outputFrame_eq], rfl⟩

theorem frames_frameOnly (F : OpenFns) (n : Nat) (s : State) : FrameOnly s (frames F n s) := by
  induction n generalizing s with
  | zero => exact .refl s
  | succ n ih => exact (frameStep_frameOnly F s).trans (ih _)

/-- A frame step pushes one frame (R289). -/
theorem frameStep_audioQ (F : OpenFns) (s : State) : ∃ fr, (frameStep F s).audioQ = s.audioQ ++ [fr] := by
  have h1 : (stepPartials F (if s.reverbDirty then reverbRecompute F s else s)).audioQ = s.audioQ := by
    rw [(stepPartials_slotsOnly F _).1]
    split <;> rfl
  rw [← h1]
  exact ⟨_, rfl⟩

/-- `RENDER` pushes as many frames as it is asked for (R280). -/
theorem frames_audioQ (F : OpenFns) (n : Nat) (s : State) :
    ∃ pushed : List Frame, pushed.length = n ∧ (frames F n s).audioQ = s.audioQ ++ pushed := by
  induction n generalizing s with
  | zero => exact ⟨[], rfl, by simp [frames]⟩
  | succ n ih =>
    obtain ⟨fr, h1⟩ := frameStep_audioQ F s
    obtain ⟨l, h2, h3⟩ := ih (frameStep F s)
    exact ⟨fr :: l, by simp [h2], by rw [frames, h3, h1, List.append_assoc]; rfl⟩

/-- Rendering in two parts (R280). -/
theorem frames_add (F : OpenFns) (a b : Nat) (s : State) : frames F (a + b) s = frames F b (frames F a s) := by
  induction a generalizing s with
  | zero => simp [frames]
  | succ a ih => rw [Nat.succ_add, frames, ih, frames]

/-! ## What a frame does not read -/

/-- `s` with the command pointer, the stream, the memory, the status register and the queues of `o`. -/
def withOuter (s o : State) : State :=
  { s with cp := o.cp, stream := o.stream, mem := o.mem, status := o.status, readQ := o.readQ, audioQ := o.audioQ }

theorem withOuter_self (s : State) : withOuter s s = s := rfl

theorem foldl_withOuter {α : Type} (f : State → α → State)
    (hf : ∀ s o a, f (withOuter s o) a = withOuter (f s a) o) (l : List α) (s o : State) :
    l.foldl f (withOuter s o) = withOuter (l.foldl f s) o := by
  induction l generalizing s with
  | nil => rfl
  | cons a l ih => rw [List.foldl_cons, hf, ih]; rfl

theorem stepNamed_withOuter (F : OpenFns) (s o : State) (i : Option Nat) :
    stepNamed F (withOuter s o) i = withOuter (stepNamed F s i) o := by
  cases i with
  | none => rfl
  | some i =>
    simp only [stepNamed]
    rw [show (withOuter s o).partialSt i = s.partialSt i from rfl]
    split <;> rfl

theorem stepVoice_withOuter (F : OpenFns) (s o : State) (v : Nat) :
    stepVoice F (withOuter s o) v = withOuter (stepVoice F s v) o := by
  simp only [stepVoice]
  rw [show (withOuter s o).voices = s.voices from rfl]
  cases s.voices[v]? with
  | none => rfl
  | some x =>
    simp only
    split
    · exact foldl_withOuter _ (stepNamed_withOuter F) _ s o
    · rfl

/-- Stepping the partials reads no memory, no queue, no status and no command (R209). -/
theorem stepPartials_withOuter (F : OpenFns) (s o : State) :
    stepPartials F (withOuter s o) = withOuter (stepPartials F s) o :=
  foldl_withOuter _ (stepVoice_withOuter F) _ s o

/-- A frame reads nothing outside the slots, the parts, the reverb registers and the construction arguments, but for the
reverb bytes while `reverbDirty` is set (R282). -/
theorem frameStep_withOuter (F : OpenFns) (s o : State)
    (h : s.reverbDirty = true → ∀ a, reverbModeAddr ≤ a → a ≤ reverbLevelAddr → Memory.read o.mem a = Memory.read s.mem a) :
    ∃ fr, (frameStep F s).audioQ = s.audioQ ++ [fr] ∧
      frameStep F (withOuter s o) = withOuter (frameStep F s) { o with audioQ := o.audioQ ++ [fr] } := by
  have key : ∀ u : State, u.audioQ = s.audioQ → ∃ fr, (bookkeep (outputFrame F (stepPartials F u))).audioQ = s.audioQ ++ [fr] ∧
      bookkeep (outputFrame F (stepPartials F (withOuter u o))) =
        withOuter (bookkeep (outputFrame F (stepPartials F u))) { o with audioQ := o.audioQ ++ [fr] } := by
    intro u hu
    have h1 : (stepPartials F u).audioQ = s.audioQ := by rw [(stepPartials_slotsOnly F _).1]; exact hu
    rw [← h1, stepPartials_withOuter]
    exact ⟨_, rfl, rfl⟩
  unfold frameStep
  rw [show (withOuter s o).reverbDirty = s.reverbDirty from rfl]
  split
  · rename_i hd
    have h0 := h hd
    have : reverbRecompute F (withOuter s o) = withOuter (reverbRecompute F s) o := by
      have a0 := h0 reverbModeAddr (by decide) (by decide)
      have a1 := h0 reverbTimeAddr (by decide) (by decide)
      have a2 := h0 reverbLevelAddr (by decide) (by decide)
      simp only [reverbRecompute, withOuter, a0, a1, a2]
    rw [this]
    exact key _ rfl
  · exact key s rfl

/-- A rendering of many frames reads no more than one frame does. -/
theorem frames_withOuter (F : OpenFns) (n : Nat) (s o : State) (h : o.mem = s.mem) :
    ∃ pushed : List Frame, (frames F n s).audioQ = s.audioQ ++ pushed ∧
      frames F n (withOuter s o) = withOuter (frames F n s) { o with audioQ := o.audioQ ++ pushed } := by
  induction n generalizing s o with
  | zero => exact ⟨[], by simp [frames], by simp [frames, withOuter]⟩
  | succ n ih =>
    obtain ⟨fr, h1, h2⟩ := frameStep_withOuter F s o (fun _ _ _ _ => by rw [h])
    have hm : (frameStep F s).mem = s.mem := by rw [(frameStep_frameOnly F s).rest]
    obtain ⟨l, h3, h4⟩ := ih (frameStep F s) { o with audioQ := o.audioQ ++ [fr] } (by rw [hm]; exact h)
    refine ⟨fr :: l, by rw [frames, h3, h1]; simp, ?_⟩
    rw [frames, h2, h4, frames]
    simp

end Sys2Proof.Machine
end

