-- ==== Sys2Proof/Laws/Invariant.lean ====
section
/-! SUPPORT. The voice invariants (10_state.md R25) under the shared operations: a change of shape-free fields keeps them, the
kill of a voice keeps them, and a frame's bookkeeping restores them. -/

namespace Sys2Proof.Machine

/-- The voice invariants without the clause that a playing voice names a partial: what holds while a note starts. -/
structure NamesInv (s : State) : Prop where
  voicesMatch : s.voices.length = s.partials.length
  namesLive : ∀ (v : Nat) (x : Voice), s.voices[v]? = some x → x.playing = true → ∀ (t : Fin 4) (i : Nat),
    x.partials.get t = some i → ∃ p : Partial, s.partials[i]? = some p ∧ p.st ≠ .inactive ∧ p.owner = v ∧ p.tIdx = t
  freeNamesNone : ∀ (v : Nat) (x : Voice), s.voices[v]? = some x → x.playing = false → ∀ t : Fin 4,
    x.partials.get t = none
  liveNamed : ∀ (i : Nat) (p : Partial), s.partials[i]? = some p → p.st ≠ .inactive →
    ∃ x : Voice, s.voices[p.owner]? = some x ∧ x.playing = true ∧ x.partials.get p.tIdx = some i

theorem VoiceInv.names {s : State} (h : VoiceInv s) : NamesInv s :=
  ⟨h.voicesMatch, h.namesLive, h.freeNamesNone, h.liveNamed⟩

/-- The voice invariants speak of a voice's playing bit and names, and of a partial's liveness, owner and index. -/
structure SameShape (s t : State) : Prop where
  voices : ∀ v : Nat, t.voices[v]?.map (fun x => (x.playing, x.partials)) = s.voices[v]?.map fun x => (x.playing, x.partials)
  partials : ∀ i : Nat, t.partials[i]?.map (fun p => (decide (p.st = .inactive), p.owner, p.tIdx)) =
    s.partials[i]?.map fun p => (decide (p.st = .inactive), p.owner, p.tIdx)
  voicesLength : t.voices.length = s.voices.length
  partialsLength : t.partials.length = s.partials.length

theorem SameShape.voice {s t : State} (h : SameShape s t) (v : Nat) (y : Voice) (hy : t.voices[v]? = some y) :
    ∃ x, s.voices[v]? = some x ∧ y.playing = x.playing ∧ y.partials = x.partials := by
  have := h.voices v
  rw [hy] at this
  cases hx : s.voices[v]? with
  | none => rw [hx] at this; simp at this
  | some x => rw [hx] at this; simp at this; exact ⟨x, rfl, this.1, this.2⟩

theorem SameShape.slot {s t : State} (h : SameShape s t) (i : Nat) (q : Partial) (hq : t.partials[i]? = some q) :
    ∃ p, s.partials[i]? = some p ∧ (q.st = .inactive ↔ p.st = .inactive) ∧ q.owner = p.owner ∧ q.tIdx = p.tIdx := by
  have := h.partials i
  rw [hq] at this
  cases hp : s.partials[i]? with
  | none => rw [hp] at this; simp at this
  | some p => rw [hp] at this; simp at this; exact ⟨p, rfl, this.1, this.2⟩

theorem SameShape.symm {s t : State} (h : SameShape s t) : SameShape t s :=
  ⟨fun v => (h.voices v).symm, fun i => (h.partials i).symm, h.voicesLength.symm, h.partialsLength.symm⟩

/-- A change that keeps the shape keeps the invariants. -/
theorem SameShape.voiceInv {s t : State} (h : SameShape s t) (hs : VoiceInv s) : VoiceInv t := by
  have slot : ∀ (i : Nat) (p : Partial), s.partials[i]? = some p → ∃ q : Partial, t.partials[i]? = some q ∧ (q.st = .inactive ↔ p.st = .inactive) ∧
      q.owner = p.owner ∧ q.tIdx = p.tIdx := by
    intro i p hp
    obtain ⟨q, h1, h2, h3, h4⟩ := h.symm.slot i p hp
    exact ⟨q, h1, h2.symm, h3.symm, h4.symm⟩
  refine ⟨by rw [h.partialsLength]; exact hs.atLeastFour, by rw [h.partialsLength]; exact hs.atMost255,
    by rw [h.voicesLength, h.partialsLength]; exact hs.voicesMatch, ?_, ?_, ?_, ?_⟩
  · intro v y hy hp
    obtain ⟨x, h1, h2, h3⟩ := h.voice v y hy
    rw [h3]
    exact hs.namesSome v x h1 (by rw [← h2]; exact hp)
  · intro v y hy hp u i hi
    obtain ⟨x, h1, h2, h3⟩ := h.voice v y hy
    obtain ⟨p, p1, p2, p3, p4⟩ := hs.namesLive v x h1 (by rw [← h2]; exact hp) u i (by rw [← h3]; exact hi)
    obtain ⟨q, q1, q2, q3, q4⟩ := slot i p p1
    exact ⟨q, q1, fun e => p2 (q2.1 e), q3.trans p3, q4.trans p4⟩
  · intro v y hy hp
    obtain ⟨x, h1, h2, h3⟩ := h.voice v y hy
    rw [h3]
    exact hs.freeNamesNone v x h1 (by rw [← h2]; exact hp)
  · intro i q hq hst
    obtain ⟨p, p1, p2, p3, p4⟩ := h.slot i q hq
    obtain ⟨x, x1, x2, x3⟩ := hs.liveNamed i p p1 (fun e => hst (p2.2 e))
    obtain ⟨y, y1, y2, y3⟩ := h.symm.voice p.owner x x1
    exact ⟨y, by rw [p3]; exact y1, by rw [← y2]; exact x2, by rw [p4, ← y3]; exact x3⟩

theorem releasePartial_shape (p : Partial) :
    ((releasePartial p).st = .inactive ↔ p.st = .inactive) ∧ (releasePartial p).owner = p.owner ∧
    (releasePartial p).tIdx = p.tIdx := by
  unfold releasePartial
  split
  · rename_i h
    refine ⟨⟨fun e => PartialState.noConfusion e, fun e => ?_⟩, rfl, rfl⟩
    rw [e] at h
    simp at h
  · exact ⟨Iff.rfl, rfl, rfl⟩

/-- Releasing voices and partials, whichever, keeps the shape. -/
theorem release_sameShape (s : State) (m : Nat → Voice → Bool) (k : Nat → Bool) :
    SameShape s { s with
      voices := s.voices.mapIdx fun v x => if m v x then releasedVoice x else x
      partials := s.partials.mapIdx fun j p => if k j then releasePartial p else p } := by
  refine ⟨?_, ?_, by simp, by simp⟩
  · intro v
    simp only [List.getElem?_mapIdx, Option.map_map]
    congr 1
    funext x
    simp only [Function.comp]
    split <;> rfl
  · intro i
    simp only [List.getElem?_mapIdx, Option.map_map]
    congr 1
    funext p
    simp only [Function.comp]
    split
    · obtain ⟨h1, h2, h3⟩ := releasePartial_shape p
      simp only [h1, h2, h3]
    · rfl

theorem releaseAll_sameShape (s : State) (m : Voice → Bool) : SameShape s (releaseAll s m) := by
  have h := release_sameShape s (fun _ x => m x) fun j => s.voices.any fun x => m x && namesSlot x.partials j
  have e : s.voices.mapIdx (fun _ x => if m x then releasedVoice x else x) =
      s.voices.map fun x => if m x then releasedVoice x else x := by
    apply List.ext_getElem?
    intro v
    simp
  rw [e] at h
  exact h

theorem releaseVoice_sameShape (s : State) (v : Nat) : SameShape s (releaseVoice s v) := by
  cases hx : s.voices[v]? with
  | none => unfold releaseVoice; rw [hx]; exact ⟨fun _ => rfl, fun _ => rfl, rfl, rfl⟩
  | some x =>
    rw [releaseVoice_eq _ _ _ hx]
    have h := release_sameShape s (fun w _ => decide (w = v)) fun j => namesSlot x.partials j
    have e : s.voices.mapIdx (fun w x => if decide (w = v) then releasedVoice x else x) =
        s.voices.modify v releasedVoice := by
      apply List.ext_getElem?
      intro w
      simp only [List.getElem?_mapIdx, List.getElem?_modify, decide_eq_true_eq]
      by_cases hw : w = v
      · subst hw; simp
      · have : ¬v = w := fun e => hw e.symm
        simp [hw, this]
    rw [e] at h
    exact h

theorem monoRelease_sameShape (s : State) (p : Nat) : SameShape s (monoRelease s p) := by
  unfold monoRelease
  split
  · exact releaseVoice_sameShape s _
  · exact ⟨fun _ => rfl, fun _ => rfl, rfl, rfl⟩

theorem holdWhere_sameShape (s : State) (m : Voice → Bool) : SameShape s (holdWhere s m) := by
  refine ⟨?_, fun _ => rfl, by simp [holdWhere], rfl⟩
  intro v
  simp only [holdWhere, List.getElem?_map, Option.map_map]
  congr 1
  funext x
  simp only [Function.comp]
  split <;> rfl

/-! ## Free slots -/

theorem partialSt_of (s : State) (i : Nat) (p : Partial) (h : s.partials[i]? = some p) : s.partialSt i = p.st := by
  simp only [State.partialSt, h]

/-- The free slots in the terms of `State.partialSt`. -/
theorem freeSlots_eq (s : State) :
    freeSlots s = (List.range s.partials.length).filter fun i => decide (s.partialSt i = .inactive) := by
  refine List.filter_congr fun i hi => ?_
  have h := List.getElem?_eq_getElem (List.mem_range.mp hi)
  rw [h, partialSt_of s i _ h]
  rfl

theorem mem_freeSlots (s : State) (i : Nat) :
    i ∈ freeSlots s ↔ ∃ p, s.partials[i]? = some p ∧ p.st = .inactive := by
  rw [freeSlots_eq, List.mem_filter, List.mem_range, decide_eq_true_eq]
  constructor
  · rintro ⟨h1, h2⟩
    have h := List.getElem?_eq_getElem h1
    exact ⟨_, h, by rw [partialSt_of s i _ h] at h2; exact h2⟩
  · rintro ⟨p, h1, h2⟩
    have hlt : i < s.partials.length := by
      by_contra hc
      rw [List.getElem?_eq_none (by omega)] at h1
      cases h1
    exact ⟨hlt, by rw [partialSt_of s i p h1]; exact h2⟩

/-- The free slots of a longer arena. -/
theorem freeSlots_cons (s : State) (p : Partial) (l : List Partial) :
    freeSlots { s with partials := p :: l } =
      if p.st = .inactive then 0 :: (freeSlots { s with partials := l }).map (· + 1)
      else (freeSlots { s with partials := l }).map (· + 1) := by
  simp only [freeSlots_eq, List.length_cons, List.range_succ_eq_map, List.filter_cons, List.filter_map]
  rw [partialSt_of _ 0 p rfl]
  have e : ((fun i => decide (State.partialSt { s with partials := p :: l } i = .inactive)) ∘ Nat.succ) =
      fun i => decide (State.partialSt { s with partials := l } i = .inactive) := by
    funext i; rfl
  rw [e]
  by_cases h : p.st = .inactive
  · simp [h]
  · simp [h]

/-- `freePartials` counts the free slots. -/
theorem freePartials_eq (s : State) : freePartials s = (freeSlots s).length := by
  have key : ∀ l : List Partial, freePartials { s with partials := l } = (freeSlots { s with partials := l }).length := by
    intro l
    induction l with
    | nil => rfl
    | cons p l ih =>
      rw [freeSlots_cons]
      simp only [freePartials, List.countP_cons] at ih ⊢
      rw [ih]
      by_cases h : p.st = .inactive <;> simp [h]
  exact key s.partials

/-- The lowest free partial is the first of the free slots. -/
theorem lowestFreePartial_eq (s : State) : lowestFreePartial s = (freeSlots s).head? := by
  have key : ∀ l : List Partial,
      lowestFreePartial { s with partials := l } = (freeSlots { s with partials := l }).head? := by
    intro l
    induction l with
    | nil => rfl
    | cons p l ih =>
      rw [freeSlots_cons]
      simp only [lowestFreePartial, List.findIdx?_cons] at ih ⊢
      rw [ih]
      by_cases h : p.st = .inactive <;> simp [h, List.head?_map]
  exact key s.partials

/-- Where a partial is free, so is a voice: every playing voice names a live partial of its own (R245). -/
theorem exists_freeVoice (s : State) (h : VoiceInv s) (hfree : 0 < freePartials s) :
    ∃ v, lowestFreeVoice s = some v := by
  by_contra hno
  have hnone : lowestFreeVoice s = none := by
    cases hv : lowestFreeVoice s with
    | none => rfl
    | some v => exact absurd ⟨v, hv⟩ hno
  have hall : ∀ x ∈ s.voices, x.playing = true := by
    intro x hx
    have := (List.findIdx?_eq_none_iff.mp hnone) x hx
    simpa using this
  -- every voice owns a live slot of its own, so every slot is live
  have hown : ∀ v : Fin s.voices.length, ∃ i : Fin s.partials.length, ∃ p, s.partials[i.val]? = some p ∧
      p.st ≠ .inactive ∧ p.owner = v.val := by
    intro v
    have hx : s.voices[v.val]? = some s.voices[v.val] := List.getElem?_eq_getElem v.isLt
    have hp := hall _ (List.getElem_mem v.isLt)
    obtain ⟨t, i, hi⟩ := h.namesSome _ _ hx hp
    obtain ⟨p, p1, p2, p3, -⟩ := h.namesLive _ _ hx hp t i hi
    have hlt : i < s.partials.length := by
      by_contra hc
      rw [List.getElem?_eq_none (by omega)] at p1
      cases p1
    exact ⟨⟨i, hlt⟩, p, p1, p2, p3⟩
  choose f hf using hown
  have hinj : Function.Injective f := by
    intro a b hab
    obtain ⟨p, p1, -, p3⟩ := hf a
    obtain ⟨q, q1, -, q3⟩ := hf b
    rw [hab, q1] at p1
    injection p1 with p1
    exact Fin.ext (by rw [← p3, ← q3, p1])
  have hsurj : Function.Surjective f := by
    have hcard : Fintype.card (Fin s.voices.length) = Fintype.card (Fin s.partials.length) := by
      simp [h.voicesMatch]
    exact ((Fintype.bijective_iff_injective_and_card f).mpr ⟨hinj, hcard⟩).2
  rw [freePartials_eq] at hfree
  obtain ⟨i, hi⟩ := List.exists_mem_of_length_pos hfree
  obtain ⟨p, p1, p2⟩ := (mem_freeSlots s i).mp hi
  have hlt : i < s.partials.length := by
    by_contra hc
    rw [List.getElem?_eq_none (by omega)] at p1
    cases p1
  obtain ⟨v, hv⟩ := hsurj ⟨i, hlt⟩
  obtain ⟨q, q1, q2, -⟩ := hf v
  rw [hv] at q1
  rw [p1] at q1
  injection q1 with q1
  exact q2 (q1 ▸ p2)

/-! ## Stealing -/

/-- What the kill of a playing voice leaves (R247). -/
theorem killVoice_slots (s : State) (h : VoiceInv s) (u : Nat) (x : Voice) (hx : s.voices[u]? = some x)
    (hp : x.playing = true) :
    (∀ v, (killVoice s u).voices[v]? = if v = u then some Voice.reset else s.voices[v]?) ∧
    ∀ (j : Nat) (p : Partial), s.partials[j]? = some p →
      (killVoice s u).partials[j]? =
        some (if p.st ≠ .inactive ∧ p.owner = u then killPartial p else p) := by
  rw [killVoice_eq _ _ _ hx]
  refine ⟨?_, ?_⟩
  · intro v
    simp only [List.getElem?_modify]
    by_cases hv : v = u
    · subst hv; simp [hx]
    · have : ¬u = v := fun e => hv e.symm
      simp [hv, this]
  · intro j p hj
    simp only [List.getElem?_mapIdx, hj, Option.map_some, Option.some.injEq]
    have key : namesSlot x.partials j = true ↔ p.st ≠ .inactive ∧ p.owner = u := by
      rw [namesSlot_iff]
      constructor
      · rintro ⟨t, ht⟩
        obtain ⟨q, q1, q2, q3, -⟩ := h.namesLive u x hx hp t j ht
        rw [hj] at q1
        injection q1 with q1
        subst q1
        exact ⟨q2, q3⟩
      · rintro ⟨h1, h2⟩
        obtain ⟨y, y1, -, y3⟩ := h.liveNamed j p hj h1
        rw [h2, hx] at y1
        injection y1 with y1
        subst y1
        exact ⟨_, y3⟩
    by_cases hk : namesSlot x.partials j = true
    · rw [if_pos hk, if_pos (key.mp hk)]
    · rw [if_neg hk, if_neg fun e => hk (key.mpr e)]

/-- The kill of a playing voice keeps the invariants. -/
theorem killVoice_voiceInv (s : State) (h : VoiceInv s) (u : Nat) (x : Voice) (hx : s.voices[u]? = some x)
    (hp : x.playing = true) : VoiceInv (killVoice s u) := by
  obtain ⟨hv, hj⟩ := killVoice_slots s h u x hx hp
  have hs := killVoice_slotsOnly s u
  have back : ∀ (j : Nat) (q : Partial), (killVoice s u).partials[j]? = some q → ∃ p, s.partials[j]? = some p ∧
      q = if p.st ≠ .inactive ∧ p.owner = u then killPartial p else p := by
    intro j q hq
    cases hp : s.partials[j]? with
    | none =>
      have h1 : j < (killVoice s u).partials.length := by
        by_contra hc
        rw [List.getElem?_eq_none (by omega)] at hq
        cases hq
      rw [hs.2.2] at h1
      rw [List.getElem?_eq_getElem h1] at hp
      cases hp
    | some p =>
      rw [hj j p hp] at hq
      injection hq with hq
      exact ⟨p, rfl, hq.symm⟩
  refine ⟨by rw [hs.2.2]; exact h.atLeastFour, by rw [hs.2.2]; exact h.atMost255,
    by rw [hs.2.1, hs.2.2]; exact h.voicesMatch, ?_, ?_, ?_, ?_⟩
  · intro v y hy hpl
    rw [hv] at hy
    split at hy
    · injection hy with hy; subst hy; cases hpl
    · exact h.namesSome v y hy hpl
  · intro v y hy hpl t i hi
    rw [hv] at hy
    split at hy
    · injection hy with hy; subst hy; cases hpl
    · rename_i hne
      obtain ⟨p, p1, p2, p3, p4⟩ := h.namesLive v y hy hpl t i hi
      refine ⟨p, ?_, p2, p3, p4⟩
      rw [hj i p p1, if_neg]
      rintro ⟨-, e⟩
      exact hne (p3.symm.trans e)
  · intro v y hy hpl t
    rw [hv] at hy
    split at hy
    · injection hy with hy; subst hy; simp [Voice.reset]
    · exact h.freeNamesNone v y hy hpl t
  · intro i q hq hst
    obtain ⟨p, p1, p2⟩ := back i q hq
    split at p2
    · subst p2; exact absurd rfl hst
    · rename_i hne
      subst p2
      obtain ⟨y, y1, y2, y3⟩ := h.liveNamed i q p1 hst
      refine ⟨y, ?_, y2, y3⟩
      rw [hv, if_neg]
      · exact y1
      · intro e; exact hne ⟨hst, e⟩

/-- The kill of a playing voice frees a slot. -/
theorem killVoice_frees (s : State) (h : VoiceInv s) (u : Nat) (x : Voice) (hx : s.voices[u]? = some x)
    (hp : x.playing = true) : freePartials s < freePartials (killVoice s u) := by
  obtain ⟨-, hj⟩ := killVoice_slots s h u x hx hp
  have hlen := (killVoice_slotsOnly s u).2.2
  obtain ⟨t, i, hi⟩ := h.namesSome u x hx hp
  obtain ⟨p, p1, p2, p3, -⟩ := h.namesLive u x hx hp t i hi
  have hmem : ∀ j, j ∈ freeSlots s → j ∈ freeSlots (killVoice s u) := by
    intro j hfree
    obtain ⟨q, q1, q2⟩ := (mem_freeSlots s j).mp hfree
    refine (mem_freeSlots _ j).mpr ⟨q, ?_, q2⟩
    rw [hj j q q1, if_neg]
    rintro ⟨e, -⟩
    exact e q2
  have hi1 : i ∉ freeSlots s := by
    intro e
    obtain ⟨q, q1, q2⟩ := (mem_freeSlots s i).mp e
    rw [p1] at q1
    injection q1 with q1
    exact p2 (q1 ▸ q2)
  have hi2 : i ∈ freeSlots (killVoice s u) := by
    refine (mem_freeSlots _ i).mpr ⟨killPartial p, ?_, rfl⟩
    rw [hj i p p1, if_pos ⟨p2, p3⟩]
  have hnd : (freeSlots s).Nodup := List.nodup_range.filter _
  have hnd2 : (freeSlots (killVoice s u)).Nodup := List.nodup_range.filter _
  rw [freePartials_eq, freePartials_eq, ← List.toFinset_card_of_nodup hnd, ← List.toFinset_card_of_nodup hnd2]
  apply Finset.card_lt_card
  rw [Finset.ssubset_iff_of_subset]
  · exact ⟨i, by simpa using hi2, by simpa using hi1⟩
  · intro j hjm
    simp only [List.mem_toFinset] at hjm ⊢
    exact hmem j hjm

/-- Killing one slot frees at most one. -/
theorem countP_modify_kill (l : List Partial) (i : Nat) :
    (l.modify i killPartial).countP (fun p => decide (p.st = .inactive)) ≤
      l.countP (fun p => decide (p.st = .inactive)) + 1 := by
  induction l generalizing i with
  | nil => simp
  | cons p l ih =>
    cases i with
    | zero =>
      simp only [List.modify_zero_cons, List.countP_cons]
      split <;> split <;> omega
    | succ i =>
      simp only [List.modify_succ_cons, List.countP_cons]
      have := ih i
      omega

/-- The kill of a voice frees at most as many slots as it names. -/
theorem killVoice_frees_at_most (s : State) (u : Nat) (x : Voice) (h : s.voices[u]? = some x) :
    freePartials (killVoice s u) ≤ freePartials s + x.partials.toList.countP (·.isSome) := by
  have key : ∀ (l : List (Option Nat)) (s : State),
      freePartials (l.foldl (modSlot killPartial) s) ≤ freePartials s + l.countP (·.isSome) := by
    intro l
    induction l with
    | nil => intro s; simp
    | cons a l ih =>
      intro s
      rw [List.foldl_cons]
      refine (ih _).trans ?_
      cases a with
      | none => simp [modSlot]
      | some i =>
        have : freePartials (modSlot killPartial s (some i)) ≤ freePartials s + 1 := countP_modify_kill s.partials i
        simp only [List.countP_cons, Option.isSome_some, if_true]
        omega
  simp only [killVoice, h]
  exact key _ s

/-- Where a slot is not free, some voice plays. -/
theorem exists_playing (s : State) (h : VoiceInv s) (hfree : freePartials s < s.partials.length) :
    ∃ u, oldest (·.playing) s.voices = some u := by
  cases ho : oldest (·.playing) s.voices with
  | some u => exact ⟨u, rfl⟩
  | none =>
    have hnone := (oldest_none _ _).mp ho
    exfalso
    have : freePartials s = s.partials.length := by
      unfold freePartials
      rw [List.countP_eq_length]
      intro p hp
      obtain ⟨i, hi⟩ := List.getElem?_of_mem hp
      by_contra hst
      obtain ⟨x, x1, x2, -⟩ := h.liveNamed i p hi (by simpa using hst)
      have := hnone x (List.mem_of_getElem? x1)
      rw [x2] at this
      cases this
    omega

end Sys2Proof.Machine
end

