-- ==== Sys2Proof/Laws/Allocate.lean ====
section
/-! SUPPORT. The start of a note's partials (43_voice_allocator.md R246), said once for any list of timbre partials. -/

namespace Sys2Proof.Machine

/-- A playable timbre partial has a cache, one that is not playable has none (R161). -/
theorem buildCache_playable (F : OpenFns) (sr : Nat) (pcm : List PcmWave) (mt : Byte) (timbre : List Byte) (t : Fin 4)
    (ctx : PatchContext) (key vel : Byte) :
    buildCache F sr pcm mt timbre t.val ctx key vel =
      if playable timbre t then some (cacheOf F sr pcm mt timbre t ctx key vel) else none := by
  unfold buildCache
  rw [dif_pos t.isLt]

theorem allocatePartial_skip (F : OpenFns) (timbre : List Byte) (ctx : PatchContext) (key vel : Byte) (v : Nat)
    (s : State) (t : Fin 4) (h : playable timbre t = false) : allocatePartial F timbre ctx key vel v s t = s := by
  unfold allocatePartial
  rw [buildCache_playable, h]
  rfl

/-- Slot `i` started for timbre partial `t` of voice `v`. -/
def placed (s : State) (v : Nat) (t : Fin 4) (i : Nat) (c : PatchCache) : State :=
  (s.modPartial i fun _ => startedPartial v t c).modVoice v fun x => { x with partials := x.partials.set t (some i) }

theorem allocatePartial_place (F : OpenFns) (timbre : List Byte) (ctx : PatchContext) (key vel : Byte) (v : Nat)
    (s : State) (t : Fin 4) (h : playable timbre t = true) (i : Nat) (hi : lowestFreePartial s = some i) :
    allocatePartial F timbre ctx key vel v s t =
      placed s v t i (cacheOf F s.sr s.pcm (Memory.read s.mem masterTuneAddr) timbre t ctx key vel) := by
  unfold allocatePartial
  rw [buildCache_playable, h, hi]
  rfl

theorem placed_voice (s : State) (v : Nat) (t : Fin 4) (i : Nat) (c : PatchCache) (x : Voice)
    (hx : s.voices[v]? = some x) :
    (placed s v t i c).voices[v]? = some { x with partials := x.partials.set t (some i) } := by
  simp [placed, hx]

theorem placed_otherVoice (s : State) (v : Nat) (t : Fin 4) (i : Nat) (c : PatchCache) (u : Nat) (hu : u ≠ v) :
    (placed s v t i c).voices[u]? = s.voices[u]? := by
  have : ¬v = u := fun e => hu e.symm
  simp [placed, this]

theorem placed_slot (s : State) (v : Nat) (t : Fin 4) (i : Nat) (c : PatchCache) (p : Partial)
    (hp : s.partials[i]? = some p) : (placed s v t i c).partials[i]? = some (startedPartial v t c) := by
  simp [placed, hp]

theorem placed_otherSlot (s : State) (v : Nat) (t : Fin 4) (i : Nat) (c : PatchCache) (j : Nat) (hj : j ≠ i) :
    (placed s v t i c).partials[j]? = s.partials[j]? := by
  have : ¬i = j := fun e => hj e.symm
  simp [placed, this]

/-- Starting the lowest free slot takes it out of the free slots and leaves the rest. -/
theorem placed_freeSlots (s : State) (v : Nat) (t : Fin 4) (i : Nat) (c : PatchCache) (rest : List Nat)
    (h : freeSlots s = i :: rest) : freeSlots (placed s v t i c) = rest := by
  have hlen : (placed s v t i c).partials.length = s.partials.length := by simp [placed]
  have hi : i ∈ freeSlots s := by rw [h]; simp
  obtain ⟨p, p1, -⟩ := (mem_freeSlots s i).mp hi
  have hnd : (freeSlots s).Nodup := List.nodup_range.filter _
  have hst : ∀ j, (decide ((placed s v t i c).partialSt j = .inactive)) =
      (decide (j ≠ i) && decide (s.partialSt j = .inactive)) := by
    intro j
    by_cases hj : j = i
    · subst hj
      rw [partialSt_of _ _ _ (placed_slot s v t j c p p1)]
      simp [startedPartial]
    · have : (placed s v t i c).partialSt j = s.partialSt j := by
        simp only [State.partialSt, placed_otherSlot s v t i c j hj]
      rw [this]
      simp [hj]
  rw [freeSlots_eq] at *
  rw [hlen]
  simp only [hst]
  rw [← List.filter_filter, h, List.filter_cons]
  rw [h] at hnd
  have hni := (List.nodup_cons.mp hnd).1
  simp only [ne_eq, not_true_eq_false, decide_false, Bool.false_eq_true, if_false]
  rw [List.filter_eq_self]
  intro j hj
  simp only [decide_eq_true_eq]
  rintro rfl
  exact hni hj

/-- Starting a free slot for a voice that names none at that index keeps the naming invariants. -/
theorem placed_namesInv (s : State) (h : NamesInv s) (v : Nat) (t : Fin 4) (i : Nat) (c : PatchCache) (x : Voice)
    (hx : s.voices[v]? = some x) (hp : x.playing = true) (ht : x.partials.get t = none) (hi : i ∈ freeSlots s) :
    NamesInv (placed s v t i c) := by
  obtain ⟨p, p1, p2⟩ := (mem_freeSlots s i).mp hi
  have notNamed : ∀ (w : Nat) (y : Voice), s.voices[w]? = some y → ∀ u : Fin 4, y.partials.get u ≠ some i := by
    intro w y hy u hu
    cases hpl : y.playing with
    | false => rw [h.freeNamesNone w y hy hpl u] at hu; cases hu
    | true =>
      obtain ⟨q, q1, q2, -⟩ := h.namesLive w y hy hpl u i hu
      rw [p1] at q1
      injection q1 with q1
      exact q2 (q1 ▸ p2)
  have voice : ∀ (w : Nat) (y : Voice), (placed s v t i c).voices[w]? = some y →
      (w = v ∧ y = { x with partials := x.partials.set t (some i) }) ∨ (w ≠ v ∧ s.voices[w]? = some y) := by
    intro w y hy
    by_cases hw : w = v
    · subst hw
      rw [placed_voice s w t i c x hx] at hy
      injection hy with hy
      exact .inl ⟨rfl, hy.symm⟩
    · rw [placed_otherVoice s v t i c w hw] at hy
      exact .inr ⟨hw, hy⟩
  have live : ∀ (w : Nat) (j : Nat) (u : Fin 4), (∃ q, s.partials[j]? = some q ∧ q.st ≠ .inactive ∧ q.owner = w ∧ q.tIdx = u) →
      ∃ q, (placed s v t i c).partials[j]? = some q ∧ q.st ≠ .inactive ∧ q.owner = w ∧ q.tIdx = u := by
    rintro w j u ⟨q, q1, q2, q3⟩
    refine ⟨q, ?_, q2, q3⟩
    rw [placed_otherSlot s v t i c j]
    · exact q1
    · rintro rfl
      rw [p1] at q1
      injection q1 with q1
      exact q2 (q1 ▸ p2)
  refine ⟨by simpa [placed] using h.voicesMatch, ?_, ?_, ?_⟩
  · intro w y hy hpl u j hj
    obtain ⟨rfl, rfl⟩ | ⟨hw, hy⟩ := voice w y hy
    · by_cases hu : t = u
      · subst hu
        simp only [quad_get_set_same, Option.some.injEq] at hj
        subst hj
        exact ⟨_, placed_slot s w t i c p p1, by simp [startedPartial], rfl, rfl⟩
      · simp only [quad_get_set_other _ _ _ _ hu] at hj
        exact live w j u (h.namesLive w x hx hp u j hj)
    · exact live w j u (h.namesLive w y hy hpl u j hj)
  · intro w y hy hpl u
    obtain ⟨rfl, rfl⟩ | ⟨hw, hy⟩ := voice w y hy
    · rw [show x.playing = false from hpl] at hp
      cases hp
    · exact h.freeNamesNone w y hy hpl u
  · intro j q hq hst
    by_cases hj : j = i
    · subst hj
      rw [placed_slot s v t j c p p1] at hq
      injection hq with hq
      subst hq
      exact ⟨{ x with partials := x.partials.set t (some j) }, placed_voice s v t j c x hx, hp, by simp [startedPartial]⟩
    · rw [placed_otherSlot s v t i c j hj] at hq
      obtain ⟨y, y1, y2, y3⟩ := h.liveNamed j q hq hst
      by_cases ho : q.owner = v
      · rw [ho, hx] at y1
        injection y1 with y1
        subst y1
        refine ⟨{ x with partials := x.partials.set t (some i) }, by rw [ho]; exact placed_voice s v t i c x hx, hp, ?_⟩
        have hne : t ≠ q.tIdx := by
          rintro rfl
          rw [ht] at y3
          cases y3
        simp only [quad_get_set_other _ _ _ _ hne]
        exact y3
      · exact ⟨y, by rw [placed_otherVoice s v t i c _ ho]; exact y1, y2, y3⟩

/-- The start of a list of timbre partials of a playing voice: the playable ones take the lowest free slots in order, and
nothing else changes (R246). -/
theorem allocate_spec (F : OpenFns) (timbre : List Byte) (ctx : PatchContext) (key vel : Byte) (v : Nat)
    (l : List (Fin 4)) (hl : l.Nodup) (s : State) (h : NamesInv s) (x : Voice) (hx : s.voices[v]? = some x)
    (hp : x.playing = true) (hnone : ∀ t ∈ l, x.partials.get t = none)
    (hfree : (l.filter (playable timbre)).length ≤ (freeSlots s).length) :
    NamesInv (l.foldl (allocatePartial F timbre ctx key vel v) s) ∧
    (∀ u, u ≠ v → (l.foldl (allocatePartial F timbre ctx key vel v) s).voices[u]? = s.voices[u]?) ∧
    (∀ j, j ∉ (freeSlots s).take (l.filter (playable timbre)).length →
      (l.foldl (allocatePartial F timbre ctx key vel v) s).partials[j]? = s.partials[j]?) ∧
    ∃ q : Quad (Option Nat),
      (l.foldl (allocatePartial F timbre ctx key vel v) s).voices[v]? = some { x with partials := q } ∧
      (∀ t, t ∉ l → q.get t = x.partials.get t) ∧
      (∀ t ∈ l, playable timbre t = false → q.get t = none) ∧
      ∀ (k : Nat) (t : Fin 4), (l.filter (playable timbre))[k]? = some t →
        ∃ i, (freeSlots s)[k]? = some i ∧ q.get t = some i ∧
          (l.foldl (allocatePartial F timbre ctx key vel v) s).partials[i]? =
            some (startedPartial v t (cacheOf F s.sr s.pcm (Memory.read s.mem masterTuneAddr) timbre t ctx key vel)) := by
  induction l generalizing s x with
  | nil =>
    refine ⟨h, fun _ _ => rfl, fun _ _ => rfl, x.partials, hx, fun _ _ => rfl, ?_, ?_⟩
    · intro t ht; simp at ht
    · intro k t hk; simp at hk
  | cons t l ih =>
    obtain ⟨hni, hnd⟩ := List.nodup_cons.mp hl
    rw [List.foldl_cons]
    cases hpl : playable timbre t with
    | false =>
      rw [allocatePartial_skip F timbre ctx key vel v s t hpl]
      have hf : (t :: l).filter (playable timbre) = l.filter (playable timbre) := by
        rw [List.filter_cons, hpl]; rfl
      rw [hf] at hfree ⊢
      obtain ⟨h1, h2, h3, q, h4, h5, h6, h7⟩ :=
        ih hnd s h x hx hp (fun u hu => hnone u (List.mem_cons_of_mem _ hu)) hfree
      refine ⟨h1, h2, h3, q, h4, fun u hu => h5 u fun e => hu (List.mem_cons_of_mem _ e), ?_, h7⟩
      intro u hu hpu
      obtain rfl | hu := List.mem_cons.mp hu
      · rw [h5 u hni]; exact hnone u (by simp)
      · exact h6 u hu hpu
    | true =>
      have hf : (t :: l).filter (playable timbre) = t :: l.filter (playable timbre) := by
        rw [List.filter_cons, hpl]; rfl
      rw [hf] at hfree ⊢
      simp only [List.length_cons] at hfree ⊢
      cases hfs : freeSlots s with
      | nil => rw [hfs] at hfree; simp at hfree
      | cons i rest =>
        have hlow : lowestFreePartial s = some i := by rw [lowestFreePartial_eq, hfs]; rfl
        have himem : i ∈ freeSlots s := by rw [hfs]; simp
        obtain ⟨p, p1, -⟩ := (mem_freeSlots s i).mp himem
        rw [allocatePartial_place F timbre ctx key vel v s t hpl i hlow]
        generalize hc : cacheOf F s.sr s.pcm (Memory.read s.mem masterTuneAddr) timbre t ctx key vel = c
        have hfs' := placed_freeSlots s v t i c rest hfs
        have hinv' := placed_namesInv s h v t i c x hx hp (hnone t (by simp)) himem
        have hx' := placed_voice s v t i c x hx
        have hnone' : ∀ u ∈ l, (x.partials.set t (some i)).get u = none := by
          intro u hu
          have hne : t ≠ u := by rintro rfl; exact hni hu
          rw [quad_get_set_other _ _ _ _ hne]
          exact hnone u (List.mem_cons_of_mem _ hu)
        obtain ⟨h1, h2, h3, q, h4, h5, h6, h7⟩ := ih hnd (placed s v t i c) hinv'
          { x with partials := x.partials.set t (some i) } hx' hp hnone'
          (by rw [hfs']; rw [hfs] at hfree; simpa using hfree)
        rw [hfs'] at h3 h7
        have hnd2 : (freeSlots s).Nodup := List.nodup_range.filter _
        rw [hfs] at hnd2
        have hirest := (List.nodup_cons.mp hnd2).1
        have hslot : (l.foldl (allocatePartial F timbre ctx key vel v) (placed s v t i c)).partials[i]? =
            some (startedPartial v t c) := by
          rw [h3 i fun e => hirest (List.mem_of_mem_take e)]
          exact placed_slot s v t i c p p1
        have hqt : q.get t = some i := by rw [h5 t hni]; simp
        refine ⟨h1, ?_, ?_, q, h4, ?_, ?_, ?_⟩
        · intro u hu
          rw [h2 u hu, placed_otherVoice s v t i c u hu]
        · intro j hj
          rw [List.take_succ_cons, List.mem_cons, not_or] at hj
          rw [h3 j hj.2, placed_otherSlot s v t i c j hj.1]
        · intro u hu
          rw [List.mem_cons, not_or] at hu
          rw [h5 u hu.2]
          exact quad_get_set_other _ _ _ _ fun e => hu.1 e.symm
        · intro u hu hpu
          obtain rfl | hu := List.mem_cons.mp hu
          · rw [hpl] at hpu; cases hpu
          · exact h6 u hu hpu
        · intro k u hk
          cases k with
          | zero =>
            simp only [List.getElem?_cons_zero, Option.some.injEq] at hk
            subst hk
            exact ⟨i, by simp, hqt, by rw [hslot, hc]⟩
          | succ k =>
            rw [List.getElem?_cons_succ] at hk
            obtain ⟨j, j1, j2, j3⟩ := h7 k u hk
            exact ⟨j, by rw [List.getElem?_cons_succ]; exact j1, j2, j3⟩

/-- Timbre partial `t` is playable where bit `t` of byte 12 is set (R161). -/
theorem playable_bit (timbre : List Byte) (t : Fin 4) : playable timbre t = (timbre.getD 12 0).getLsbD t.val := by
  unfold playable partialMask byteAt
  rw [BitVec.getLsbD_extractLsb']
  simp [t.isLt]

/-- The count of the playable timbre partials, by the bits of byte 12 (R161, R243). -/
theorem popcount4_partialMask (timbre : List Byte) :
    popcount4 (partialMask timbre) = ([0, 1, 2, 3].filter (timbre.getD 12 0).getLsbD).length := by
  have e : popcount4 (partialMask timbre) = (playable timbre 0).toNat + (playable timbre 1).toNat +
      (playable timbre 2).toNat + (playable timbre 3).toNat := rfl
  rw [e, playable_bit, playable_bit, playable_bit, playable_bit]
  simp only [List.filter_cons, List.filter_nil, Fin.val_zero, Fin.val_one, Fin.val_two,
    show ((3 : Fin 4).val) = 3 from rfl]
  cases (timbre.getD 12 0).getLsbD 0 <;> cases (timbre.getD 12 0).getLsbD 1 <;>
    cases (timbre.getD 12 0).getLsbD 2 <;> cases (timbre.getD 12 0).getLsbD 3 <;> rfl

/-- A timbre has a playable partial where one of the bits is set (R161, R243). -/
theorem popcount4_pos (timbre : List Byte) :
    0 < popcount4 (partialMask timbre) ↔ ∃ q : Fin 4, (timbre.getD 12 0).getLsbD q.val = true := by
  have e : popcount4 (partialMask timbre) = (playable timbre 0).toNat + (playable timbre 1).toNat +
      (playable timbre 2).toNat + (playable timbre 3).toNat := rfl
  simp only [← playable_bit]
  rw [e]
  constructor
  · intro h
    by_contra hc
    have z : ∀ q : Fin 4, playable timbre q = false := fun q => by
      cases hq : playable timbre q
      · rfl
      · exact absurd ⟨q, hq⟩ hc
    simp [z] at h
  · rintro ⟨q, hq⟩
    fin_cases q <;> simp_all

/-- The playable timbre partials, counted and in order (R243, R246). -/
theorem playable_count (timbre : List Byte) : (allT.filter (playable timbre)).length = popcount4 (partialMask timbre) := by
  have e : popcount4 (partialMask timbre) = (playable timbre 0).toNat + (playable timbre 1).toNat +
      (playable timbre 2).toNat + (playable timbre 3).toNat := rfl
  rw [e]
  unfold allT
  simp only [List.filter_cons, List.filter_nil]
  cases playable timbre 0 <;> cases playable timbre 1 <;> cases playable timbre 2 <;> cases playable timbre 3 <;> rfl

theorem playable_rank (timbre : List Byte) (t : Fin 4) (h : playable timbre t = true) :
    (allT.filter (playable timbre))[rankOf timbre t]? = some t := by
  have e : rankOf timbre t = (allT.filter fun u => playable timbre u && decide (u < t)).length := by
    have b : ∀ u : Fin 4, (timbre.getD 12 0).getLsbD u.val = playable timbre u := fun u => (playable_bit timbre u).symm
    have h0 := b 0; have h1 := b 1; have h2 := b 2; have h3 := b 3
    simp only [Fin.val_zero, Fin.val_one, Fin.val_two] at h0 h1 h2
    replace h3 : (timbre.getD 12 0).getLsbD 3 = playable timbre 3 := h3
    unfold rankOf allT
    simp only [List.filter_cons, List.filter_nil, h0, h1, h2, h3]
    fin_cases t <;> cases playable timbre 0 <;> cases playable timbre 1 <;> cases playable timbre 2 <;>
      cases playable timbre 3 <;> rfl
  rw [e]
  unfold allT
  simp only [List.filter_cons, List.filter_nil]
  cases h0 : playable timbre 0 <;> cases h1 : playable timbre 1 <;> cases h2 : playable timbre 2 <;>
    cases h3 : playable timbre 3 <;> fin_cases t <;> simp_all

/-- A note that finds its slots free takes the lowest free voice and the lowest free slots, and leaves every other voice
and slot (R245, R246). -/
theorem allocateNote_spec (F : OpenFns) (part : BitVec 4) (key vel : Byte) (timbre : List Byte) (ctx : PatchContext)
    (s : State) (h : VoiceInv s) (hpos : 0 < popcount4 (partialMask timbre))
    (hfree : popcount4 (partialMask timbre) ≤ freePartials s) :
    let t := allocateNote F part key vel timbre ctx s
    ∃ v q, lowestFreeVoice s = some v ∧ VoiceInv t ∧ (∀ u, u ≠ v → t.voices[u]? = s.voices[u]?) ∧
      (∀ j, j ∉ (freeSlots s).take (popcount4 (partialMask timbre)) → t.partials[j]? = s.partials[j]?) ∧
      t.voices[v]? = some { newVoice s.mem part key vel timbre ctx with partials := q } ∧
      (∀ r, playable timbre r = false → q.get r = none) ∧
      ∀ r, playable timbre r = true → ∃ i, (freeSlots s)[rankOf timbre r]? = some i ∧ q.get r = some i ∧
        t.partials[i]? =
          some (startedPartial v r (cacheOf F s.sr s.pcm (Memory.read s.mem masterTuneAddr) timbre r ctx key vel)) := by
  obtain ⟨v, hv⟩ := exists_freeVoice s h (by omega)
  have hv2 := hv
  unfold lowestFreeVoice at hv2
  rw [List.findIdx?_eq_some_iff_getElem] at hv2
  obtain ⟨hvlt, hvp, -⟩ := hv2
  have hxv : s.voices[v]? = some s.voices[v] := List.getElem?_eq_getElem hvlt
  have hfreev : s.voices[v].playing = false := by simpa using hvp
  intro t
  set x0 := newVoice s.mem part key vel timbre ctx with hx0
  set s1 := s.modVoice v fun _ => x0 with hs1
  have hs1v : s1.voices[v]? = some x0 := by simp [hs1, hxv]
  have hs1o : ∀ u, u ≠ v → s1.voices[u]? = s.voices[u]? := by
    intro u hu
    have : ¬v = u := fun e => hu e.symm
    simp [hs1, this]
  have hinv : NamesInv s1 := by
    refine ⟨by simp [hs1, h.voicesMatch], ?_, ?_, ?_⟩
    · intro w y hy hp r i hi
      by_cases hw : w = v
      · subst hw
        rw [hs1v] at hy
        cases hy
        simp [hx0, newVoice] at hi
      · rw [hs1o w hw] at hy
        exact h.namesLive w y hy hp r i hi
    · intro w y hy hp r
      by_cases hw : w = v
      · subst hw
        rw [hs1v] at hy
        cases hy
        cases hp
      · rw [hs1o w hw] at hy
        exact h.freeNamesNone w y hy hp r
    · intro i p hp hst
      obtain ⟨y, y1, y2, y3⟩ := h.liveNamed i p hp hst
      have : p.owner ≠ v := by
        intro e
        rw [e, hxv] at y1
        cases y1
        rw [hfreev] at y2
        cases y2
      exact ⟨y, by rw [hs1o _ this]; exact y1, y2, y3⟩
  have hfs : freeSlots s1 = freeSlots s := rfl
  have hnd : allT.Nodup := by decide
  obtain ⟨a1, a2, a3, q, a4, a5, a6, a7⟩ := allocate_spec F timbre ctx key vel v allT hnd s1 hinv x0 hs1v rfl
    (by intro t _; simp [hx0, newVoice]) (by rw [playable_count, hfs, ← freePartials_eq]; exact hfree)
  have ht : t = allT.foldl (allocatePartial F timbre ctx key vel v) s1 := by
    simp only [t, allocateNote, hv]; rfl
  rw [← ht] at a1 a2 a3 a4 a7
  rw [playable_count, hfs] at a3
  rw [hfs] at a7
  have hrank := fun r hr => a7 _ r (playable_rank timbre r hr)
  have hmem : ∀ r : Fin 4, r ∈ allT := by decide
  have hso := allocateNote_slotsOnly F part key vel timbre ctx s
  refine ⟨v, q, hv, ?_, ?_, a3, a4, fun r hr => a6 r (hmem r) hr, hrank⟩
  · refine ⟨by rw [hso.2.2]; exact h.atLeastFour, by rw [hso.2.2]; exact h.atMost255, a1.voicesMatch, ?_,
      a1.namesLive, a1.freeNamesNone, a1.liveNamed⟩
    intro w y hy hp
    by_cases hw : w = v
    · subst hw
      rw [a4] at hy
      cases hy
      rw [← playable_count] at hpos
      obtain ⟨r, hr⟩ := List.exists_mem_of_length_pos hpos
      obtain ⟨i, -, hi, -⟩ := hrank r (List.mem_filter.mp hr).2
      exact ⟨r, i, hi⟩
    · rw [a2 w hw, hs1o w hw] at hy
      exact h.namesSome w y hy hp
  · intro u hu
    rw [a2 u hu, hs1o u hu]

end Sys2Proof.Machine
end

