-- ==== Sys2Proof/Laws/Bookkeep.lean ====
section
/-! SUPPORT. A frame's steps and its bookkeeping, slot by slot (44_mixer_render.md R281, R284 to R286). -/

namespace Sys2Proof.Machine

/-- A step keeps a partial's owner and index, and starts nothing (42_partial.md R190, R206). -/
theorem steppedPartial_shape (F : OpenFns) (s : State) (p : Partial) :
    (steppedPartial F s p).owner = p.owner ∧ (steppedPartial F s p).tIdx = p.tIdx ∧
    (p.st = .inactive → (steppedPartial F s p).st = .inactive) := by
  refine ⟨rfl, rfl, fun h => ?_⟩
  simp [steppedPartial, h, attackNext, silenceNext]

/-- `t` has the voices of `s`, and its slots are those of `s` after some ended: same owner, same index, none started. -/
structure Stepped (s t : State) : Prop where
  voices : t.voices = s.voices
  length : t.partials.length = s.partials.length
  slots : ∀ (i : Nat) (p : Partial), s.partials[i]? = some p → ∃ q : Partial, t.partials[i]? = some q ∧
    q.owner = p.owner ∧ q.tIdx = p.tIdx ∧ (p.st = .inactive → q.st = .inactive)

theorem Stepped.refl (s : State) : Stepped s s := ⟨rfl, rfl, fun _ p h => ⟨p, h, rfl, rfl, id⟩⟩

theorem Stepped.trans {s t u : State} (h1 : Stepped s t) (h2 : Stepped t u) : Stepped s u := by
  refine ⟨h2.voices.trans h1.voices, h2.length.trans h1.length, ?_⟩
  intro i p hp
  obtain ⟨q, a, b, c, d⟩ := h1.slots i p hp
  obtain ⟨r, a', b', c', d'⟩ := h2.slots i q a
  exact ⟨r, a', b'.trans b, c'.trans c, fun e => d' (d e)⟩

theorem Stepped.foldl {α : Type} (f : State → α → State) (hf : ∀ s a, Stepped s (f s a)) (l : List α) (s : State) :
    Stepped s (l.foldl f s) := by
  induction l generalizing s with
  | nil => exact .refl s
  | cons a l ih => exact (hf s a).trans (ih _)

theorem stepNamed_stepped (F : OpenFns) (s : State) (i : Option Nat) : Stepped s (stepNamed F s i) := by
  unfold stepNamed
  split
  · split
    · refine ⟨rfl, by simp [stepPartial], ?_⟩
      intro j p hp
      rw [stepPartial, modPartial_get, hp]
      simp only [Option.map_some, Option.some.injEq, exists_eq_left']
      split
      · exact steppedPartial_shape F s p
      · exact ⟨rfl, rfl, id⟩
    · exact .refl s
  · exact .refl s

/-- All the steps of a frame (R281 step 2). -/
theorem stepPartials_stepped (F : OpenFns) (s : State) : Stepped s (stepPartials F s) := by
  refine Stepped.foldl _ (fun s v => ?_) _ _
  unfold stepVoice
  split
  · split
    · exact Stepped.foldl _ (stepNamed_stepped F) _ _
    · exact .refl s
  · exact .refl s

/-- The slots a voice names, in ascending `t`. -/
def namedSlots (x : Voice) : List Nat := x.partials.toList.filterMap id

/-- The step of one voice's partials, as a fold over the slots it names (R207). -/
theorem stepVoice_eq (F : OpenFns) (s : State) (v : Nat) (x : Voice) (hx : s.voices[v]? = some x) :
    stepVoice F s v = if x.playing then (namedSlots x).foldl (fun s i => stepNamed F s (some i)) s else s := by
  have key : ∀ (l : List (Option Nat)) (s : State),
      l.foldl (stepNamed F) s = (l.filterMap id).foldl (fun s i => stepNamed F s (some i)) s := by
    intro l
    induction l with
    | nil => intro s; rfl
    | cons a l ih =>
      intro s
      cases a <;> rw [List.foldl_cons, ih] <;> rfl
  simp only [stepVoice, hx]
  split
  · exact key _ _
  · rfl

/-- The step of every partial, as one fold over the slots the playing voices name, voices ascending (R207). -/
theorem stepPartials_eq (F : OpenFns) (s : State) :
    stepPartials F s =
      ((s.voices.filter (·.playing)).flatMap namedSlots).foldl (fun s i => stepNamed F s (some i)) s := by
  have voices : ∀ (l : List Nat) (s : State), (l.foldl (fun s i => stepNamed F s (some i)) s).voices = s.voices := by
    intro l
    induction l with
    | nil => intro s; rfl
    | cons i l ih =>
      intro s
      rw [List.foldl_cons, ih]
      simp only [stepNamed]
      split <;> rfl
  have main : ∀ k, k ≤ s.voices.length → (List.range k).foldl (stepVoice F) s =
      (((s.voices.take k).filter (·.playing)).flatMap namedSlots).foldl (fun s i => stepNamed F s (some i)) s := by
    intro k
    induction k with
    | zero => intro _; rfl
    | succ k ih =>
      intro hk
      have hx : s.voices[k]? = some s.voices[k] := List.getElem?_eq_getElem (by omega)
      rw [List.range_succ, List.foldl_append, ih (by omega), List.foldl_cons, List.foldl_nil,
        stepVoice_eq F _ k s.voices[k] (by rw [voices]; exact hx), List.take_add_one, hx]
      simp only [Option.toList, List.filter_append, List.flatMap_append, List.foldl_append]
      by_cases hp : s.voices[k].playing = true <;> simp [hp]
  have := main s.voices.length le_rfl
  rwa [List.take_length] at this

/-- Voice `v` after the bookkeeping. -/
theorem bookkeep_voice (s : State) (v : Nat) :
    (bookkeep s).voices[v]? = s.voices[v]?.map fun x => ageVoice (freeVoice (clearVoice s x)) := by
  simp [bookkeep]

/-- The bookkeeping leaves a free voice alone. -/
theorem bookkeep_free (s : State) (x : Voice) (h : x.playing = false) :
    ageVoice (freeVoice (clearVoice s x)) = x := by
  simp [clearVoice, freeVoice, ageVoice, h]

/-- The names that are left once the ended partials are cleared (R284). -/
theorem clearVoice_get (s : State) (x : Voice) (hp : x.playing = true) (t : Fin 4) (i : Nat) :
    (clearVoice s x).partials.get t = some i ↔ x.partials.get t = some i ∧ s.partialSt i ≠ .inactive := by
  simp only [clearVoice, hp, if_true, quad_get_map]
  cases x.partials.get t with
  | none => simp
  | some k =>
    simp only
    split
    · rename_i h
      simp only [reduceCtorEq, Option.some.injEq, false_iff]
      rintro ⟨rfl, e⟩
      exact e h
    · rename_i h
      simp only [Option.some.injEq]
      exact ⟨by rintro rfl; exact ⟨rfl, h⟩, fun e => e.1⟩

/-- A playing voice after the bookkeeping: freed where all its partials ended, else cleared of the ended ones and one
frame older (R284, R285, R286). -/
theorem bookkeep_playing (s : State) (x : Voice) (hp : x.playing = true) :
    (ageVoice (freeVoice (clearVoice s x)) = Voice.reset ∧
      ∀ (t : Fin 4) (i : Nat), x.partials.get t = some i → s.partialSt i = .inactive) ∨
    (ageVoice (freeVoice (clearVoice s x)) =
        { x with partials := (clearVoice s x).partials, age := satU32 (x.age.toNat + 1) } ∧
      ∃ (t : Fin 4) (i : Nat), (clearVoice s x).partials.get t = some i) := by
  have hcp : (clearVoice s x).playing = true := by simp [clearVoice, hp]
  by_cases he : (clearVoice s x).partials = Quad.const none
  · left
    have hf : freeVoice (clearVoice s x) = Voice.reset := by
      unfold freeVoice
      rw [if_pos]
      rw [he]
      simp [hcp]
    rw [hf]
    refine ⟨rfl, fun t i hi => ?_⟩
    by_contra hne
    have h := (clearVoice_get s x hp t i).2 ⟨hi, hne⟩
    rw [he] at h
    simp at h
  · right
    have hf : freeVoice (clearVoice s x) = clearVoice s x := by
      unfold freeVoice
      rw [if_neg]
      simp [he]
    rw [hf]
    refine ⟨by simp [ageVoice, clearVoice, hp], ?_⟩
    by_contra hno
    push Not at hno
    apply he
    apply quad_ext
    intro t
    cases h : (clearVoice s x).partials.get t with
    | none => simp
    | some i => exact absurd h (hno t i)

end Sys2Proof.Machine
end

