-- ==== Sys2Proof/Laws/Layout.lean ====
section
/-! SUPPORT. The layout of the parameter memory: address decode and legality. -/

namespace Sys2Proof.Machine

theorem recordAddr_patchTemp (n : Nat) : recordAddr .patchTemp n = 16 * n := Nat.zero_add _
theorem recordAddr_rhythmTemp (n : Nat) : recordAddr .rhythmTemp n = 0x0080 + 4 * n := rfl
theorem recordAddr_timbreTemp (n : Nat) : recordAddr .timbreTemp n = 0x0180 + 246 * n := rfl
theorem recordAddr_patches (n : Nat) : recordAddr .patches n = 0x0930 + 8 * n := rfl
theorem recordAddr_timbres (n : Nat) : recordAddr .timbres n = 0x0D30 + 246 * n := rfl

/-- Every byte of every record lies in the memory (20_memory.md R72). -/
theorem recordAddr_inside (r : Region) (n off : Nat) (hn : n < recordCount r) (ho : off < recordSize r) :
    recordAddr r n + off < Config.memSize := by
  cases r <;> simp only [recordCount, recordSize] at hn ho <;>
    simp only [recordAddr, regionBase, recordSize, Config.memSize] <;> omega

/-- An address in a region's range is of that region (R72). -/
theorem regionOf_range (r : Region) (a : Nat) (hlo : regionBase r ≤ a)
    (hhi : a < regionBase r + recordSize r * recordCount r) : regionOf a = r := by
  cases r <;> simp only [regionBase, recordSize, recordCount] at hlo hhi <;> unfold regionOf <;>
    split_ifs <;> first | rfl | omega

/-- Every byte of a record is of its region (R72). -/
theorem regionOf_record (r : Region) (n off : Nat) (hn : n < recordCount r) (ho : off < recordSize r) :
    regionOf (recordAddr r n + off) = r := by
  have hmul : recordSize r * n + off < recordSize r * recordCount r := by
    have := Nat.mul_le_mul_left (recordSize r) (Nat.succ_le_of_lt hn)
    rw [Nat.mul_succ] at this
    omega
  apply regionOf_range <;> simp only [recordAddr] <;> omega

/-- The address of byte `off` of record `n` of a region decodes to that region, record and offset (R73). -/
theorem decodeAddr_record (r : Region) (n off : Nat) (hn : n < recordCount r) (ho : off < recordSize r) :
    decodeAddr (recordAddr r n + off) = some (r, n, off) := by
  have hsub : recordAddr r n + off - regionBase r = off + recordSize r * n := by simp only [recordAddr]; omega
  have hpos : 0 < recordSize r := by omega
  rw [decodeAddr, if_pos (recordAddr_inside r n off hn ho), regionOf_record r n off hn ho]
  simp only [hsub, Nat.add_mul_div_left _ _ hpos, Nat.div_eq_of_lt ho, Nat.zero_add, Nat.add_mul_mod_self_left,
    Nat.mod_eq_of_lt ho]

/-- Every address of the memory is a byte of one record of one region (R72, R73). -/
theorem decodeAddr_inside (a : Nat) (h : a < Config.memSize) :
    ∃ r n off, n < recordCount r ∧ off < recordSize r ∧ recordAddr r n + off = a := by
  simp only [Config.memSize] at h
  by_cases h1 : a < 0x80
  · exact ⟨.patchTemp, a / 16, a % 16, by simp only [recordCount]; omega, by simp only [recordSize]; omega,
      by simp only [recordAddr, regionBase, recordSize]; omega⟩
  by_cases h2 : a < 0x180
  · exact ⟨.rhythmTemp, (a - 0x80) / 4, (a - 0x80) % 4, by simp only [recordCount]; omega,
      by simp only [recordSize]; omega, by simp only [recordAddr, regionBase, recordSize]; omega⟩
  by_cases h3 : a < 0x930
  · exact ⟨.timbreTemp, (a - 0x180) / 246, (a - 0x180) % 246, by simp only [recordCount]; omega,
      by simp only [recordSize]; omega, by simp only [recordAddr, regionBase, recordSize]; omega⟩
  by_cases h4 : a < 0xD30
  · exact ⟨.patches, (a - 0x930) / 8, (a - 0x930) % 8, by simp only [recordCount]; omega,
      by simp only [recordSize]; omega, by simp only [recordAddr, regionBase, recordSize]; omega⟩
  by_cases h5 : a < 0x10330
  · exact ⟨.timbres, (a - 0xD30) / 246, (a - 0xD30) % 246, by simp only [recordCount]; omega,
      by simp only [recordSize]; omega, by simp only [recordAddr, regionBase, recordSize]; omega⟩
  · exact ⟨.system, 0, a - 0x10330, by simp [recordCount], by simp only [recordSize]; omega,
      by simp only [recordAddr, regionBase, recordSize]; omega⟩

/-- The legality of byte `off` of record `n` of a region (R82). -/
theorem legal_record (r : Region) (n off : Nat) (b : Byte) (hn : n < recordCount r) (ho : off < recordSize r) :
    legal (recordAddr r n + off) b = decide (b.toNat ≤ fieldMax r off) := by
  simp [legal, decodeAddr_record r n off hn ho]

/-- No byte is legal outside the memory (R91). -/
theorem legal_outside (a : Nat) (b : Byte) (h : Config.memSize ≤ a) : legal a b = false := by
  have : ¬a < Config.memSize := by omega
  simp [legal, decodeAddr, this]

/-- The byte 0 is legal at every address of the memory: every legal range starts at 0. -/
theorem legal_zero (a : Nat) (h : a < Config.memSize) : legal a 0 = true := by
  simp [legal, decodeAddr, h]

/-- Every byte of a legal block is legal at its own address. -/
theorem allLegal_iff (bytes : List Byte) (addr : Nat) :
    allLegal addr bytes = true ↔ ∀ k, k < bytes.length → legal (addr + k) (bytes.getD k 0) = true := by
  induction bytes generalizing addr with
  | nil => simp [allLegal]
  | cons b bs ih =>
    simp only [allLegal, Bool.and_eq_true, ih]
    constructor
    · rintro ⟨h1, h2⟩ k hk
      cases k with
      | zero => simpa using h1
      | succ k =>
        have := h2 k (by simpa using hk)
        rw [List.getD_cons_succ, show addr + (k + 1) = addr + 1 + k by omega]
        exact this
    · intro h
      refine ⟨by simpa using h 0 (by simp), fun k hk => ?_⟩
      have := h (k + 1) (by simpa using hk)
      rwa [List.getD_cons_succ, show addr + (k + 1) = addr + 1 + k by omega] at this

/-- A block of zeros inside the memory is legal. -/
theorem allLegal_zero (addr n : Nat) (h : addr + n ≤ Config.memSize) : allLegal addr (List.replicate n 0) = true := by
  rw [allLegal_iff]
  intro k hk
  rw [List.length_replicate] at hk
  have e : (List.replicate n (0 : Byte)).getD k 0 = 0 := by
    rw [List.getD_eq_getElem?_getD, List.getElem?_replicate]
    simp [hk]
  rw [e]
  exact legal_zero _ (by omega)

/-- The first eight fields of a PatchTemp are those of a PatchParam (R75). -/
theorem fieldMax_patch (off : Nat) (h : off < 8) : fieldMax .patchTemp off = fieldMax .patches off := by
  interval_cases off <;> rfl

/-- TIMBRE_TEMP and TIMBRES records have one layout (R79). -/
theorem fieldMax_timbre (off : Nat) : fieldMax .timbreTemp off = fieldMax .timbres off := rfl

end Sys2Proof.Machine
end

