-- ==== Sys2Proof/Laws/Memory.lean ====
section
/-! SUPPORT. The parameter memory: read after write, and every memory operation keeps the canonical form. -/

namespace Sys2Proof.Machine

/-- The canonical form of a non-empty memory: a non-zero first byte below every further address. -/
theorem wf_cons (c : Host.Cell) (m : Memory) :
    Memory.wf (c :: m) = true ↔ c.2 ≠ 0#8 ∧ (∀ d ∈ m, c.1 < d.1) ∧ Memory.wf m = true := by
  induction m generalizing c with
  | nil => simp [Memory.wf]
  | cons d m ih =>
    have hd := ih d
    simp only [Memory.wf, Bool.and_eq_true, bne_iff_ne, decide_eq_true_eq]
    constructor
    · rintro ⟨⟨h1, h2⟩, h3⟩
      refine ⟨h1, ?_, h3⟩
      intro e he
      obtain rfl | he := List.mem_cons.mp he
      · exact h2
      · exact lt_trans h2 ((hd.mp h3).2.1 e he)
    · rintro ⟨h1, h2, h3⟩
      exact ⟨⟨h1, h2 d (by simp)⟩, h3⟩

/-- An address below every listed one reads as 0. -/
theorem read_below (m : Memory) (a : Nat) (h : ∀ d ∈ m, a < d.1) : Memory.read m a = 0#8 := by
  induction m with
  | nil => rfl
  | cons c m ih =>
    have hc := h c (by simp)
    have : c.1 ≠ a := by omega
    simp only [Memory.read, if_neg this]
    exact ih fun d hd => h d (by simp [hd])

/-- A write lists no address but the written one and those listed before. -/
theorem mem_write (m : Memory) (a : Nat) (b : Byte) (d : Host.Cell) (h : d ∈ Memory.write m a b) :
    d.1 = a ∨ d ∈ m := by
  induction m with
  | nil =>
    simp only [Memory.write] at h
    split at h
    · simp at h
    · simp only [List.mem_singleton] at h; exact .inl (by rw [h])
  | cons c m ih =>
    simp only [Memory.write] at h
    split at h
    · split at h
      · exact .inr h
      · obtain rfl | h := List.mem_cons.mp h
        · exact .inl rfl
        · exact .inr h
    · split at h
      · split at h
        · exact .inr (by simp [h])
        · obtain rfl | h := List.mem_cons.mp h
          · exact .inl rfl
          · exact .inr (by simp [h])
      · obtain rfl | h := List.mem_cons.mp h
        · exact .inr (by simp)
        · exact (ih h).imp id fun h => by simp [h]

/-- A write keeps the canonical form. -/
theorem wf_write (m : Memory) (a : Nat) (b : Byte) (h : Memory.wf m = true) :
    Memory.wf (Memory.write m a b) = true := by
  induction m with
  | nil =>
    simp only [Memory.write]
    split
    · rfl
    · next hb => simp [Memory.wf, hb]
  | cons c m ih =>
    obtain ⟨h1, h2, h3⟩ := (wf_cons c m).mp h
    simp only [Memory.write]
    split
    · next hlt =>
      split
      · exact h
      · next hb =>
        refine (wf_cons _ _).mpr ⟨hb, ?_, h⟩
        intro d hd
        obtain rfl | hd := List.mem_cons.mp hd
        · exact hlt
        · exact lt_trans hlt (h2 d hd)
    · next hge =>
      split
      · next heq =>
        split
        · exact h3
        · next hb => exact (wf_cons _ _).mpr ⟨hb, fun d hd => heq ▸ h2 d hd, h3⟩
      · next hne =>
        refine (wf_cons _ _).mpr ⟨h1, ?_, ih h3⟩
        intro d hd
        obtain hd | hd := mem_write m a b d hd
        · omega
        · exact h2 d hd

/-- Reading after a write: the written byte at its address, every other address as before. -/
theorem read_write (m : Memory) (a x : Nat) (b : Byte) (h : Memory.wf m = true) :
    Memory.read (Memory.write m a b) x = if x = a then b else Memory.read m x := by
  induction m with
  | nil =>
    by_cases hb : b = 0#8 <;> by_cases hx : x = a <;> simp [Memory.write, Memory.read, hb, hx]
    intro hax; exact absurd hax.symm hx
  | cons c m ih =>
    obtain ⟨h1, h2, h3⟩ := (wf_cons c m).mp h
    simp only [Memory.write]
    split
    · next hlt =>
      by_cases hx : x = a
      · subst hx
        by_cases hb : b = 0#8
        · rw [if_pos hb, if_pos rfl, hb]
          refine read_below _ _ ?_
          intro d hd
          obtain rfl | hd := List.mem_cons.mp hd
          · exact hlt
          · exact lt_trans hlt (h2 d hd)
        · simp [hb, Memory.read]
      · by_cases hb : b = 0#8
        · simp [hb, hx]
        · have : a ≠ x := fun h => hx h.symm
          simp [hb, hx, Memory.read, this]
    · next hge =>
      split
      · next heq =>
        by_cases hx : x = a
        · subst hx
          by_cases hb : b = 0#8
          · rw [if_pos hb, if_pos rfl, hb]
            exact read_below _ _ fun d hd => heq ▸ h2 d hd
          · simp [hb, Memory.read]
        · have hax : a ≠ x := fun h => hx h.symm
          have hcx : c.1 ≠ x := heq ▸ hax
          by_cases hb : b = 0#8 <;> simp [hb, hx, Memory.read, hax, hcx]
      · next hne =>
        simp only [Memory.read, ih h3]
        by_cases hcx : c.1 = x
        · have : x ≠ a := by omega
          simp [hcx, this]
        · simp [hcx]

/-- A block write keeps the canonical form. -/
theorem wf_writeBlock (bytes : List Byte) (m : Memory) (addr : Nat) (h : Memory.wf m = true) :
    Memory.wf (Memory.writeBlock m addr bytes) = true := by
  induction bytes generalizing m addr with
  | nil => exact h
  | cons b bs ih => exact ih _ _ (wf_write m addr b h)

/-- A block write lists no address but those it writes and those listed before. -/
theorem mem_writeBlock (bytes : List Byte) (m : Memory) (addr : Nat) (d : Host.Cell)
    (h : d ∈ Memory.writeBlock m addr bytes) : (addr ≤ d.1 ∧ d.1 < addr + bytes.length) ∨ d ∈ m := by
  induction bytes generalizing m addr with
  | nil => exact .inr h
  | cons b bs ih =>
    simp only [List.length_cons]
    obtain h | h := ih _ _ h
    · exact .inl (by omega)
    · obtain h | h := mem_write m addr b d h
      · exact .inl (by omega)
      · exact .inr h

/-- Reading after a block write: byte `k` of the block at `addr + k`, every other address as before. -/
theorem read_writeBlock (bytes : List Byte) (m : Memory) (addr x : Nat) (h : Memory.wf m = true) :
    Memory.read (Memory.writeBlock m addr bytes) x =
      if addr ≤ x ∧ x < addr + bytes.length then bytes.getD (x - addr) 0 else Memory.read m x := by
  induction bytes generalizing m addr with
  | nil =>
    have : ¬(addr ≤ x ∧ x < addr) := by omega
    simp [Memory.writeBlock, this]
  | cons b bs ih =>
    rw [Memory.writeBlock, ih _ _ (wf_write m addr b h), read_write m addr x b h]
    by_cases hx : x = addr
    · subst hx
      have h1 : ¬(x + 1 ≤ x ∧ x < x + 1 + bs.length) := by omega
      simp
    · by_cases hr : addr + 1 ≤ x ∧ x < addr + 1 + bs.length
      · have h2 : addr ≤ x ∧ x < addr + (b :: bs).length := by simp only [List.length_cons]; omega
        have h3 : x - addr = (x - (addr + 1)) + 1 := by omega
        rw [if_pos hr, if_pos h2, h3, List.getD_cons_succ]
      · have h2 : ¬(addr ≤ x ∧ x < addr + (b :: bs).length) := by simp only [List.length_cons]; omega
        rw [if_neg hr, if_neg h2, if_neg hx]

@[simp] theorem length_readBlock (m : Memory) (addr n : Nat) : (Memory.readBlock m addr n).length = n := by
  simp [Memory.readBlock]

/-- Byte `k` of a block read is the byte at `addr + k`. -/
theorem getD_readBlock (m : Memory) (addr n k : Nat) (h : k < n) :
    (Memory.readBlock m addr n).getD k 0 = Memory.read m (addr + k) := by
  simp [Memory.readBlock, List.getD_eq_getElem?_getD, h]

/-- The memory of an image lists addresses of the image only. -/
theorem mem_ofImage (img : List Byte) (addr : Nat) (d : Host.Cell) (h : d ∈ Memory.ofImage addr img) :
    addr ≤ d.1 ∧ d.1 < addr + img.length := by
  induction img generalizing addr with
  | nil => simp [Memory.ofImage] at h
  | cons b bs ih =>
    simp only [List.length_cons]
    simp only [Memory.ofImage] at h
    split at h
    · have := ih _ h; omega
    · obtain rfl | h := List.mem_cons.mp h
      · simp
      · have := ih _ h; omega

/-- The memory of an image has the canonical form. -/
theorem wf_ofImage (img : List Byte) (addr : Nat) : Memory.wf (Memory.ofImage addr img) = true := by
  induction img generalizing addr with
  | nil => rfl
  | cons b bs ih =>
    simp only [Memory.ofImage]
    split
    · exact ih _
    · next hb =>
      refine (wf_cons _ _).mpr ⟨hb, ?_, ih _⟩
      intro d hd
      have := mem_ofImage bs (addr + 1) d hd
      show addr < d.1
      omega

/-- The memory of an image reads as the image, and as 0 outside it. -/
theorem read_ofImage (img : List Byte) (addr x : Nat) :
    Memory.read (Memory.ofImage addr img) x =
      if addr ≤ x ∧ x < addr + img.length then img.getD (x - addr) 0 else 0 := by
  induction img generalizing addr with
  | nil => simp [Memory.ofImage, Memory.read]
  | cons b bs ih =>
    by_cases hx : x = addr
    · subst hx
      by_cases hb : b = 0#8
      · have : ¬(x + 1 ≤ x ∧ x < x + 1 + bs.length) := by omega
        simp [Memory.ofImage, hb, ih]
      · simp [Memory.ofImage, hb, Memory.read]
    · have hax : addr ≠ x := fun h => hx h.symm
      have step : Memory.read (Memory.ofImage addr (b :: bs)) x = Memory.read (Memory.ofImage (addr + 1) bs) x := by
        by_cases hb : b = 0#8 <;> simp [Memory.ofImage, hb, Memory.read, hax]
      rw [step, ih]
      by_cases hr : addr + 1 ≤ x ∧ x < addr + 1 + bs.length
      · have h2 : addr ≤ x ∧ x < addr + (b :: bs).length := by simp only [List.length_cons]; omega
        have h3 : x - addr = (x - (addr + 1)) + 1 := by omega
        rw [if_pos hr, if_pos h2, h3, List.getD_cons_succ]
      · have h2 : ¬(addr ≤ x ∧ x < addr + (b :: bs).length) := by simp only [List.length_cons]; omega
        rw [if_neg hr, if_neg h2]

/-- Equal memories are equal data: canonical memories that read alike are the same list. -/
theorem wf_ext (m k : Memory) (hm : Memory.wf m = true) (hk : Memory.wf k = true)
    (h : ∀ a, Memory.read m a = Memory.read k a) : m = k := by
  induction m generalizing k with
  | nil =>
    cases k with
    | nil => rfl
    | cons d k =>
      have hd := h d.1
      simp only [Memory.read, if_true] at hd
      exact absurd hd.symm ((wf_cons d k).mp hk).1
  | cons c m ih =>
    obtain ⟨c1, c2, c3⟩ := (wf_cons c m).mp hm
    cases k with
    | nil =>
      have hc := h c.1
      simp only [Memory.read, if_true] at hc
      exact absurd hc c1
    | cons d k =>
      obtain ⟨d1, d2, d3⟩ := (wf_cons d k).mp hk
      have hcd : c.1 = d.1 := by
        by_contra hne
        rcases Nat.lt_or_gt_of_ne hne with hlt | hlt
        · have hc := h c.1
          rw [read_below (d :: k) c.1 (by
            intro e he
            obtain rfl | he := List.mem_cons.mp he
            · exact hlt
            · exact lt_trans hlt (d2 e he))] at hc
          simp only [Memory.read, if_true] at hc
          exact c1 hc
        · have hc := h d.1
          rw [read_below (c :: m) d.1 (by
            intro e he
            obtain rfl | he := List.mem_cons.mp he
            · exact hlt
            · exact lt_trans hlt (c2 e he))] at hc
          simp only [Memory.read, if_true] at hc
          exact d1 hc.symm
      have hb : c.2 = d.2 := by
        have hc := h c.1
        simp only [Memory.read, if_true, hcd] at hc
        exact hc
      have hcell : c = d := Prod.ext hcd hb
      subst hcell
      rw [ih k c3 d3 ?_]
      intro a
      by_cases ha : a ≤ c.1
      · rw [read_below m a fun e he => lt_of_le_of_lt ha (c2 e he),
          read_below k a fun e he => lt_of_le_of_lt ha (d2 e he)]
      · have hca : c.1 ≠ a := by omega
        have := h a
        simpa only [Memory.read, if_neg hca] using this

/-- The all-zero image lists nothing. -/
theorem ofImage_zero (n addr : Nat) : Memory.ofImage addr (List.replicate n 0#8) = [] := by
  induction n generalizing addr with
  | zero => rfl
  | succ n ih =>
    rw [List.replicate_succ, Memory.ofImage, if_pos rfl]
    exact ih _

end Sys2Proof.Machine
end

