-- ==== Sys2Proof/Laws/Commands.lean ====
section
/-! SUPPORT. The copies of PROGRAM_CHANGE, byte by byte. -/

namespace Sys2Proof.Machine

theorem byteAt_readBlock (m : Memory) (a n k : Nat) (h : k < n) :
    byteAt (Memory.readBlock m a n) k = Memory.read m (a + k) := getD_readBlock _ _ _ _ h

/-- The timbre index a patch record selects (20_memory.md R84). -/
theorem timbreIndex_patches (m : Memory) (n : Nat) :
    timbreIndex (Memory.readBlock m (recordAddr .patches n) 8) =
      64 * (Memory.read m (0x0930 + 8 * n)).toNat + (Memory.read m (0x0930 + 8 * n + 1)).toNat := by
  unfold timbreIndex
  rw [byteAt_readBlock _ _ _ _ (by decide), byteAt_readBlock _ _ _ _ (by decide), recordAddr_patches]
  rfl

/-- What the two copies leave at every address; the timbre copied is the one the patch selects (R253). -/
theorem read_loadPatch (m : Memory) (p n ti : Nat) (hwf : Memory.wf m = true) (hp : p ≤ 7)
    (hti : ti = 64 * (Memory.read m (0x0930 + 8 * n)).toNat + (Memory.read m (0x0930 + 8 * n + 1)).toNat) (a : Nat) :
    Memory.read (loadPatch m p n) a =
      if 0x0180 + 246 * p ≤ a ∧ a < 0x0180 + 246 * p + 246 then
        Memory.read m (0x0D30 + 246 * ti + (a - (0x0180 + 246 * p)))
      else if 16 * p ≤ a ∧ a < 16 * p + 8 then Memory.read m (0x0930 + 8 * n + (a - 16 * p))
      else Memory.read m a := by
  have hw1 := wf_writeBlock (Memory.readBlock m (0x0930 + 8 * n) 8) m (16 * p) hwf
  simp only [loadPatch]
  rw [timbreIndex_patches, ← hti, recordAddr_timbreTemp, recordAddr_patchTemp, recordAddr_patches, recordAddr_timbres]
  rw [read_writeBlock _ _ _ _ hw1, length_readBlock]
  by_cases c1 : 0x0180 + 246 * p ≤ a ∧ a < 0x0180 + 246 * p + 246
  · rw [if_pos c1, if_pos c1, getD_readBlock _ _ _ _ (by omega), read_writeBlock _ _ _ _ hwf, if_neg]
    rw [length_readBlock]
    omega
  · rw [if_neg c1, if_neg c1, read_writeBlock _ _ _ _ hwf, length_readBlock]
    by_cases c2 : 16 * p ≤ a ∧ a < 16 * p + 8
    · rw [if_pos c2, if_pos c2, getD_readBlock _ _ _ _ (by omega)]
    · rw [if_neg c2, if_neg c2]

theorem wf_loadPatch (m : Memory) (p n : Nat) (hwf : Memory.wf m = true) : Memory.wf (loadPatch m p n) = true :=
  wf_writeBlock _ _ _ (wf_writeBlock _ _ _ hwf)

/-- The copies list no address outside the memory. -/
theorem mem_loadPatch (m : Memory) (p n : Nat) (hp : p ≤ 7) (hm : ∀ c ∈ m, c.1 < Config.memSize) (d : Host.Cell)
    (h : d ∈ loadPatch m p n) : d.1 < Config.memSize := by
  simp only [loadPatch] at h
  rw [recordAddr_timbreTemp, recordAddr_patchTemp] at h
  simp only [Config.memSize] at *
  rcases mem_writeBlock _ _ _ _ h with h | h
  · rw [length_readBlock] at h; omega
  · rcases mem_writeBlock _ _ _ _ h with h | h
    · rw [length_readBlock] at h; omega
    · exact hm _ h

end Sys2Proof.Machine
end

