-- ==== Sys2Proof/Laws/Encoding.lean ====
section
/-! SUPPORT. Words as numbers: what a field of a word reads, what a concatenation of fields is worth, and the words each
format of 30_encoding.md R112 and R117 writes. -/

namespace Sys2Proof

/-- A field of a word is its quotient and remainder. -/
theorem field_toNat (w : Word) (lo len : Nat) : (field w lo len).toNat = w.toNat / 2 ^ lo % 2 ^ len := by
  simp [field, BitVec.extractLsb'_toNat, Nat.shiftRight_eq_div_pow]

/-- A concatenation is worth its high part shifted above its low part. -/
theorem append_toNat {a b : Nat} (x : BitVec a) (y : BitVec b) : (x ++ y).toNat = x.toNat * 2 ^ b + y.toNat := by
  rw [BitVec.toNat_append, Nat.shiftLeft_eq, ← Nat.shiftLeft_eq, Nat.shiftLeft_add_eq_or_of_lt y.isLt]

theorem noteOn_word (part : BitVec 4) (key vel : Byte) (rsv : BitVec 8) :
    (0x1#4 ++ part ++ key ++ vel ++ rsv : Word).toNat =
      (((1 * 2 ^ 4 + part.toNat) * 2 ^ 8 + key.toNat) * 2 ^ 8 + vel.toNat) * 2 ^ 8 + rsv.toNat := by
  refine (append_toNat _ _).trans ?_
  rw [append_toNat, append_toNat, append_toNat]
  rfl

theorem key_word (op part : BitVec 4) (key : Byte) (rsv : BitVec 16) :
    (op ++ part ++ key ++ rsv : Word).toNat =
      ((op.toNat * 2 ^ 4 + part.toNat) * 2 ^ 8 + key.toNat) * 2 ^ 16 + rsv.toNat := by
  refine (append_toNat _ _).trans ?_
  rw [append_toNat, append_toNat]

theorem sustain_word (part : BitVec 4) (rsv : BitVec 23) (on : BitVec 1) :
    (0x3#4 ++ part ++ rsv ++ on : Word).toNat =
      ((3 * 2 ^ 4 + part.toNat) * 2 ^ 23 + rsv.toNat) * 2 ^ 1 + on.toNat := by
  refine (append_toNat _ _).trans ?_
  rw [append_toNat, append_toNat]
  rfl

theorem header_word (op x : BitVec 4) (body : BitVec 24) :
    (op ++ x ++ body : Word).toNat = (op.toNat * 2 ^ 4 + x.toNat) * 2 ^ 24 + body.toNat := by
  refine (append_toNat _ _).trans ?_
  rw [append_toNat]

theorem status_word (rsv : BitVec 27) (clear : BitVec 1) :
    (0x9#4 ++ rsv ++ clear : Word).toNat = (9 * 2 ^ 27 + rsv.toNat) * 2 ^ 1 + clear.toNat := by
  refine (append_toNat _ _).trans ?_
  rw [append_toNat]
  rfl

theorem length_word (rsv n : BitVec 16) : (rsv ++ n : Word).toNat = rsv.toNat * 2 ^ 16 + n.toNat := append_toNat _ _

/-! ## Bytes of words (20_memory.md R86, 30_encoding.md R118) -/

/-- Byte `r` of a word made of four bytes. -/
theorem wordOfBytes_byte (b0 b1 b2 b3 : Byte) (r : Nat) (hr : r < 4) :
    (wordOfBytes b0 b1 b2 b3).extractLsb' (8 * r) 8 = [b0, b1, b2, b3].getD r 0 := by
  apply BitVec.eq_of_toNat_eq
  have h : (wordOfBytes b0 b1 b2 b3).toNat =
      ((b3.toNat * 2 ^ 8 + b2.toNat) * 2 ^ 8 + b1.toNat) * 2 ^ 8 + b0.toNat := by
    unfold wordOfBytes
    refine (append_toNat _ _).trans ?_
    rw [append_toNat, append_toNat]
  have h2 := field_toNat (wordOfBytes b0 b1 b2 b3) (8 * r) 8
  unfold field at h2
  rw [h2, h]
  have := b0.isLt
  have := b1.isLt
  have := b2.isLt
  have := b3.isLt
  interval_cases r <;> simp <;> omega

@[simp] theorem packBytes_length (b : List Byte) : (packBytes b).length = (b.length + 3) / 4 := by simp [packBytes]

/-- Byte `k` of packed bytes is byte `k`, or 0 past the last (R118). -/
theorem packBytes_byte (b : List Byte) (k : Nat) (hk : k < 4 * ((b.length + 3) / 4)) :
    ((packBytes b).getD (k / 4) 0).extractLsb' (8 * (k % 4)) 8 = b.getD k 0 := by
  have hq : k / 4 < (b.length + 3) / 4 := by omega
  unfold packBytes
  rw [List.getD_eq_getElem?_getD, List.getElem?_map, List.getElem?_range hq]
  simp only [Option.map_some, Option.getD_some]
  rw [wordOfBytes_byte _ _ _ _ _ (by omega)]
  have h4 : k % 4 < 4 := by omega
  have hk' : k = 4 * (k / 4) + k % 4 := by omega
  generalize k % 4 = r at *
  generalize k / 4 = q at *
  subst hk'
  interval_cases r <;> rfl

/-- Two words with equal bytes are equal. -/
theorem word_ext (v w : Word) (h : ∀ r, r < 4 → field v (8 * r) 8 = field w (8 * r) 8) : v = w := by
  apply BitVec.eq_of_toNat_eq
  have k0 := congrArg BitVec.toNat (h 0 (by decide))
  have k1 := congrArg BitVec.toNat (h 1 (by decide))
  have k2 := congrArg BitVec.toNat (h 2 (by decide))
  have k3 := congrArg BitVec.toNat (h 3 (by decide))
  rw [field_toNat, field_toNat] at k0 k1 k2 k3
  have := v.isLt
  have := w.isLt
  omega

end Sys2Proof
end

