-- ==== Sys2Proof/Laws/Partials.lean ====
section
/-! SUPPORT. What a command can do to a partial slot: release it, kill it, start it or step it. A property of slots that
these four keep is kept by every operation. -/

namespace Sys2Proof.Machine

/-- Every partial slot has a property. -/
def AllPartials (P : Partial → Prop) (s : State) : Prop := ∀ p ∈ s.partials, P p

theorem modPartial_keeps {P : Partial → Prop} (s : State) (i : Nat) (f : Partial → Partial)
    (hf : ∀ p, s.partials[i]? = some p → P p → P (f p)) (h : AllPartials P s) : AllPartials P (s.modPartial i f) := by
  intro p hp
  obtain ⟨j, hj⟩ := List.getElem?_of_mem hp
  rw [modPartial_get] at hj
  cases hq : s.partials[j]? with
  | none => rw [hq] at hj; simp at hj
  | some q =>
    have hm := h q (List.mem_of_getElem? hq)
    rw [hq] at hj
    simp only [Option.map_some, Option.some.injEq] at hj
    subst hj
    split
    · rename_i hij; subst hij; exact hf q hq hm
    · exact hm

theorem modNamed_keeps {P : Partial → Prop} (s : State) (q : Quad (Option Nat)) (f : Partial → Partial)
    (hf : ∀ p, P p → P (f p)) (h : AllPartials P s) : AllPartials P (modNamed s q f) := by
  unfold modNamed
  generalize q.toList = l
  induction l generalizing s with
  | nil => exact h
  | cons i l ih =>
    refine ih _ ?_
    cases i with
    | none => exact h
    | some i => exact modPartial_keeps s i f (fun p _ => hf p) h

theorem releaseVoice_keeps {P : Partial → Prop} (hrel : ∀ p, P p → P (releasePartial p)) (s : State) (v : Nat)
    (h : AllPartials P s) : AllPartials P (releaseVoice s v) := by
  unfold releaseVoice
  split
  · exact modNamed_keeps _ _ _ hrel h
  · exact h

theorem killVoice_keeps {P : Partial → Prop} (hkill : ∀ p, P p → P (killPartial p)) (s : State) (v : Nat)
    (h : AllPartials P s) : AllPartials P (killVoice s v) := by
  unfold killVoice
  split
  · exact modNamed_keeps s _ _ hkill h
  · exact h

theorem stealVoices_keeps {P : Partial → Prop} (hkill : ∀ p, P p → P (killPartial p)) (n fuel : Nat) (s : State)
    (h : AllPartials P s) : AllPartials P (stealVoices n fuel s) := by
  induction fuel generalizing s with
  | zero => exact h
  | succ fuel ih =>
    unfold stealVoices
    split
    · split
      · exact ih _ (killVoice_keeps hkill s _ h)
      · exact h
    · exact h

theorem monoRelease_keeps {P : Partial → Prop} (hrel : ∀ p, P p → P (releasePartial p)) (s : State) (p : Nat)
    (h : AllPartials P s) : AllPartials P (monoRelease s p) := by
  unfold monoRelease
  split
  · exact releaseVoice_keeps hrel s _ h
  · exact h

theorem releaseAll_keeps {P : Partial → Prop} (hrel : ∀ p, P p → P (releasePartial p)) (s : State) (m : Voice → Bool)
    (h : AllPartials P s) : AllPartials P (releaseAll s m) := by
  intro p hp
  obtain ⟨j, hj⟩ := List.getElem?_of_mem hp
  simp only [releaseAll, List.getElem?_mapIdx] at hj
  cases hq : s.partials[j]? with
  | none => rw [hq] at hj; simp at hj
  | some q =>
    have hm := h q (List.mem_of_getElem? hq)
    rw [hq] at hj
    simp only [Option.map_some, Option.some.injEq] at hj
    subst hj
    split
    · exact hrel q hm
    · exact hm

theorem releaseWhere_keeps {P : Partial → Prop} (hrel : ∀ p, P p → P (releasePartial p)) (s : State)
    (m : Voice → Bool) (h : AllPartials P s) : AllPartials P (releaseWhere s m) := by
  rw [releaseWhere_eq]; exact releaseAll_keeps hrel s m h

/-- A note keeps what release, kill and the start of a fresh slot keep (R250). -/
theorem strike_keeps {P : Partial → Prop} (hrel : ∀ p, P p → P (releasePartial p)) (hkill : ∀ p, P p → P (killPartial p))
    (F : OpenFns) (s : State)
    (hstart : ∀ (timbre : List Byte) (ctx : PatchContext) (key vel mt : Byte) (v t : Nat) (q : Fin 4) (c : PatchCache),
      buildCache F s.sr s.pcm mt timbre t ctx key vel = some c → P (startedPartial v q c))
    (p : BitVec 4) (key vel : Byte) (h : AllPartials P s) : AllPartials P (strike F p key vel s) := by
  have alloc : ∀ (timbre : List Byte) (ctx : PatchContext) (v : Nat) (l : List (Fin 4)) (u : State),
      u.sr = s.sr → u.pcm = s.pcm → AllPartials P u →
      AllPartials P (l.foldl (allocatePartial F timbre ctx key vel v) u) := by
    intro timbre ctx v l
    induction l with
    | nil => intro u _ _ hu; exact hu
    | cons t l ih =>
      intro u h1 h2 hu
      have ho := allocatePartial_slotsOnly F timbre ctx key vel v u t
      refine ih _ (by rw [ho.1]; exact h1) (by rw [ho.1]; exact h2) ?_
      unfold allocatePartial
      split
      · rename_i c i hc _
        rw [h1, h2] at hc
        exact modPartial_keeps u i _ (fun _ _ _ => hstart _ _ _ _ _ v _ t c hc) hu
      · exact hu
  have note : ∀ (timbre : List Byte) (ctx : PatchContext) (u : State), u.sr = s.sr → u.pcm = s.pcm → AllPartials P u →
      AllPartials P (allocateNote F p key vel timbre ctx u) := by
    intro timbre ctx u h1 h2 hu
    unfold allocateNote
    split
    · exact alloc _ _ _ _ _ h1 h2 hu
    · exact hu
  unfold strike
  split
  · exact h
  · simp only
    split
    · exact h
    · have steal : ∀ timbre ctx n u, SlotsOnly s u → AllPartials P u →
          AllPartials P (allocateNote F p key vel timbre ctx (stealVoices n u.partials.length u)) := by
        intro timbre ctx n u hu hk
        have e := hu.trans (stealVoices_slotsOnly n u.partials.length u)
        exact note _ _ _ (by rw [e.1]) (by rw [e.1]) (stealVoices_keeps hkill _ _ _ hk)
      split
      · exact steal _ _ _ _ (monoRelease_slotsOnly s _) (monoRelease_keeps hrel _ _ h)
      · exact steal _ _ _ _ (.refl s) h

/-- A frame keeps what a partial's step keeps (R281). -/
theorem frameStep_keeps {P : Partial → Prop} (F : OpenFns) (s : State)
    (hstep : ∀ u p, u.sr = s.sr → u.rom = s.rom → u.pcm = s.pcm → P p → P (steppedPartial F u p))
    (h : AllPartials P s) : AllPartials P (frameStep F s) := by
  have fold : ∀ {α : Type} (f : State → α → State), (∀ u a, SlotsOnly u (f u a)) →
      (∀ u a, u.sr = s.sr → u.rom = s.rom → u.pcm = s.pcm → AllPartials P u → AllPartials P (f u a)) →
      ∀ (l : List α) (u : State), u.sr = s.sr → u.rom = s.rom → u.pcm = s.pcm → AllPartials P u →
        AllPartials P (l.foldl f u) := by
    intro α f hs hk l
    induction l with
    | nil => intro u _ _ _ hu; exact hu
    | cons a l ih =>
      intro u h1 h2 h3 hu
      have ho := hs u a
      exact ih _ (by rw [ho.1]; exact h1) (by rw [ho.1]; exact h2) (by rw [ho.1]; exact h3) (hk u a h1 h2 h3 hu)
  have named : ∀ u (i : Option Nat), u.sr = s.sr → u.rom = s.rom → u.pcm = s.pcm → AllPartials P u →
      AllPartials P (stepNamed F u i) := by
    intro u i h1 h2 h3 hu
    unfold stepNamed
    split
    · split
      · exact modPartial_keeps u _ _ (fun p _ hp => hstep u p h1 h2 h3 hp) hu
      · exact hu
    · exact hu
  have voice : ∀ u (v : Nat), u.sr = s.sr → u.rom = s.rom → u.pcm = s.pcm → AllPartials P u →
      AllPartials P (stepVoice F u v) := by
    intro u v h1 h2 h3 hu
    unfold stepVoice
    split
    · split
      · exact fold _ (stepNamed_slotsOnly F) named _ u h1 h2 h3 hu
      · exact hu
    · exact hu
  have all : ∀ u, u.sr = s.sr → u.rom = s.rom → u.pcm = s.pcm → AllPartials P u → AllPartials P (stepPartials F u) :=
    fun u h1 h2 h3 hu => fold _ (stepVoice_slotsOnly F) voice _ u h1 h2 h3 hu
  have : AllPartials P (stepPartials F (if s.reverbDirty then reverbRecompute F s else s)) := by
    split
    · exact all _ rfl rfl rfl h
    · exact all _ rfl rfl rfl h
  exact this

theorem frames_keep {P : Partial → Prop} (F : OpenFns) (n : Nat) (s : State)
    (hstep : ∀ u p, u.sr = s.sr → u.rom = s.rom → u.pcm = s.pcm → P p → P (steppedPartial F u p))
    (h : AllPartials P s) : AllPartials P (frames F n s) := by
  induction n generalizing s with
  | zero => exact h
  | succ n ih =>
    have hr := (frameStep_frameOnly F s).rest
    refine ih (frameStep F s) ?_ (frameStep_keeps F s hstep h)
    intro u p h1 h2 h3
    exact hstep u p (by rw [h1, hr]) (by rw [h2, hr]) (by rw [h3, hr])

end Sys2Proof.Machine
end

