-- ==== Sys2Proof/Laws/PerInstr.lean ====
section
/-! SUPPORT. Per-instruction laws of the syntax: the encoding of a well-formed command has the command's length
(30_encoding.md R113), one lemma per constructor. -/

namespace Sys2Proof.Laws.EncodesToItsLength

/-- A well-formed command is encoded in as many words as it occupies in the stream (R113). -/
def Statement (i : Instr) : Prop := i.wellFormed = true → (encode i).length = i.length

theorem noteOn (part : BitVec 4) (key vel : Byte) (rsv : BitVec 8) : Statement (.noteOn part key vel rsv) := fun _ => rfl

theorem noteOff (part : BitVec 4) (key : Byte) (rsv : BitVec 16) : Statement (.noteOff part key rsv) := fun _ => rfl

theorem sustain (part : BitVec 4) (rsv : BitVec 23) (on : BitVec 1) : Statement (.sustain part rsv on) := fun _ => rfl

theorem programChange (part : BitVec 4) (patch : Byte) (rsv : BitVec 16) : Statement (.programChange part patch rsv) :=
  fun _ => rfl

theorem allNotesOff (part : BitVec 4) (rsv : BitVec 24) : Statement (.allNotesOff part rsv) := fun _ => rfl

theorem blockWrite (rsv : BitVec 4) (addr : BitVec 24) (rsvLen n : BitVec 16) (data : List Word) :
    Statement (.blockWrite rsv addr rsvLen n data) := by
  intro h
  simp only [Instr.wellFormed, beq_iff_eq] at h
  simp only [encode, Instr.length, List.length_cons, h]
  omega

theorem blockRead (rsv : BitVec 4) (addr : BitVec 24) (rsvLen n : BitVec 16) :
    Statement (.blockRead rsv addr rsvLen n) := fun _ => rfl

theorem render (rsv : BitVec 4) (count : BitVec 24) : Statement (.render rsv count) := fun _ => rfl

theorem status (rsv : BitVec 27) (clear : BitVec 1) : Statement (.status rsv clear) := fun _ => rfl

theorem reserved0 (body : BitVec 28) : Statement (.reserved0 body) := fun _ => rfl

theorem reservedAB (body : BitVec 29) : Statement (.reservedAB body) := fun _ => rfl

theorem reservedCF (body : BitVec 30) : Statement (.reservedCF body) := fun _ => rfl

end Sys2Proof.Laws.EncodesToItsLength
end

