-- ==== Sys2Proof/Laws/Rejects.lean ====
section
/-! SUPPORT. Rejects: which code a list of checks gives, and what the data words of a block write say byte by byte. -/

namespace Sys2Proof.Machine

/-- Checks in ascending code order give the lowest of the codes whose check failed (R303). -/
theorem firstReject_lowest (checks : List (Bool × RejectCode))
    (ordered : checks.Pairwise fun x y => (rejectValue x.2).toNat < (rejectValue y.2).toNat) (c : RejectCode)
    (failed : (true, c) ∈ checks)
    (lowest : ∀ c', (true, c') ∈ checks → (rejectValue c).toNat ≤ (rejectValue c').toNat) :
    firstReject checks = some c := by
  induction checks with
  | nil => simp at failed
  | cons x rest ih =>
    obtain ⟨b, d⟩ := x
    obtain ⟨h1, h2⟩ := List.pairwise_cons.mp ordered
    cases b with
    | false =>
      have failed' : (true, c) ∈ rest := by simpa using failed
      simpa using ih h2 failed' fun c' hc' => lowest c' (List.mem_cons_of_mem _ hc')
    | true =>
      obtain heq | hmem := List.mem_cons.mp failed
      · injection heq with _ hc; subst hc; rfl
      · have := h1 _ hmem
        have := lowest d (by simp)
        simp only at *
        omega

/-- The reject code decides the reject cause: no two codes share a value (R301). -/
theorem rejectValue_injective (c d : RejectCode) (h : rejectValue c = rejectValue d) : c = d := by
  cases c <;> cases d <;> first | rfl | exact absurd h (by decide)

@[simp] theorem unpackBytes_length (data : List Word) (n : Nat) : (unpackBytes data n).length = n := by
  simp [unpackBytes]

/-- Byte `k` of the data of a block write (R118). -/
theorem unpackBytes_getD (data : List Word) (n k : Nat) (h : k < n) :
    (unpackBytes data n).getD k 0 = (data.getD (k / 4) 0).extractLsb' (8 * (k % 4)) 8 := by
  simp [unpackBytes, List.getD_eq_getElem?_getD, h, dataByte, field]

/-- The data of a block write is legal exactly when each byte is legal at its own address (R142). -/
theorem allLegal_unpackBytes (addr : Nat) (data : List Word) (n : Nat) :
    allLegal addr (unpackBytes data n) = true ↔
      ∀ k, k < n → legal (addr + k) ((data.getD (k / 4) 0).extractLsb' (8 * (k % 4)) 8) = true := by
  rw [allLegal_iff, unpackBytes_length]
  exact forall₂_congr fun k hk => by rw [unpackBytes_getD _ _ _ hk]

/-- A rejected command changes the status register and `cp` alone (R302). -/
theorem reject_eq (len : Nat) (c : RejectCode) (s : State) : reject len c s = rejectedState len c s := rfl

end Sys2Proof.Machine
end

