-- ==== Sys2Proof/Tests/Slice0.lean ====
section
/-! SUPPORT. Small tests: ill-formed terms, words written out bit by bit from the encodings of 30_encoding.md, one step of each
command against the vectors of 95_test_vectors.md, and a witness for the hypotheses of every statement that has some. -/

open Sys2Proof Sys2Proof.Machine

namespace Sys2Proof.Tests

/-! ## WellFormed: what the check refuses -/

/-- A BLOCK_WRITE of 5 bytes needs two data words (R113). -/
theorem test_wellFormed_too_few : (Instr.blockWrite 0 0 0 5 [0]).wellFormed = false := by decide

theorem test_wellFormed_too_many : (Instr.blockWrite 0 0 0 0 [0]).wellFormed = false := by decide

theorem test_wellFormed_exact : (Instr.blockWrite 0 0 0 5 [0, 0]).wellFormed = true := by decide

/-! ## Decode: words written from the formats of R112, field by field from bit 31 down -/

/-- OP 1, part 8, key 87, vel 127, eight reserved bits; a reserved bit set is decoded, not dropped. -/
theorem test_decode_noteOn :
    decode [0b0001_1000_01010111_01111111_00000000] = .ok (.noteOn 8 87 127 0, []) ∧
    decode [0b0001_0000_00111100_01100100_00000001] = .ok (.noteOn 0 60 100 1, []) := ⟨rfl, rfl⟩

/-- OP 2, part 8, key 87, sixteen reserved bits. -/
theorem test_decode_noteOff :
    decode [0b0010_1000_01010111_0000000100000000] = .ok (.noteOff 8 87 0x100, []) := rfl

/-- OP 3, part 8, bits 23:1 reserved, bit 0 the pedal. -/
theorem test_decode_sustain :
    decode [0b0011_1000_10000000000000000000001_1] = .ok (.sustain 8 0x400001 1, []) := rfl

/-- OP 4, part 7, patch 127, sixteen reserved bits. -/
theorem test_decode_programChange :
    decode [0b0100_0111_01111111_0000000000000001] = .ok (.programChange 7 127 1, []) := rfl

/-- OP 5, part 8, twenty-four reserved bits. -/
theorem test_decode_allNotesOff :
    decode [0b0101_1000_000000000000000100000000] = .ok (.allNotesOff 8 0x100, []) := rfl

/-- OP 6, four reserved bits, a 24-bit address; the length word: sixteen reserved bits, n; then the data (R117, R118). -/
theorem test_decode_blockWrite :
    decode [0b0110_0000_000000010000001100110001, 0b0000000000000000_0000000000000011, 0x00070401, 7] =
      .ok (.blockWrite 0 0x10331 0 3 [0x00070401], [7]) ∧
    decode [0b0110_0001_000000000000000000000000, 0b0000000000000001_0000000000000000] =
      .ok (.blockWrite 1 0 1 0 [], []) := ⟨rfl, rfl⟩

/-- A BLOCK_WRITE whose words have not all arrived decodes to nothing yet (R119). -/
theorem test_decode_incomplete :
    decode [0x60000000] = .error .incomplete ∧ decode [0x60000000, 5, 0] = .error .incomplete ∧
    decode [0x70000000] = .error .incomplete ∧ decode [] = .error .noWord := ⟨rfl, rfl, rfl, rfl⟩

/-- OP 7, four reserved bits, a 24-bit address; the length word. -/
theorem test_decode_blockRead :
    decode [0b0111_0000_000000000000100100110000, 0b1000000000000000_0000000000001000] =
      .ok (.blockRead 0 0x930 0x8000 8, []) := rfl

/-- OP 8, four reserved bits, a 24-bit frame count. -/
theorem test_decode_render :
    decode [0b1000_1000_111111111111111111111111] = .ok (.render 8 0xFFFFFF, []) := rfl

/-- OP 9, bits 27:1 reserved, bit 0 clear. -/
theorem test_decode_status :
    decode [0b1001_000000000000000000000000001_1] = .ok (.status 1 1, []) := rfl

/-- OP 0: reserved (R116). -/
theorem test_decode_reserved0 : decode [0b0000_0001001000110100010101100111] = .ok (.reserved0 0x1234567, []) := rfl

/-- OP 0xA and 0xB: reserved; bit 28 is the low opcode bit. -/
theorem test_decode_reservedAB :
    decode [0b101_00001001000110100010101100111] = .ok (.reservedAB 0x1234567, []) ∧
    decode [0b101_10001001000110100010101100111] = .ok (.reservedAB 0x11234567, []) := ⟨rfl, rfl⟩

/-- OP 0xC to 0xF: reserved. -/
theorem test_decode_reservedCF :
    decode [0b11_000001001000110100010101100111] = .ok (.reservedCF 0x1234567, []) ∧
    decode [0b11_110001001000110100010101100111] = .ok (.reservedCF 0x31234567, []) := ⟨rfl, rfl⟩

/-- The table's numbering: the length word of a BLOCK_WRITE is bits 63:32 (its data words then read as zeros). -/
theorem test_decodeTableWord :
    decodeTableWord 64 0x0000000560000000 = some (.blockWrite 0 0 0 5 [0, 0]) ∧
    decodeTableWord 32 0x103C6400 = some (.noteOn 0 60 100 0) := by decide

/-- The words of a step's first instruction after reset. -/
theorem test_fetch_after_reset : fetch (State.reset.withFetchWord 32 0x103C6400) = .ok (.noteOn 0 60 100 0) := rfl

/-! ## Helpers: instance X of 95_test_vectors.md section 0.2, and small states -/

/-- Instance X of the OPEN functions (95_test_vectors.md section 0.2). -/
def X : OpenFns where
  sine := fun _ => 0
  noteFreq := fun _ _ => 0
  pitchPeriod := fun _ _ => 0
  envTimeTable := fun _ _ => 0
  envLevelTable := fun _ _ => 0
  lfoRateTable := fun _ _ => 0
  lfoDepthTable := fun _ _ => 0
  veloAmp := fun _ _ _ => 0
  veloCutoff := fun _ _ _ => 0
  resInvGain := fun _ _ => 0
  filterCoeff := fun _ _ _ => 0
  filterGranularity := 0
  basePitch := fun _ _ => 0
  keyfollowPitch := fun _ _ => 0
  pw := fun _ _ _ _ => 0
  envTime := fun _ _ x => x.timeByte.toNat
  envLevel := fun _ _ x => x.levelByte.setWidth 32
  lfoPeriod := fun _ _ _ _ => 1
  lfoDepth := fun _ _ _ _ => 0
  pitch := fun _ _ c _ _ _ => if c.pcm then 65536 else 0x1000000
  synth := fun _ _ _ ph => if ph.toNat < 2 ^ 31 then 1000 else -1000
  tvf := fun _ _ _ _ s x => (x, s)
  tva := fun _ _ l y => BitVec.ofInt 16 (Int.tdiv (y.toInt * l.toInt) 100)
  gain := fun _ s _ _ => s.toInt
  panL := fun _ _ => 16384
  panR := fun _ _ => 16384
  reverbInit := fun _ mode time level _ => ⟨[mode.toNat, time.toNat, level.toNat]⟩
  reverbStep := fun _ _ rs _ => (0, 0, rs)
  rs0 := fun _ => ⟨[]⟩
  unstatedCount := fun _ => 0

/-- The memory of the setup S1 (95_test_vectors.md section 0.4). -/
def memS : Memory :=
  [(0x002, 24), (0x003, 50), (0x005, 2), (0x008, 100), (0x009, 7), (0x18C, 1), (0x1BF, 4), (0x1C0, 2), (0x1C2, 3),
    (0x1C3, 5), (0x1C4, 100), (0x1C5, 60), (0x1C6, 60), (0x1C7, 50)]

/-- A freshly constructed engine of four partials, with a given memory and a given stream. -/
def small (mem : Memory) (ws : List Word) : State :=
  { State.constructed ⟨[]⟩ 4 32000 resetRom resetPcm mem with stream := ws }

/-- The next state of a step, if there is one. -/
def nextOf : Host.Outcome State Fault Refusal → Option State
  | .next t => some t
  | .fault _ => none
  | .refused _ => none

/-- A cache of one partial of a pair. -/
def pairCache (mix : Fin 4) (pos : Fin 2) : PatchCache :=
  { blankCache with structPos := pos, partner := some (if pos = 0 then 1 else 0), mix := mix }

/-- Voice 0, struck on part 0 with key 60, naming partials 0 and 1. -/
def pairVoice : Voice :=
  { Voice.reset with playing := true, key := 60, velocity := 100, freq := 60, level := 100, pan := 7, age := 3
                     partials := ⟨some 0, some 1, none, none⟩ }

/-- An engine in which voice 0 plays a pair of a given mix type on partials 0 and 1. -/
def sounding (mix : Fin 4) (ws : List Word) : State :=
  { small memS ws with
    voices := [pairVoice, Voice.reset, Voice.reset, Voice.reset]
    partials := [startedPartial 0 0 (pairCache mix 0), startedPartial 0 1 (pairCache mix 1), Partial.reset, Partial.reset] }

/-! ## One step of each command (95_test_vectors.md) -/

/-- A1: the note's voice and partial. -/
theorem test_noteOn_starts :
    (nextOf (noteOnWith X 0 60 100 0 (small memS []))).map (fun t => (t.voices, t.partials.map (·.st))) =
      some ([{ Voice.reset with playing := true, key := 60, freq := 60, velocity := 100, level := 100, pan := 7,
                                sustain := true, partials := ⟨some 0, none, none, none⟩ },
          Voice.reset, Voice.reset, Voice.reset],
        [.attack, .inactive, .inactive, .inactive]) := by decide

/-- Section 2.5: rhythm key 23 is rejected RHYTHM_UNMAPPED. -/
theorem test_noteOn_rhythm_unmapped :
    (nextOf (exec (.noteOn 8 23 100 0) (small memS []))).map (fun t => (t.status, t.cp)) = some (⟨0x0A, 1⟩, 1) := by
  decide

/-- R251: without the pedal the voice decays and its partials release. -/
theorem test_noteOff_releases :
    (nextOf (exec (.noteOff 0 60 0) (sounding 0 []))).map (fun t =>
      (t.voices.map (fun x => (x.decay, x.pedalHeld)), t.partials.map (·.st))) =
      some ([(true, false), (false, false), (false, false), (false, false)],
        [.release, .release, .inactive, .inactive]) := by decide

/-- A13: no rhythm range check on NOTE_OFF. -/
theorem test_noteOff_low_rhythm_key :
    (nextOf (exec (.noteOff 8 10 0) (small memS []))).map (fun t => (t.status, t.cp)) = some (⟨0, 0⟩, 1) := by decide

theorem test_sustain_sets_pedal :
    (nextOf (exec (.sustain 2 0 1) (small [] []))).map (fun t => t.parts.map (·.pedal)) =
      some [false, false, true, false, false, false, false, false, false] := by decide

/-- R252: a pedal-up releases a pedal-held voice. -/
theorem test_sustain_up_releases :
    (nextOf (exec (.sustain 0 0 0) ((sounding 0 []).modVoice 0 fun x => { x with pedalHeld := true }))).map (fun t =>
      (t.voices.map (fun x => (x.decay, x.pedalHeld)), t.partials.map (·.st))) =
      some ([(true, false), (false, false), (false, false), (false, false)],
        [.release, .release, .inactive, .inactive]) := by decide

/-- A19: PROGRAM_CHANGE of part 3 to a patch that selects timbre 66. -/
theorem test_programChange_copies :
    (nextOf (exec (.programChange 3 5 0) (small [(0x958, 1), (0x959, 2), (0x95A, 24), (0x95D, 2), (0x4C9C, 7),
      (0x4D91, 9)] []))).map (fun t => t.mem) =
      some [(0x030, 1), (0x031, 2), (0x032, 24), (0x035, 2), (0x462, 7), (0x557, 9), (0x958, 1), (0x959, 2),
        (0x95A, 24), (0x95D, 2), (0x4C9C, 7), (0x4D91, 9)] := by decide +kernel

/-- Section 2.5: PROG part 8, patch 128 reports NO_PATCH_ON_RHYTHM, the lower code. -/
theorem test_programChange_rhythm :
    (nextOf (exec (.programChange 8 128 0) (small [] []))).map (·.status) = some ⟨0x04, 1⟩ := by decide

/-- R254: pedal-held voices are released too, and the pedal flag stays. -/
theorem test_allNotesOff_releases :
    (nextOf (exec (.allNotesOff 0 0) ((sounding 0 []).modVoice 0 fun x => { x with pedalHeld := true }))).map
      (fun t => (t.voices.map (fun x => (x.decay, x.pedalHeld)), t.partials.map (·.st))) =
      some ([(true, false), (false, false), (false, false), (false, false)],
        [.release, .release, .inactive, .inactive]) := by decide

/-- Section 2.2: `BWRITE 0x007F, [255, 94]` crosses a record boundary. -/
theorem test_blockWrite_crosses_records :
    (nextOf (exec (.blockWrite 0 0x7F 0 2 [0x00005EFF]) (small [] []))).map (fun t => (t.mem, t.cp, t.status)) =
      some ([(0x7F, 255), (0x80, 94)], 3, ⟨0, 0⟩) := by decide

/-- Section 2.2: an illegal byte rejects the whole block. -/
theorem test_blockWrite_illegal :
    (nextOf (exec (.blockWrite 0 0 0 8 [0x32180000, 0x0000040C]) (small [] []))).map
      (fun t => (t.mem, t.cp, t.status)) = some ([], 4, ⟨0x09, 1⟩) := by decide

/-- Section 2.2: `BREAD 0x10344, 3` pads the last word with 0. -/
theorem test_blockRead_pads :
    (nextOf (exec (.blockRead 0 0x10344 0 3) (small [(0x10346, 100)] []))).map (·.readQ) = some [0x00640000] := by
  decide

/-- Section 2.2: `BREAD 0x10347, 1` is rejected BAD_ADDRESS. -/
theorem test_blockRead_past_end :
    (nextOf (exec (.blockRead 0 0x10347 0 1) (small [] []))).map (fun t => (t.readQ, t.status)) =
      some ([], ⟨0x08, 1⟩) := by decide

/-- Section 3.3, frame 1: the slave of a pair of mix 1 is `ring(1000, 1000) = 30` and both are heard. Here both envelopes
are at level 100 and stay there. -/
def soundingX (mix : Fin 4) : State :=
  let hold (p : Partial) : Partial := { p with st := .sustainHold, aenv := ⟨.hold, 0, 100, 100⟩ }
  ((sounding mix []).modPartial 0 hold).modPartial 1 hold

theorem test_render_ring_pair :
    (nextOf (renderWith X 0 1 (soundingX 1))).map (fun t => (t.audioQ, t.rc, t.reverbDirty, t.cp)) =
      some ([⟨515, 515⟩], ⟨[0, 0, 0]⟩, false, 1) := by decide +kernel

/-- R204: with mix 2 the master is muted while its slave lives. -/
theorem test_render_muted_master :
    (nextOf (renderWith X 0 1 (soundingX 2))).map (fun t => (t.audioQ, t.voices.map (·.age))) =
      some ([⟨15, 15⟩], [4, 0, 0, 0]) := by decide +kernel

/-- Section 2.2: the count of live partials is live, and `clear` acts after the push. -/
theorem test_status_pushes :
    (nextOf (exec (.status 0 1) { sounding 0 [] with status := ⟨0x08, 2⟩ })).map (fun t => (t.readQ, t.status)) =
      some ([0x08020002], ⟨0, 0⟩) := by decide

theorem test_status_reserved_bit :
    (nextOf (exec (.status 1 0) (small [] []))).map (fun t => (t.readQ, t.status)) = some ([], ⟨0x02, 1⟩) := by decide

/-- Section 2.7: the reject count saturates. -/
theorem test_reserved_saturates :
    (nextOf (exec (.reserved0 0) { small [] [] with status := ⟨0x03, 0xFFFF⟩ })).map (·.status) =
      some ⟨0x01, 0xFFFF⟩ := by decide

/-! ## Vectors of shared operations -/

/-- R123: the rhythm record's address, at the first key and at one below it, which has no record. -/
theorem test_write_rhythm_address :
    expandPseudo (.writeRhythm 24 []) = .bwrite 0x80 [] ∧ expandPseudo (.writeRhythm 87 []) = .bwrite 0x17C [] ∧
    expandPseudo (.writeRhythm 23 []) = .bwrite 0x7C [] := by decide

/-- The ring table of section 2.4. -/
theorem test_ring :
    ring 1000 1000 = 30 ∧ ring 16384 16384 = 8192 ∧ ring 32767 32767 = 32766 ∧ ring (-32768) (-32768) = 32767 ∧
    ring (-32768) 32767 = -32767 ∧ ring (-1) 1 = -1 ∧ ring 1 1 = 0 := by decide

/-- R210's envelope (E1 of section 2.4): its levels for twelve steps. -/
theorem test_envelope :
    let D : EnvDef := ⟨0, [⟨100, 4⟩, ⟨60, 2⟩, ⟨60, 0⟩, ⟨50, 3⟩], ⟨0, 5⟩, true⟩
    (List.range 12).map (fun k => ((fun E => envStep X E D)^[k + 1] (envInit D)).level.toInt) =
      [25, 50, 75, 100, 80, 60, 60, 57, 54, 50, 50, 50] := by decide +kernel

/-- The bias vectors of section 2.3. -/
theorem test_bias :
    biasSide 0x45 14 7 = ⟨true, 38, 7⟩ ∧ biasSide 0 0 7 = ⟨false, 33, -7⟩ ∧ biasSide 127 12 12 = ⟨true, 96, 0⟩ := by
  decide

/-! ## Witnesses: a concrete state and operands that meet the hypotheses of each statement -/

theorem witness_DecodeOfEncode : (Instr.blockWrite 15 0xFFFFFF 0xFFFF 5 [1, 2]).wellFormed = true := by decide

theorem witness_EncodeOfDecode :
    decode [0x60000000, 5, 1, 2, 9] = .ok (.blockWrite 0 0 0 5 [1, 2], [9]) := rfl

theorem witness_OpcodeSelectsCommand :
    decode [0x90000001, 7] = .ok (.status 0 1, [7]) ∧ 16385 ≤ (List.replicate 16385 (0 : Word)).length :=
  ⟨rfl, Nat.le_of_eq List.length_replicate.symm⟩

/-- Each clause of the length: opcode 6 with no data and with a remainder, opcode 7, and another. -/
theorem witness_CommandLength :
    decode [0x60000000, 0] = .ok (.blockWrite 0 0 0 0 [], []) ∧
    decode [0x60000000, 5, 1, 2] = .ok (.blockWrite 0 0 0 5 [1, 2], []) ∧
    decode [0x70000000, 4] = .ok (.blockRead 0 0 0 4, []) ∧
    decode [0x80000000] = .ok (.render 0 0, []) := ⟨rfl, rfl, rfl, rfl⟩

theorem witness_StepRunsDecoded :
    decode ((small memS [0x90000000]).stream.drop (small memS [0x90000000]).cp) = .ok (.status 0 0, []) := rfl

theorem witness_CpAdvancesByLength : ∃ t, exec (.blockRead 0 0 0 4) (small memS []) = .next t := ⟨_, rfl⟩

/-- Both ways of being stuck, in each form, and a command that has arrived. -/
theorem witness_StuckOnlyWhileIncomplete :
    step (small [] []) = .fault .noCommand ∧
    step (small [] [0x60000000]) = .fault .incompleteCommand ∧
    step (small [] [0x60000000, 5, 0]) = .fault .incompleteCommand ∧
    step (small [] [0x70000000]) = .fault .incompleteCommand ∧
    goesOn (step (small [] [0x90000000])) := ⟨rfl, rfl, rfl, rfl, _, rfl⟩

/-- R303's example: part 9 with key 200 has two causes, and BAD_PART is the lower. -/
theorem witness_LowestCodeRejects :
    (Instr.noteOn 9 200 100 0).wellFormed = true ∧ hasCause (.noteOn 9 200 100 0) .badPart ∧
    hasCause (.noteOn 9 200 100 0) .badKey ∧
    ∀ c', hasCause (.noteOn 9 200 100 0) c' → (rejectValue .badPart).toNat ≤ (rejectValue c').toNat := by
  refine ⟨rfl, .inr (.inl ⟨rfl, by decide⟩), .inr (.inr (.inl ⟨rfl, by decide⟩)), fun c' h => ?_⟩
  rcases h with ⟨-, h⟩ | ⟨rfl, -⟩ | ⟨rfl, -⟩ | ⟨rfl, -⟩ | ⟨rfl, -⟩
  · exact absurd rfl h
  all_goals decide

theorem witness_AppliedCommandKeepsStatus :
    (Instr.noteOff 8 127 0).wellFormed = true ∧ (∀ c, ¬hasCause (.noteOff 8 127 0) c) ∧
    (∀ rsv, Instr.noteOff 8 127 0 ≠ .status rsv 1) ∧ ∃ t, exec (.noteOff 8 127 0) (small memS []) = .next t := by
  refine ⟨rfl, fun c h => ?_, fun rsv h => (nomatch h), _, rfl⟩
  rcases h with ⟨-, h⟩ | ⟨-, h⟩ | ⟨-, h⟩
  · exact h rfl
  · exact absurd h (by decide)
  · exact absurd h (by decide)

/-- The last byte of the memory, the first address beyond it, and the last record and offset of every region. -/
theorem witness_AddressDecode :
    0 < recordCount .system ∧ 22 < recordSize .system ∧ decodeAddr 0x10346 = some (.system, 0, 22) ∧
    decodeAddr 0x10347 = none ∧ (7 : Nat) < 8 ∧ (15 : Nat) < 16 ∧ (63 : Nat) < 64 ∧ (3 : Nat) < 4 ∧
    (245 : Nat) < 246 ∧ (127 : Nat) < 128 ∧ (255 : Nat) < 256 ∧ (22 : Nat) < 23 := by decide

/-- The legal ranges of section 2 of 20_memory.md at the last byte of a region and at the first: of PATCH_TEMP a pan of at
most 14, of RHYTHM_TEMP reverb 0 or 1, of a timbre's last TVA level at most 100, of PATCHES timbre group at most 3, of
SYSTEM a volume of at most 100. -/
theorem test_legal_boundaries :
    legal 0x79 14 = true ∧ legal 0x79 15 = false ∧ legal 0x17F 1 = true ∧ legal 0x17F 2 = false ∧
    legal 0x92F 100 = true ∧ legal 0x92F 101 = false ∧ legal 0x930 3 = true ∧ legal 0x930 4 = false ∧
    legal 0x1032F 100 = true ∧ legal 0x1032F 101 = false ∧ legal 0x10346 100 = true ∧ legal 0x10346 101 = false := by
  decide +kernel

/-- No byte at the end of the memory, the last byte, and a block with a partly used last word. -/
theorem witness_BlockWriteStores :
    Memory.wf memS = true ∧ ([] : List Word).length = ((0 : BitVec 16).toNat + 3) / 4 ∧
    (0x10347 : BitVec 24).toNat + (0 : BitVec 16).toNat ≤ 0x10347 ∧
    ([100] : List Word).length = ((1 : BitVec 16).toNat + 3) / 4 ∧
    (([100] : List Word).getD (((1 : BitVec 16).toNat + 3) / 4 - 1) 0) >>> (8 * ((1 : BitVec 16).toNat % 4)) = 0 ∧
    (0x10346 : BitVec 24).toNat + (1 : BitVec 16).toNat ≤ 0x10347 ∧
    (∀ k, k < (1 : BitVec 16).toNat →
      legal ((0x10346 : BitVec 24).toNat + k) ((([100] : List Word).getD (k / 4) 0).extractLsb' (8 * (k % 4)) 8) = true) ∧
    ([0x30303030, 0xFF] : List Word).length = ((5 : BitVec 16).toNat + 3) / 4 ∧
    (([0x30303030, 0xFF] : List Word).getD (((5 : BitVec 16).toNat + 3) / 4 - 1) 0) >>> (8 * ((5 : BitVec 16).toNat % 4)) = 0 ∧
    (∀ k, k < (5 : BitVec 16).toNat →
      legal ((0x180 : BitVec 24).toNat + k)
        ((([0x30303030, 0xFF] : List Word).getD (k / 4) 0).extractLsb' (8 * (k % 4)) 8) = true) := by
  decide

theorem witness_BlockReadPushes :
    (0x10346 : BitVec 24).toNat + (1 : BitVec 16).toNat ≤ 0x10347 ∧
    (0x10347 : BitVec 24).toNat + (0 : BitVec 16).toNat ≤ 0x10347 := by decide

/-- The round trip of section 1.4. -/
theorem witness_BlockRoundTrip :
    Memory.wf (small [] []).mem = true ∧
    (Instr.blockWrite 0 0x930 0 8 [0x32180502, 0x0001000C]).wellFormed = true ∧
    (∀ c, ¬hasCause (.blockWrite 0 0x930 0 8 [0x32180502, 0x0001000C]) c) ∧
    ∃ t, exec (.blockWrite 0 0x930 0 8 [0x32180502, 0x0001000C]) (small [] []) = .next t := by
  refine ⟨rfl, rfl, fun c h => ?_, _, rfl⟩
  rcases h with ⟨-, h | h | ⟨h, -⟩⟩ | ⟨-, h⟩ | ⟨-, k, hk, h⟩
  · exact h rfl
  · exact h rfl
  · exact h rfl
  · exact absurd h (by decide)
  · revert k; decide

theorem memInv_zero (s : State) (h : s.mem = []) : MemInv s := by
  refine ⟨by rw [h]; rfl, by rw [h]; simp, fun a ha => ?_⟩
  rw [h]
  exact legal_zero a ha

theorem witness_MemoryStaysLegal :
    MemInv (small [] [0x60010346, 1, 100]) ∧ ∃ t, step (small [] [0x60010346, 1, 100]) = .next t :=
  ⟨memInv_zero _ rfl, _, rfl⟩

/-- Timbre S's bytes as a note reads them. -/
def timbreS : List Byte := Memory.readBlock memS 0x180 246

theorem witness_CacheFields :
    timbreS.length = 246 ∧
    ∃ c, buildCache X 32000 resetPcm 0 timbreS 0 ⟨24, 50, 0, 2, false, 100, 7⟩ 60 100 = some c :=
  ⟨by simp [timbreS, Memory.readBlock], _, rfl⟩

theorem witness_OpenFunctionLaws :
    (⟨.tva, 0, 0, 0, 0, 0, 0⟩ : EnvLevelArgs).kind = .tva ∧ (0 : S32).toInt ≤ 0 ∧ (-1 : S32).toInt ≤ 0 ∧
    1 ≤ X.lfoPeriod (commonTables X 32000) (lfoTables X 32000) 0 32000 ∧
    0 ≤ (X.envLevel (commonTables X 32000) (envTables X 32000) ⟨.tva, 0, 0, 0, 0, 0, 0⟩).toInt ∧
    0 < (1 : S32).toInt ∧ (1 : S32) ≠ 0 := by decide

/-- A unit at the start of segments of duration 0, 1 and 2 (of which the first step falls short of the target). -/
theorem witness_EnvelopeSegmentShape :
    let E : EnvUnit := ⟨.atk 0, 0, 5, 5⟩
    let D (d : Nat) : EnvDef := ⟨5, [⟨100, d⟩], ⟨0, 0⟩, true⟩
    E.cnt = 0 ∧ envSegment E (D 0) = some ⟨100, 0⟩ ∧ envSegment E (D 1) = some ⟨100, 1⟩ ∧
    envSegment E (D 2) = some ⟨100, 2⟩ ∧ envSegment E (D (2 ^ 32)) = some ⟨100, 2 ^ 32⟩ ∧
    envSegment ⟨.rel, 0, 5, 5⟩ (D 0) = some ⟨0, 0⟩ := ⟨rfl, rfl, rfl, rfl, rfl, rfl⟩

/-- The phase after a segment: of two attack segments the first has a next one and the second is the last, with and
without the sustain (R192). -/
theorem witness_EnvelopeNextPhase :
    let D (sustain : Bool) : EnvDef := ⟨0, [⟨100, 1⟩, ⟨60, 1⟩], ⟨0, 1⟩, sustain⟩
    0 + 1 < (D true).atk.length ∧ 1 + 1 = (D true).atk.length ∧ (D true).sustain = true ∧
    1 + 1 = (D false).atk.length ∧ (D false).sustain = false := by decide

theorem witness_EnvelopeLevelBetween :
    (⟨.hold, 0, 1, 1⟩ : EnvUnit).phase = .hold ∧ (⟨.done, 0, 1, 1⟩ : EnvUnit).phase = .done ∧
    envSegment ⟨.rel, 0, 5, 5⟩ ⟨0, [], ⟨0, 5⟩, true⟩ = some ⟨0, 5⟩ := ⟨rfl, rfl, rfl⟩

/-- A partial in a given state with a given TVA unit and definition. -/
def tvaPartial (st : PartialState) (E : EnvUnit) (D : EnvDef) : Partial :=
  { Partial.reset with st := st, aenv := E, cache := { blankCache with aenvDef := D } }

/-- Every case of the transitions: after the step the unit of an attacking partial is in a segment, in HOLD, in its
release at level 50, or in its release at level 0; a releasing partial's unit is at level 80 or ends. -/
theorem witness_StepStateTransitions :
    (tvaPartial .attack ⟨.atk 0, 0, 0, 0⟩ ⟨0, [⟨9, 2⟩], ⟨0, 0⟩, true⟩).st = .attack ∧
    (∃ j, (envStep X ⟨.atk 0, 0, 0, 0⟩ ⟨0, [⟨9, 2⟩], ⟨0, 0⟩, true⟩).phase = .atk j) ∧
    (envStep X ⟨.atk 0, 0, 0, 0⟩ ⟨0, [⟨9, 1⟩], ⟨0, 0⟩, true⟩).phase = .hold ∧
    envStep X ⟨.atk 0, 0, 0, 0⟩ ⟨0, [⟨50, 1⟩], ⟨0, 0⟩, false⟩ = ⟨.rel, 0, 50, 50⟩ ∧
    envStep X ⟨.atk 0, 0, 0, 0⟩ ⟨0, [⟨0, 1⟩], ⟨0, 0⟩, false⟩ = ⟨.rel, 0, 0, 0⟩ ∧
    (envStep X ⟨.rel, 0, 100, 100⟩ ⟨0, [], ⟨0, 5⟩, true⟩).level.toInt = 80 ∧
    (envStep X ⟨.rel, 4, 100, 20⟩ ⟨0, [], ⟨0, 5⟩, true⟩).phase = .done := by
  refine ⟨rfl, ⟨0, rfl⟩, rfl, rfl, rfl, rfl, rfl⟩

theorem witness_OnlyNoteOnStartsPartials :
    (∀ part key vel rsv, Instr.noteOff 0 60 0 ≠ .noteOn part key vel rsv) ∧
    (∃ t, exec (.noteOff 0 60 0) (sounding 0 []) = .next t) ∧
    (sounding 0 []).partials[3]? = some Partial.reset ∧ Partial.reset.st = .inactive :=
  ⟨fun _ _ _ _ h => (nomatch h), ⟨_, rfl⟩, rfl, rfl⟩

theorem witness_ReleaseRequest :
    (startedPartial 0 0 blankCache).st = .attack ∧ Partial.reset.st = .inactive ∧
    (∃ j, (envInit blankEnvDef).phase = .atk j) ∧ EnvUnit.reset.phase = .done := ⟨rfl, rfl, ⟨0, rfl⟩, rfl⟩

/-- The last counter of a period, which wraps, and a period of 1. -/
theorem witness_LfoCounterInRange : (3 : U32).toNat < 4 ∧ (0 : U32).toNat < 1 ∧ (4 : Nat) ≤ 2 ^ 32 := by decide

/-- A looping and a one-shot wave of the four-sample ROM; a wave that has ended, a position whose advance stays inside,
and the last one. -/
theorem witness_PcmFetchInRange :
    ({ Partial.reset with pcmEnded := true } : Partial).pcmEnded = true ∧
    WaveInv resetRom.length ⟨[], 0, 4, true, 1, 0⟩ ∧ WaveInv resetRom.length ⟨[], 0, 4, false, 1, 0⟩ ∧
    Partial.reset.pcmEnded = false ∧ Partial.reset.pcmPos < 4 ∧
    (0 * 65536 + 0 + (65536 : U32).toNat) / 65536 < 4 ∧
    ({ Partial.reset with pcmPos := 3 } : Partial).pcmEnded = false ∧
    ({ Partial.reset with pcmPos := 3 } : Partial).pcmPos < 4 ∧ 4 ≤ (3 * 65536 + 0 + (65536 : U32).toNat) / 65536 :=
  ⟨rfl, ⟨by decide, by decide, by decide⟩, ⟨by decide, by decide, by decide⟩, rfl, by decide, by decide, rfl, by decide,
    by decide⟩

/-- A slot that plays wave 0. -/
def pcmState (ws : List Word) : State :=
  (sounding 0 ws).modPartial 0 fun p => { p with pcmPos := 3, cache := { p.cache with pcm := true } }

theorem resetPcm_get {k : Nat} {w : PcmWave} (h : resetPcm[k]? = some w) : w = ⟨[], 0, 4, true, 0, 0⟩ := by
  rw [resetPcm, List.getElem?_replicate] at h
  split at h
  · exact (Option.some.inj h).symm
  · exact absurd h (by simp)

theorem pcmInv_pcmState (ws : List Word) : PcmInv (pcmState ws) where
  tableSize := List.length_replicate
  waves := by
    intro w hw
    rw [List.eq_of_mem_replicate hw]
    exact ⟨Nat.le_add_left 1 3, Nat.le_refl 4, Nat.zero_lt_succ 3⟩
  position := by
    intro i p w hp hc hw _
    cases resetPcm_get hw
    rcases i with _ | _ | _ | _ | i
    · cases hp; decide
    · cases hp; decide
    · cases hp; decide
    · cases hp; decide
    · cases hp

theorem witness_PcmPositionsStayInside :
    PcmInv (pcmState [0x80000001]) ∧ ∃ t, step (pcmState [0x80000001]) = .next t := ⟨pcmInv_pcmState _, _, rfl⟩

theorem witness_RingProduct : ¬((-32768 : S16) = -32768 ∧ (32767 : S16) = -32768) := by decide

/-- The slave of a pair of mix 1 or 2, the master of one of mix 2, and the cases in which nothing is changed. -/
theorem witness_PairRules :
    partnerSlot (sounding 1 []) (startedPartial 0 1 (pairCache 1 1)) = some (startedPartial 0 0 (pairCache 1 0)) ∧
    (pairCache 1 1).mix = 1 ∧ (pairCache 1 1).structPos = 1 ∧
    partnerSlot (sounding 2 []) (startedPartial 0 1 (pairCache 2 1)) = some (startedPartial 0 0 (pairCache 2 0)) ∧
    (pairCache 2 1).mix = 2 ∧ (pairCache 2 1).structPos = 1 ∧
    partnerSlot (sounding 2 []) (startedPartial 0 0 (pairCache 2 0)) = some (startedPartial 0 1 (pairCache 2 1)) ∧
    (pairCache 2 0).mix = 2 ∧ (pairCache 2 0).structPos = 0 ∧
    partnerSlot (sounding 2 []) Partial.reset = none := by
  refine ⟨rfl, rfl, rfl, rfl, rfl, rfl, rfl, rfl, rfl, rfl⟩

/-- The clauses of the whole step: a bender that is on, with its voice and its part, and one that is off; a synthesized
partial, and a PCM one with its wave. -/
theorem witness_PairRules_step :
    ({ pairCache 1 1 with benderOn := true } : PatchCache).benderOn = true ∧ (pairCache 1 1).benderOn = false ∧
    (sounding 1 []).voices[(startedPartial 0 1 (pairCache 1 1)).owner]? = some pairVoice ∧
    (sounding 1 []).parts[pairVoice.part.toNat]? = some ⟨false, 0⟩ ∧ (pairCache 1 1).pcm = false ∧
    ({ pairCache 1 1 with pcm := true } : PatchCache).pcm = true ∧
    (pcmState []).pcm[({ pairCache 1 1 with pcm := true } : PatchCache).pcmWave.toNat]? =
      some ⟨[], 0, 4, true, 0, 0⟩ := ⟨rfl, rfl, rfl, rfl, rfl, rfl, rfl⟩

theorem voiceInv_sounding (mix : Fin 4) (ws : List Word) : VoiceInv (sounding mix ws) where
  atLeastFour := Nat.le_refl 4
  atMost255 := Nat.le_add_right 4 251
  voicesMatch := rfl
  namesSome := by
    intro v x hx hp
    rcases v with _ | _ | _ | _ | v
    · cases hx; exact ⟨0, 0, rfl⟩
    · cases hx; exact absurd hp (by decide)
    · cases hx; exact absurd hp (by decide)
    · cases hx; exact absurd hp (by decide)
    · cases hx
  namesLive := by
    intro v x hx hp t i ht
    rcases v with _ | _ | _ | _ | v
    · cases hx
      match t, ht with
      | 0, ht => cases ht; exact ⟨_, rfl, nofun, rfl, rfl⟩
      | 1, ht => cases ht; exact ⟨_, rfl, nofun, rfl, rfl⟩
      | 2, ht => cases ht
      | 3, ht => cases ht
    · cases hx; exact absurd hp (by decide)
    · cases hx; exact absurd hp (by decide)
    · cases hx; exact absurd hp (by decide)
    · cases hx
  freeNamesNone := by
    intro v x hx hp t
    rcases v with _ | _ | _ | _ | v
    · cases hx; exact absurd hp (by decide)
    · cases hx; revert t; decide
    · cases hx; revert t; decide
    · cases hx; revert t; decide
    · cases hx
  liveNamed := by
    intro i p hp hl
    rcases i with _ | _ | _ | _ | i
    · cases hp; exact ⟨_, rfl, rfl, rfl⟩
    · cases hp; exact ⟨_, rfl, rfl, rfl⟩
    · cases hp; exact absurd rfl hl
    · cases hp; exact absurd rfl hl
    · cases hp

theorem witness_PartnerOfSameVoice :
    VoiceInv (sounding 1 []) ∧ (sounding 1 []).partials[1]? = some (startedPartial 0 1 (pairCache 1 1)) ∧
    (startedPartial 0 1 (pairCache 1 1)).st ≠ .inactive ∧
    partnerSlot (sounding 1 []) (startedPartial 0 1 (pairCache 1 1)) = some (startedPartial 0 0 (pairCache 1 0)) :=
  ⟨voiceInv_sounding 1 [], rfl, nofun, rfl⟩

/-- The three clauses of a partner: a slot the voice names live, a cache without a partner, and a voice that names none
there or names an INACTIVE slot there. -/
theorem witness_PartnerOfSameVoice_when :
    (pairCache 1 1).partner = some 0 ∧ (sounding 1 []).voices[0]? = some pairVoice ∧
    pairVoice.partials.get 0 = some 0 ∧ (sounding 1 []).partials[0]? = some (startedPartial 0 0 (pairCache 1 0)) ∧
    (startedPartial 0 0 (pairCache 1 0)).st ≠ .inactive ∧ blankCache.partner = none ∧
    pairVoice.partials.get 2 = none ∧
    ((sounding 1 []).modPartial 0 killPartial).partials[0]?.map (·.st) = some .inactive :=
  ⟨rfl, rfl, rfl, rfl, nofun, rfl, rfl, rfl⟩

/-- An engine in which voice 0 plays four partials, the pairs 0 and 1, 2 and 3. -/
def quartet : State :=
  { sounding 1 [] with
    voices := [{ pairVoice with partials := ⟨some 0, some 1, some 2, some 3⟩ }, Voice.reset, Voice.reset, Voice.reset]
    partials := [startedPartial 0 0 (pairCache 1 0), startedPartial 0 1 (pairCache 1 1),
      startedPartial 0 2 (pairCache 1 0), startedPartial 0 3 (pairCache 1 1)] }

/-- The voice invariants, an order of four slots that names none twice, and in it the pairs 0 and 1, 2 and 3, a slot by
its place, and one that is not in the order. -/
theorem witness_MasterStepsFirst :
    VoiceInv (sounding 1 []) ∧
    (((quartet.voices.filter (·.playing)).flatMap fun x => x.partials.toList.filterMap id).filter fun i =>
      decide (quartet.partialSt i ≠ .inactive)) = [0, 1, 2, 3] ∧ [0, 1, 2, 3].Nodup ∧ 9 ∉ [0, 1, 2, 3] ∧
    quartet.voices[0]? = some { pairVoice with partials := ⟨some 0, some 1, some 2, some 3⟩ } ∧
    pairVoice.playing = true ∧ (⟨some 0, some 1, some 2, some 3⟩ : Quad (Option Nat)).get 2 = some 2 ∧
    (⟨some 0, some 1, some 2, some 3⟩ : Quad (Option Nat)).get 3 = some 3 ∧
    quartet.partials[2]? = some (startedPartial 0 2 (pairCache 1 0)) ∧
    (startedPartial 0 2 (pairCache 1 0)).st ≠ .inactive ∧
    quartet.partials[3]? = some (startedPartial 0 3 (pairCache 1 1)) ∧
    (startedPartial 0 3 (pairCache 1 1)).st ≠ .inactive :=
  ⟨voiceInv_sounding 1 [], by decide, by decide, by decide, rfl, rfl, rfl, rfl, rfl, nofun, rfl, nofun⟩

/-- The same for the pair 0 and 1 of a voice that names no other. -/
theorem witness_MasterStepsFirst_pair :
    (sounding 1 []).voices[0]? = some pairVoice ∧ pairVoice.partials.get 0 = some 0 ∧
    pairVoice.partials.get 1 = some 1 ∧
    (sounding 1 []).partials[0]? = some (startedPartial 0 0 (pairCache 1 0)) ∧
    (startedPartial 0 0 (pairCache 1 0)).st ≠ .inactive ∧
    (sounding 1 []).partials[1]? = some (startedPartial 0 1 (pairCache 1 1)) ∧
    (startedPartial 0 1 (pairCache 1 1)).st ≠ .inactive := ⟨rfl, rfl, rfl, rfl, nofun, rfl, nofun⟩

theorem witness_CountersStayInRange :
    (∀ p ∈ (small memS [0x80000001]).partials, CounterInv p) ∧ ∃ t, step (small memS [0x80000001]) = .next t := by
  refine ⟨fun p hp => ?_, _, rfl⟩
  rw [List.eq_of_mem_replicate hp]
  exact ⟨by decide, by decide, nofun, nofun, nofun⟩

/-- Parts 0 and 7, and the first and the last rhythm key; an entry that is OFF and one that is not. -/
theorem witness_ResolveReads :
    (0 : Nat) ≤ 7 ∧ (7 : Nat) ≤ 7 ∧ 24 ≤ (24 : Byte).toNat ∧ (24 : Byte).toNat ≤ 87 ∧ 24 ≤ (87 : Byte).toNat ∧
    (87 : Byte).toNat ≤ 87 ∧ Memory.read [(0x17C, 94)] (0x0080 + 4 * ((87 : Byte).toNat - 24)) = 94 ∧
    Memory.read [(0x17C, 94)] (0x0080 + 4 * ((24 : Byte).toNat - 24)) ≠ 94 := by decide

/-- A free engine of four partials, with the memory of S1. -/
theorem voiceInv_small (mem : Memory) (ws : List Word) : VoiceInv (small mem ws) where
  atLeastFour := by simp [small, State.constructed]
  atMost255 := (List.length_replicate (n := 4) (a := Partial.reset)).trans_le (by decide)
  voicesMatch := by simp [small, State.constructed]
  namesSome := by
    intro v x hx hp
    rw [List.eq_of_mem_replicate (List.mem_of_getElem? hx)] at hp
    cases hp
  namesLive := by
    intro v x hx hp
    rw [List.eq_of_mem_replicate (List.mem_of_getElem? hx)] at hp
    cases hp
  freeNamesNone := by
    intro v x hx _ t
    rw [List.eq_of_mem_replicate (List.mem_of_getElem? hx)]
    revert t; decide
  liveNamed := by
    intro i p hp hl
    rw [List.eq_of_mem_replicate (List.mem_of_getElem? hp)] at hl
    exact absurd rfl hl

/-- A melodic note of timbre S, and a note of the rhythm part's last key, whose entry selects a timbre of one partial
(TIMBRES[128], whose mask byte stands at 0x0D30 + 246*128 + 12). -/
theorem witness_NoteOnAlwaysStarts :
    VoiceInv (sounding 1 []) ∧ (0 : BitVec 4).toNat ≤ 8 ∧ (127 : Byte).toNat ≤ 127 ∧
    (∃ timbre ctx, resolve (sounding 1 []).mem (0 : BitVec 4).toNat 127 = some (timbre, ctx) ∧
      (∃ q : Fin 4, (timbre.getD 12 0).getLsbD q.val = true)) ∧
    VoiceInv (small [(0x883C, 1)] []) ∧ (8 : BitVec 4).toNat ≤ 8 ∧ 24 ≤ (87 : Byte).toNat ∧ (87 : Byte).toNat ≤ 87 ∧
    ∃ timbre ctx, resolve [(0x883C, 1)] (8 : BitVec 4).toNat 87 = some (timbre, ctx) ∧
      (∃ q : Fin 4, (timbre.getD 12 0).getLsbD q.val = true) :=
  ⟨voiceInv_sounding 1 [], by decide, by decide, ⟨_, _, rfl, by decide⟩, voiceInv_small _ [], by decide, by decide,
    by decide, _, _, rfl, by decide⟩

/-- The memory has no part in the voice invariants. -/
theorem voiceInv_withMem (s : State) (m : Memory) (h : VoiceInv s) : VoiceInv { s with mem := m } :=
  ⟨h.atLeastFour, h.atMost255, h.voicesMatch, h.namesSome, h.namesLive, h.freeNamesNone, h.liveNamed⟩

/-- A note of a part whose assign mode is 0, and one of four partials where two slots are free: the first releases a
voice and the second steals it. -/
theorem witness_NoteOnAlwaysStarts_mono_and_short :
    VoiceInv { sounding 1 [] with mem := [(0x18C, 1)] } ∧
    (∃ timbre ctx, resolve [(0x18C, 1)] (0 : BitVec 4).toNat 60 = some (timbre, ctx) ∧
      (∃ q : Fin 4, (timbre.getD 12 0).getLsbD q.val = true) ∧ ctx.assignMode.toNat < 2) ∧
    (monoRelease (sounding 1 []) 0).voices[0]? = some { pairVoice with decay := true } ∧
    VoiceInv { sounding 1 [] with mem := [(0x005, 2), (0x18C, 15)] } ∧
    (∃ timbre ctx, resolve [(0x005, 2), (0x18C, 15)] (0 : BitVec 4).toNat 60 = some (timbre, ctx) ∧
      ([0, 1, 2, 3].filter (timbre.getD 12 0).getLsbD).length = 4 ∧ ¬ctx.assignMode.toNat < 2) ∧
    (freeSlots (sounding 1 [])).length = 2 ∧ (stealVoices 4 4 (sounding 1 [])).voices[0]? = some Voice.reset :=
  ⟨voiceInv_withMem _ _ (voiceInv_sounding 1 []), ⟨_, _, rfl, by decide, by decide⟩, by decide,
    voiceInv_withMem _ _ (voiceInv_sounding 1 []), ⟨_, _, rfl, by decide, by decide⟩, by decide, by decide⟩

theorem witness_NoteOnTakesLowestSlots :
    VoiceInv (sounding 1 []) ∧ (0 : BitVec 4).toNat ≤ 8 ∧ (60 : Byte).toNat ≤ 127 ∧
    ∃ timbre ctx, resolve (sounding 1 []).mem (0 : BitVec 4).toNat 60 = some (timbre, ctx) ∧
      (∃ q : Fin 4, (timbre.getD 12 0).getLsbD q.val = true) ∧ ([0, 1, 2, 3].filter (timbre.getD 12 0).getLsbD).length ≤ (freeSlots (sounding 1 [])).length ∧
      2 ≤ ctx.assignMode.toNat :=
  ⟨voiceInv_sounding 1 [], by decide, by decide, _, _, rfl, by decide, by decide, by decide⟩

/-- A rhythm entry that is OFF, and a timbre with an empty mask. -/
theorem witness_NoteOnWithoutPartials :
    (∀ timbre ctx, resolve [(0x80, 94)] (8 : BitVec 4).toNat 24 = some (timbre, ctx) →
      ¬∃ q : Fin 4, (timbre.getD 12 0).getLsbD q.val = true) ∧
    ∀ timbre ctx, resolve [] (7 : BitVec 4).toNat 60 = some (timbre, ctx) → ¬∃ q : Fin 4, (timbre.getD 12 0).getLsbD q.val = true := by
  constructor
  · intro timbre ctx h; cases h
  · intro timbre ctx h; cases h; decide

theorem witness_NoteOnFrame : ∃ t, exec (.noteOn 0 60 100 0) (small memS []) = .next t := ⟨_, rfl⟩

/-- Three slots are wanted and two are free, so that voice 0 is taken and its slots with it. -/
theorem witness_StealingOldestFirst :
    VoiceInv (sounding 1 []) ∧ (3 : Nat) ≤ 4 ∧ (freeSlots (sounding 1 [])).length = 2 ∧
    (sounding 1 []).voices[0]? = some pairVoice ∧ pairVoice.playing = true ∧
    (stealVoices 3 4 (sounding 1 [])).voices[0]? = some Voice.reset := ⟨voiceInv_sounding 1 [], by decide, by decide, rfl,
      rfl, by decide⟩

/-- There voice 0 is the last voice taken, and the only one. -/
theorem witness_StealingOldestFirst_last :
    ∀ (w : Nat) (y : Voice), (sounding 1 []).voices[w]? = some y → y.playing = true →
      (stealVoices 3 4 (sounding 1 [])).voices[w]? = some Voice.reset →
      pairVoice.age.toNat ≤ y.age.toNat ∧ (pairVoice.age.toNat = y.age.toNat → w ≤ 0) := by
  intro w y hy hp _
  rcases w with _ | _ | _ | _ | w
  · cases hy; exact ⟨Nat.le_refl _, fun _ => Nat.le_refl _⟩
  · cases hy; exact absurd hp (by decide)
  · cases hy; exact absurd hp (by decide)
  · cases hy; exact absurd hp (by decide)
  · cases hy

/-- The oldest voice of part 0 is voice 0; part 1 has none. -/
theorem witness_MonoReleasesOldest :
    (∀ x ∈ (sounding 1 []).voices, ¬(x.playing = true ∧ x.part.toNat = 1 ∧ x.decay = false)) ∧
    (sounding 1 []).voices[0]? = some pairVoice ∧ pairVoice.playing = true ∧ pairVoice.part.toNat = 0 ∧
    pairVoice.decay = false ∧
    ∀ (w : Nat) (y : Voice), (sounding 1 []).voices[w]? = some y → y.playing = true → y.part.toNat = 0 →
      y.decay = false → y.age.toNat ≤ pairVoice.age.toNat ∧ (y.age.toNat = pairVoice.age.toNat → 0 ≤ w) := by
  refine ⟨by decide, rfl, rfl, rfl, rfl, fun w y hy hp _ _ => ?_⟩
  rcases w with _ | _ | _ | _ | w
  · cases hy; exact ⟨Nat.le_refl _, fun _ => Nat.le_refl _⟩
  · cases hy; exact absurd hp (by decide)
  · cases hy; exact absurd hp (by decide)
  · cases hy; exact absurd hp (by decide)
  · cases hy

/-- The pedal up and the pedal down, parts 0 and 8, the highest key. -/
theorem witness_NoteOffReleases :
    (8 : BitVec 4).toNat ≤ 8 ∧ (127 : Byte).toNat ≤ 127 ∧
    (sounding 1 []).parts[(8 : BitVec 4).toNat]? = some ⟨false, 0⟩ ∧
    ((sounding 1 []).modPart 0 fun r => { r with pedal := true }).parts[(0 : BitVec 4).toNat]? = some ⟨true, 0⟩ := by
  decide

theorem witness_SustainSetsPedal : (8 : BitVec 4).toNat ≤ 8 := by decide

theorem witness_ProgramChangeCopies :
    Memory.wf (small memS []).mem = true ∧ (7 : BitVec 4).toNat ≤ 7 ∧ (127 : Byte).toNat ≤ 127 := by decide

theorem witness_AllNotesOffReleases : (8 : BitVec 4).toNat ≤ 8 := by decide

/-- A command that frees a voice, one that starts one, and frames. -/
theorem witness_VoicesStayConsistent :
    VoiceInv (sounding 1 [0x103C6400]) ∧ (∃ t, step (sounding 1 [0x103C6400]) = .next t) ∧
    VoiceInv (sounding 1 [0x80000001]) ∧ ∃ t, step (sounding 1 [0x80000001]) = .next t :=
  ⟨voiceInv_sounding 1 _, ⟨_, rfl⟩, voiceInv_sounding 1 _, _, rfl⟩

theorem witness_VoiceFieldsStayInRange :
    MemInv (small [] [0x103C6400]) ∧ (∀ x ∈ (small [] [0x103C6400]).voices, VoiceRange x) ∧
    ∃ t, step (small [] [0x103C6400]) = .next t := by
  refine ⟨memInv_zero _ rfl, fun x hx => ?_, _, rfl⟩
  rw [List.eq_of_mem_replicate hx]
  exact ⟨by decide, by decide, by decide, by decide, by decide, by decide, by decide, by decide⟩

theorem witness_RenderSplits :
    (1 : BitVec 24).toNat + (16777214 : BitVec 24).toNat ≤ 16777215 ∧
    ∃ t u, exec (.render 0 1) (sounding 1 []) = .next t ∧ exec (.render 0 2) t = .next u :=
  ⟨by decide, _, _, rfl, rfl⟩

/-- A memory that differs in bytes a frame does not read, with `reverbDirty` set. -/
theorem witness_FrameReadsNoMemory :
    (sounding 1 []).reverbDirty = true ∧
    ∀ a, 0x10331 ≤ a → a ≤ 0x10333 → Memory.read [(5, 1)] a = Memory.read (sounding 1 []).mem a := by
  refine ⟨rfl, fun a h1 h2 => ?_⟩
  rcases (by omega : a = 0x10331 ∨ a = 0x10332 ∨ a = 0x10333) with rfl | rfl | rfl <;> decide

/-- A voice that goes on playing, one whose last partial ends in the frame, and a free one. -/
theorem witness_FrameBookkeeping :
    (soundingX 1).voices[1]? = some Voice.reset ∧ Voice.reset.playing = false ∧
    (frameStep X (soundingX 1)).voices[1]? = some Voice.reset ∧
    (soundingX 1).voices[0]? = some pairVoice ∧ pairVoice.playing = true ∧
    (frameStep X (soundingX 1)).voices[0]? = some { pairVoice with age := 4 } ∧
    ((sounding 1 []).modPartial 0 releasePartial |>.modPartial 1 releasePartial).voices[0]? = some pairVoice ∧
    (frameStep X ((sounding 1 []).modPartial 0 releasePartial |>.modPartial 1 releasePartial)).voices[0]? =
      some Voice.reset := ⟨rfl, rfl, by decide +kernel, rfl, rfl, by decide +kernel, rfl, by decide +kernel⟩

theorem witness_IdleFrameIsReverbTail :
    (∀ x ∈ ({ small [] [] with reverbDirty := false } : State).voices, x.playing = false) ∧
    ({ small [] [] with reverbDirty := false } : State).reverbDirty = false := by decide

/-- Each fatal code at a boundary of its check, in the order of R306; a construction at the smallest arguments
succeeds. -/
theorem witness_ConstructionCheckOrder :
    construct X ⟨3, 7999, resetRom, [], []⟩ = .error .badConfig ∧
    construct X ⟨256, 8000, resetRom, [], []⟩ = .error .badConfig ∧
    construct X ⟨255, 7999, resetRom, [], []⟩ = .error .badSampleRate ∧
    construct X ⟨4, 96001, resetRom, [], []⟩ = .error .badSampleRate ∧
    construct X ⟨4, 8000, resetRom, [], []⟩ = .error .badPcmTable ∧
    construct X ⟨4, 96000, resetRom, List.replicate 128 ⟨[], 3, 2, false, 0, 0⟩, []⟩ = .error .badPcmTable ∧
    construct X ⟨4, 96000, resetRom, resetPcm, []⟩ = .error .badInitialMemory := by
  refine ⟨rfl, rfl, rfl, rfl, rfl, by decide +kernel, by decide +kernel⟩

theorem checkImage_zero : checkImage (List.replicate 0x10347 0) = true := by
  simp only [checkImage, List.length_replicate, allLegal_zero 0 0x10347 (by decide)]
  rfl

/-- A loop start past its wave's length is clamped, and the all-zero image is legal. -/
theorem witness_ConstructionYieldsReset :
    construct X ⟨4, 8000, resetRom, List.replicate 128 ⟨[], 0, 4, true, 9, 0⟩, List.replicate 0x10347 0⟩ =
      .ok (State.constructed (fRs0 X 8000) 4 8000 resetRom (List.replicate 128 ⟨[], 0, 4, true, 3, 0⟩)
        (Memory.ofImage 0 (List.replicate 0x10347 0))) := by
  have h : checkPcm (List.replicate 128 ⟨[], 0, 4, true, 9, 0⟩) resetRom.length =
      some (List.replicate 128 ⟨[], 0, 4, true, 3, 0⟩) := by decide +kernel
  unfold construct
  rw [if_neg (by decide), if_neg (by decide)]
  simp only [h, checkImage_zero, if_true]

theorem witness_FilesStayInRange :
    FileInv (small memS [0x30000001]) ∧ ∃ t, step (small memS [0x30000001]) = .next t :=
  ⟨⟨rfl, by decide, by decide, by decide, by decide⟩, _, rfl⟩

/-- For each clause a command that writes the register: the memory, the pedals, the voices, the status register,
`reverbDirty`, the read queue and the audio queue. -/
theorem witness_WritersOfEachRegister :
    (∃ t, exec (.blockWrite 0 2 0 1 [48]) (small memS []) = .next t ∧ t.mem ≠ (small memS []).mem) ∧
    (∃ t, exec (.sustain 0 0 1) (small memS []) = .next t ∧ t.parts ≠ (small memS []).parts) ∧
    (∃ t, exec (.noteOff 0 60 0) (sounding 1 []) = .next t ∧ t.voices ≠ (sounding 1 []).voices) ∧
    (∃ t, exec (.reserved0 0) (small memS []) = .next t ∧ t.status ≠ (small memS []).status) ∧
    (∃ t, exec (.blockWrite 0 0x10331 0 1 [3]) { small memS [] with reverbDirty := false } = .next t ∧
      t.reverbDirty ≠ false) ∧
    (∃ t, exec (.status 0 0) (small memS []) = .next t ∧ t.readQ ≠ (small memS []).readQ) ∧
    ∃ t, exec (.render 0 1) (small memS []) = .next t ∧ t.audioQ ≠ (small memS []).audioQ := by
  refine ⟨⟨_, rfl, by decide⟩, ⟨_, rfl, by decide⟩, ⟨_, rfl, by decide⟩, ⟨_, rfl, by decide⟩, ⟨_, rfl, by decide⟩,
    ⟨_, rfl, by decide⟩, _, rfl, fun h => nomatch h⟩

/-- A state whose coefficients are not those its next frame computes, whatever the OPEN function gives. -/
theorem witness_WritersOfEachRegister_reverb :
    ∃ s t : State, exec (.render 0 1) s = .next t ∧ t.rc ≠ s.rc := by
  refine ⟨{ small [] [] with rc := ⟨0 :: (reverbRecompute Config.openFns (small [] [])).rc.1⟩ }, _, rfl, fun h => ?_⟩
  exact List.cons_ne_self _ _ (congrArg (·.1) h).symm

theorem witness_QueuesAreNeverRead : ∃ t, exec (.status 0 0) (small memS []) = .next t := ⟨_, rfl⟩

end Sys2Proof.Tests
end

section
/-! PROOFS. The scope of the block (00_scope.md): what a step takes from the stream, what a command of the voice
allocator leaves unchanged, and the register files that every command keeps. -/

namespace Sys2Proof.Machine

/-! ## A command's two outcomes -/

/-- Inversion of `command`: the reject of a failed check, or the whole effect with `cp` advanced (R300, R304). -/
theorem command_next {len : Nat} {check : Option RejectCode} {apply : State → State} {s t : State}
    (h : command len check apply s = .next t) :
    (∃ c, check = some c ∧ t = reject len c s) ∨ (check = none ∧ t = (apply s).advance len) := by
  cases check with
  | some c => exact .inl ⟨c, rfl, (Host.Outcome.next.inj h).symm⟩
  | none => exact .inr ⟨rfl, (Host.Outcome.next.inj h).symm⟩

/-! ## One step of the engine -/

/-- A step where the pending words decode to a command (10_state.md R21). -/
theorem step_of_decode {s : State} {i : Instr} {rest : List Word} (h : decode s.pending = .ok (i, rest)) :
    step s = exec i s := by
  simp only [step, fetch, h]

/-- A step where they do not (30_encoding.md R119). -/
theorem step_of_decode_error {s : State} {e : DecodeStop} (h : decode s.pending = .error e) :
    step s = .fault (stopFault e) := by
  simp only [step, fetch, h]

/-- Inversion of `step`: a next state comes from the command that the pending words decode to. -/
theorem step_next {s t : State} (h : step s = .next t) :
    ∃ i rest, decode s.pending = .ok (i, rest) ∧ exec i s = .next t := by
  cases hd : decode s.pending with
  | error e =>
    rw [step_of_decode_error hd] at h
    cases h
  | ok x =>
    obtain ⟨i, rest⟩ := x
    exact ⟨i, rest, rfl, step_of_decode hd ▸ h⟩

/-! ## The words a decoded command occupies (30_encoding.md R113) -/

theorem decodeBlockWrite_length {w : Word} {ws rest : List Word} {i : Instr}
    (h : decodeBlockWrite w ws = .ok (i, rest)) : (w :: ws).length = i.length + rest.length := by
  cases ws with
  | nil => cases h
  | cons w1 ws =>
    simp only [decodeBlockWrite] at h
    split at h
    · cases h
    · cases h
      simp only [Instr.length, List.length_cons, List.length_drop]
      omega

theorem decodeBlockRead_length {w : Word} {ws rest : List Word} {i : Instr}
    (h : decodeBlockRead w ws = .ok (i, rest)) : (w :: ws).length = i.length + rest.length := by
  cases ws with
  | nil => cases h
  | cons w1 ws =>
    cases h
    exact Nat.add_comm _ 2

/-- A decoded command has arrived whole: its words and those after it are the words decoded. -/
theorem decode_length {ws rest : List Word} {i : Instr} (h : decode ws = .ok (i, rest)) :
    ws.length = i.length + rest.length := by
  cases ws with
  | nil => cases h
  | cons w ws =>
    simp only [decode] at h
    split at h
    case h_7 => exact decodeBlockWrite_length h
    case h_8 => exact decodeBlockRead_length h
    all_goals
      cases h
      exact Nat.add_comm _ 1

/-- The command at `cp` ends inside the stream. -/
theorem cp_add_length_le {s : State} {i : Instr} {rest : List Word} (hcp : s.cp ≤ s.stream.length)
    (h : decode s.pending = .ok (i, rest)) : s.cp + i.length ≤ s.stream.length := by
  have hlen := decode_length h
  rw [State.pending, List.length_drop] at hlen
  omega

/-! ## Commands that write slots alone -/

/-- The frame of a command whose effect writes voice and partial slots alone (00_scope.md R10). -/
theorem command_slotsOnly {len : Nat} {check : Option RejectCode} {apply : State → State} {s t : State}
    (happly : SlotsOnly s (apply s)) (h : command len check apply s = .next t) :
    t = { s with voices := t.voices, partials := t.partials, status := t.status, cp := s.cp + len } ∧
      t.voices.length = s.voices.length ∧ t.partials.length = s.partials.length := by
  obtain ⟨c, -, rfl⟩ | ⟨-, rfl⟩ := command_next h
  · exact ⟨rfl, rfl, rfl⟩
  · obtain ⟨hrest, hvoices, hpartials⟩ := happly
    refine ⟨?_, hvoices, hpartials⟩
    rw [hrest]
    rfl

/-! ## The register files -/

/-- The registers of `FileInv` are as they were: the bends of the parts, the sample rate, the stream and `cp`. -/
structure FilesKept (s t : State) : Prop where
  bends : t.parts.map (·.bend) = s.parts.map (·.bend)
  rate : t.sr = s.sr
  stream : t.stream = s.stream
  cp : t.cp = s.cp

theorem FilesKept.refl (s : State) : FilesKept s s := ⟨rfl, rfl, rfl, rfl⟩

theorem FilesKept.trans {s t u : State} (h1 : FilesKept s t) (h2 : FilesKept t u) : FilesKept s u :=
  ⟨h2.bends.trans h1.bends, h2.rate.trans h1.rate, h2.stream.trans h1.stream, h2.cp.trans h1.cp⟩

theorem FrameOnly.filesKept {s t : State} (h : FrameOnly s t) : FilesKept s t := by
  rw [h.rest]
  exact ⟨rfl, rfl, rfl, rfl⟩

theorem SlotsOnly.filesKept {s t : State} (h : SlotsOnly s t) : FilesKept s t := h.frameOnly.filesKept

theorem FilesKept.advance {s t : State} (h : FilesKept s t) (n : Nat) : FilesKept (s.advance n) (t.advance n) :=
  ⟨h.bends, h.rate, h.stream, congrArg (· + n) h.cp⟩

/-- A part write that keeps each bend keeps the files. -/
theorem modPart_filesKept (s : State) (p : Nat) (f : PartRegs → PartRegs) (hf : ∀ r, (f r).bend = r.bend) :
    FilesKept s (s.modPart p f) := by
  refine ⟨List.ext_getElem? fun k => ?_, rfl, rfl, rfl⟩
  simp only [modPart_parts, List.getElem?_map, List.getElem?_modify, Option.map_eq_map, Option.map_map]
  congr 1
  funext r
  by_cases hk : p = k <;> simp [hk, hf]

theorem releaseWhere_filesKept (s : State) (m : Voice → Bool) : FilesKept s (releaseWhere s m) :=
  (releaseWhere_slotsOnly s m).filesKept

theorem releaseKey_filesKept (p : Nat) (key : Byte) (s : State) : FilesKept s (releaseKey p key s) := by
  unfold releaseKey
  split
  · exact ⟨rfl, rfl, rfl, rfl⟩
  · exact releaseWhere_filesKept s _

theorem setPedal_filesKept (p : Nat) (on : Bool) (s : State) : FilesKept s (setPedal p on s) := by
  have hpedal : FilesKept s (s.modPart p fun r => { r with pedal := on }) := modPart_filesKept s p _ fun _ => rfl
  unfold setPedal
  cases on with
  | true => exact hpedal
  | false => exact hpedal.trans (releaseWhere_filesKept _ _)

theorem pushStatus_filesKept (clear : Bool) (s : State) : FilesKept s (pushStatus clear s) := by
  cases clear <;> exact ⟨rfl, rfl, rfl, rfl⟩

/-- A command whose effect keeps the files advances `cp` by its length and keeps the rest, applied or rejected. -/
theorem command_filesKept {len : Nat} {check : Option RejectCode} {apply : State → State} {s t : State}
    (happly : FilesKept s (apply s)) (h : command len check apply s = .next t) : FilesKept (s.advance len) t := by
  obtain ⟨c, -, rfl⟩ | ⟨-, rfl⟩ := command_next h
  · exact ⟨rfl, rfl, rfl, rfl⟩
  · exact happly.advance len

theorem rejectOpcode_filesKept {s t : State} (h : rejectOpcode s = .next t) : FilesKept (s.advance 1) t :=
  command_filesKept (apply := id) (.refl s) h

/-- Every command keeps the files but for the advance of `cp` by its length (10_state.md R21, R23). -/
theorem exec_filesKept {i : Instr} {s t : State} (h : exec i s = .next t) : FilesKept (s.advance i.length) t := by
  cases i with
  | noteOn part key vel rsv => exact command_filesKept (strike_slotsOnly _ part key vel s).filesKept h
  | noteOff part key rsv => exact command_filesKept (releaseKey_filesKept _ key s) h
  | sustain part rsv on => exact command_filesKept (setPedal_filesKept _ _ s) h
  | programChange part patch rsv =>
    exact command_filesKept (apply := fun s => { s with mem := loadPatch s.mem part.toNat patch.toNat })
      ⟨rfl, rfl, rfl, rfl⟩ h
  | allNotesOff part rsv =>
    exact command_filesKept (apply := fun s => releaseWhere s (allOffMatches part.toNat))
      (releaseWhere_filesKept s _) h
  | blockWrite rsv addr rsvLen n data =>
    simp only [exec, execBlockWrite] at h
    split at h
    · cases h
    · exact command_filesKept ⟨rfl, rfl, rfl, rfl⟩ h
  | blockRead rsv addr rsvLen n => exact command_filesKept ⟨rfl, rfl, rfl, rfl⟩ h
  | render rsv count => exact command_filesKept (frames_frameOnly _ count.toNat s).filesKept h
  | status rsv clear => exact command_filesKept (pushStatus_filesKept _ s) h
  | reserved0 body => exact rejectOpcode_filesKept h
  | reservedAB body => exact rejectOpcode_filesKept h
  | reservedCF body => exact rejectOpcode_filesKept h

/-- Kept files are in range wherever `cp` is still inside the stream. -/
theorem FilesKept.fileInv {s t : State} (h : FilesKept s t) (hs : FileInv s) : FileInv t where
  nineParts := by simpa [hs.nineParts] using congrArg List.length h.bends
  noBend := by
    have hbends : ∀ b ∈ t.parts.map (·.bend), b = 0 := by
      rw [h.bends]
      exact List.forall_mem_map.mpr hs.noBend
    exact List.forall_mem_map.mp hbends
  rateLow := h.rate ▸ hs.rateLow
  rateHigh := h.rate ▸ hs.rateHigh
  cpInside := by
    rw [h.cp, h.stream]
    exact hs.cpInside

/-- The advance past a command that has arrived whole keeps the files in range. -/
theorem FileInv.advance {s : State} (hs : FileInv s) {n : Nat} (hcp : s.cp + n ≤ s.stream.length) :
    FileInv (s.advance n) :=
  ⟨hs.nineParts, hs.noBend, hs.rateLow, hs.rateHigh, hcp⟩

/-! ## The obligations -/

/-- Settles O6, through the rule for a step whose pending words decode. -/
theorem stepRunsDecoded : Obligations.StepRunsDecoded :=
  fun _ _ _ => step_of_decode

/-- Settles O39: the effect of NOTE_ON writes slots alone, and a reject writes the status register and `cp`. -/
theorem noteOnFrame : Obligations.NoteOnFrame :=
  fun s _ part key vel _ => command_slotsOnly (strike_slotsOnly Config.openFns part key vel s)

/-- Settles O58: the step takes a command that has arrived whole, and no command writes the files but for its advance
of `cp`. -/
theorem filesStayInRange : Obligations.FilesStayInRange := by
  intro s t hs h
  obtain ⟨i, rest, hdecode, hexec⟩ := step_next h
  have hcp : s.cp + i.length ≤ s.stream.length := cp_add_length_le hs.cpInside hdecode
  exact (exec_filesKept hexec).fileInv (hs.advance hcp)

end Sys2Proof.Machine
end

section
/-! PROOFS. What a command is: its checks, its effect, and the two outcomes of `exec`; and the counters of the partials
(10_state.md R28), which every effect keeps in range. -/

namespace Sys2Proof.Machine

/-! ## A command's checks and effect -/

/-- The first failing check of a command (60_exceptions.md R303). -/
def checkOf : Instr → Option RejectCode
  | .noteOn part key vel rsv => checkNoteOn part key vel rsv
  | .noteOff part key rsv => checkNoteOff part key rsv
  | .sustain part rsv _ => checkSustain part rsv
  | .programChange part patch rsv => checkProgramChange part patch rsv
  | .allNotesOff part rsv => checkAllNotesOff part rsv
  | .blockWrite rsv addr rsvLen n data => checkBlockWrite rsv addr rsvLen n data
  | .blockRead rsv addr rsvLen n => checkBlockRead rsv addr rsvLen n
  | .render rsv _ => checkRender rsv
  | .status rsv _ => checkStatus rsv
  | .reserved0 _ => some .badOpcode
  | .reservedAB _ => some .badOpcode
  | .reservedCF _ => some .badOpcode

/-- What a command that passed its checks does, the advance of `cp` apart. -/
def effect : Instr → State → State
  | .noteOn part key vel _ => strike Config.openFns part key vel
  | .noteOff part key _ => releaseKey part.toNat key
  | .sustain part _ on => setPedal part.toNat (on == 1#1)
  | .programChange part patch _ => fun s => { s with mem := loadPatch s.mem part.toNat patch.toNat }
  | .allNotesOff part _ => fun s => releaseWhere s (allOffMatches part.toNat)
  | .blockWrite _ addr _ n data => writeBytes addr.toNat (unpackBytes data n.toNat)
  | .blockRead _ addr _ n => readBytes addr.toNat n.toNat
  | .render _ count => frames Config.openFns count.toNat
  | .status _ clear => pushStatus (clear == 1#1)
  | .reserved0 _ => id
  | .reservedAB _ => id
  | .reservedCF _ => id

/-- A BLOCK_WRITE term with fewer data words than its length word asks for (30_encoding.md R119). -/
def dataShort : Instr → Bool
  | .blockWrite _ _ _ n data => decide (data.length < dataWords n)
  | _ => false

/-- Every command is its checks, then its effect. -/
theorem exec_eq (i : Instr) (s : State) :
    exec i s =
      if dataShort i then .fault .incompleteCommand else command i.length (checkOf i) (effect i) s := by
  cases i with
  | blockWrite rsv addr rsvLen n data =>
    simp only [exec, execBlockWrite, dataShort, decide_eq_true_eq]
    rfl
  | _ => rfl

/-- Inversion of `exec`: the reject of a failed check, or the whole effect with `cp` advanced (R300, R304). -/
theorem exec_next {i : Instr} {s t : State} (h : exec i s = .next t) :
    (∃ c, t = reject i.length c s) ∨ (checkOf i = none ∧ t = (effect i s).advance i.length) := by
  rw [exec_eq] at h
  split at h
  · cases h
  · obtain ⟨c, -, ht⟩ | hn := command_next h
    · exact .inl ⟨c, ht⟩
    · exact .inr hn

/-- A property that the reject, the effects and the advance of `cp` keep is kept by every step. -/
theorem step_keeps {P : State → Prop} {s t : State} (hreject : ∀ n c, P (reject n c s))
    (heffect : ∀ i, checkOf i = none → P (effect i s)) (hadvance : ∀ u n, P u → P (u.advance n))
    (h : step s = .next t) : P t := by
  obtain ⟨i, -, -, hexec⟩ := step_next h
  obtain ⟨c, rfl⟩ | ⟨hcheck, rfl⟩ := exec_next hexec
  · exact hreject _ c
  · exact hadvance _ _ (heffect i hcheck)

/-! ## The registers an effect writes -/

/-- `t` is `s` but for the registers that the effect of a command may write. -/
def WritesOnly : Instr → State → State → Prop
  | .noteOn .., s, t => t = { s with voices := t.voices, partials := t.partials }
  | .noteOff .., s, t => t = { s with voices := t.voices, partials := t.partials }
  | .sustain .., s, t => t = { s with parts := t.parts, voices := t.voices, partials := t.partials }
  | .programChange .., s, t => t = { s with mem := t.mem }
  | .allNotesOff .., s, t => t = { s with voices := t.voices, partials := t.partials }
  | .blockWrite .., s, t => t = { s with mem := t.mem, reverbDirty := t.reverbDirty }
  | .blockRead .., s, t => t = { s with readQ := t.readQ }
  | .render .., s, t =>
    t = { s with
      voices := t.voices, partials := t.partials, reverbDirty := t.reverbDirty, rc := t.rc, rs := t.rs
      audioQ := t.audioQ }
  | .status .., s, t => t = { s with readQ := t.readQ, status := t.status }
  | .reserved0 _, s, t => t = s
  | .reservedAB _, s, t => t = s
  | .reservedCF _, s, t => t = s

theorem releaseKey_slotsOnly (p : Nat) (key : Byte) (s : State) : SlotsOnly s (releaseKey p key s) := by
  unfold releaseKey
  split
  · exact ⟨rfl, by simp [holdWhere], rfl⟩
  · exact releaseWhere_slotsOnly s _

theorem setPedal_writes (p : Nat) (on : Bool) (s : State) :
    setPedal p on s =
      { s with
        parts := (setPedal p on s).parts
        voices := (setPedal p on s).voices
        partials := (setPedal p on s).partials } := by
  cases on with
  | true => rfl
  | false =>
    unfold setPedal
    simp only [Bool.false_eq_true, if_false, releaseWhere_eq]
    rfl

theorem pushStatus_writes (clear : Bool) (s : State) :
    pushStatus clear s = { s with readQ := (pushStatus clear s).readQ, status := (pushStatus clear s).status } := by
  cases clear <;> rfl

theorem effect_writesOnly (i : Instr) (s : State) : WritesOnly i s (effect i s) := by
  cases i with
  | noteOn part key vel rsv => exact (strike_slotsOnly _ part key vel s).1
  | noteOff part key rsv => exact (releaseKey_slotsOnly _ key s).1
  | sustain part rsv on => exact setPedal_writes _ _ s
  | allNotesOff part rsv => exact (releaseWhere_slotsOnly s _).1
  | render rsv count => exact (frames_frameOnly _ _ s).rest
  | status rsv clear => exact pushStatus_writes _ s
  | programChange => simp only [WritesOnly, effect]
  | blockWrite | blockRead | reserved0 | reservedAB | reservedCF => rfl

/-- Whether the effect of a command may write voices and partials. -/
def writesSlots : Instr → Bool
  | .noteOn .. => true
  | .noteOff .. => true
  | .sustain .. => true
  | .allNotesOff .. => true
  | .render .. => true
  | _ => false

theorem WritesOnly.slots_kept {i : Instr} {s t : State} (h : WritesOnly i s t) (hi : writesSlots i = false) :
    t.voices = s.voices ∧ t.partials = s.partials := by
  cases i with
  | noteOn | noteOff | sustain | allNotesOff | render => cases hi
  | programChange | blockWrite | blockRead | status | reserved0 | reservedAB | reservedCF =>
    exact ⟨(congrArg State.voices h :), (congrArg State.partials h :)⟩

/-! ## Effects on partial slots -/

theorem releaseKey_keeps {P : Partial → Prop} (hrel : ∀ p, P p → P (releasePartial p)) (p : Nat) (key : Byte)
    (s : State) (h : AllPartials P s) : AllPartials P (releaseKey p key s) := by
  unfold releaseKey
  split
  · exact h
  · exact releaseWhere_keeps hrel s _ h

theorem setPedal_keeps {P : Partial → Prop} (hrel : ∀ p, P p → P (releasePartial p)) (p : Nat) (on : Bool)
    (s : State) (h : AllPartials P s) : AllPartials P (setPedal p on s) := by
  cases on with
  | true => exact h
  | false => exact releaseWhere_keeps hrel _ _ h

/-- A property of slots that release, kill, start and step keep is kept by every effect. -/
theorem effect_keepsPartials {P : Partial → Prop} (hrel : ∀ p, P p → P (releasePartial p))
    (hkill : ∀ p, P p → P (killPartial p)) (s : State)
    (hstart : ∀ (timbre : List Byte) (ctx : PatchContext) (key vel mt : Byte) (v t : Nat) (q : Fin 4) (c : PatchCache),
      buildCache Config.openFns s.sr s.pcm mt timbre t ctx key vel = some c → P (startedPartial v q c))
    (hstep : ∀ u p, u.sr = s.sr → u.rom = s.rom → u.pcm = s.pcm → P p → P (steppedPartial Config.openFns u p))
    (h : AllPartials P s) (i : Instr) : AllPartials P (effect i s) := by
  have hslots := (effect_writesOnly i s).slots_kept
  cases i with
  | noteOn part key vel rsv => exact strike_keeps hrel hkill _ s hstart part key vel h
  | noteOff part key rsv => exact releaseKey_keeps hrel _ key s h
  | sustain part rsv on => exact setPedal_keeps hrel _ _ s h
  | allNotesOff part rsv => exact releaseWhere_keeps hrel s _ h
  | render rsv count => exact frames_keep _ _ s hstep h
  | programChange | blockWrite | blockRead | status | reserved0 | reservedAB | reservedCF =>
    rw [AllPartials, (hslots rfl).2]
    exact h

/-! ## Counters -/

/-- A phase that is no attack segment is inside every definition. -/
theorem phaseInside_of_ne_atk {E : EnvUnit} {D : EnvDef} (h : ∀ j, E.phase ≠ .atk j) : phaseInside E D :=
  fun j hj => absurd hj (h j)

theorem envInit_phaseInside {D : EnvDef} (h : 0 < D.atk.length) : phaseInside (envInit D) D := by
  intro j hj
  cases hj
  exact h

/-- The phase after a segment is an attack segment only where the definition has a next one (42_partial.md R192). -/
theorem envNext_inside {phase : EnvPhase} {D : EnvDef} {j : Nat} (h : envNext phase D = .atk j) :
    j < D.atk.length := by
  cases phase with
  | atk k =>
    simp only [envNext] at h
    split at h
    · cases h; assumption
    · split at h <;> cases h
  | hold | rel | done => cases h

theorem envStep_phaseInside (F : OpenFns) {E : EnvUnit} {D : EnvDef} (h : phaseInside E D) :
    phaseInside (envStep F E D) D := by
  unfold envStep
  split
  · exact h
  · simp only
    split
    · exact fun j hj => envNext_inside hj
    · exact h

theorem envRelease_phaseInside {E : EnvUnit} {D : EnvDef} (h : phaseInside E D) : phaseInside (envRelease E) D := by
  unfold envRelease
  split
  · exact phaseInside_of_ne_atk (by simp)
  · exact phaseInside_of_ne_atk (by simp)
  · exact h
  · exact h

/-- The LFO counter stays below its period; where the count leaves 32 bits the period exceeds every counter (R197). -/
theorem lfoNext_lt (F : OpenFns) {cnt : U32} {period : Nat} (h : cnt.toNat < period) :
    (lfoNext F cnt period).toNat < period := by
  have hmod : (cnt.toNat + 1) % period < period := Nat.mod_lt _ (by omega)
  unfold lfoNext countU32
  split
  · next hfits => rwa [BitVec.toNat_ofNat, Nat.mod_eq_of_lt hfits]
  · exact (BitVec.isLt _).trans (by omega)

theorem releasePartial_counterInv (p : Partial) (h : CounterInv p) : CounterInv (releasePartial p) := by
  unfold releasePartial
  split
  · exact ⟨h.periodPos, h.lfoBelow, envRelease_phaseInside h.pitchPhase, envRelease_phaseInside h.tvfPhase,
      envRelease_phaseInside h.tvaPhase⟩
  · exact h

theorem killPartial_counterInv (p : Partial) (h : CounterInv p) : CounterInv (killPartial p) :=
  ⟨h.periodPos, h.lfoBelow, h.pitchPhase, h.tvfPhase, h.tvaPhase⟩

theorem steppedPartial_counterInv (F : OpenFns) (s : State) (p : Partial) (h : CounterInv p) :
    CounterInv (steppedPartial F s p) :=
  ⟨h.periodPos, lfoNext_lt F h.lfoBelow, envStep_phaseInside F h.pitchPhase, envStep_phaseInside F h.tvfPhase,
    envStep_phaseInside F h.tvaPhase⟩

/-- A cache that `buildCache` gives is the one of a playable timbre partial (R161). -/
theorem buildCache_some {F : OpenFns} {sr : Nat} {pcm : List PcmWave} {mt : Byte} {timbre : List Byte} {t : Nat}
    {ctx : PatchContext} {key vel : Byte} {c : PatchCache} (h : buildCache F sr pcm mt timbre t ctx key vel = some c) :
    ∃ q : Fin 4, c = cacheOf F sr pcm mt timbre q ctx key vel := by
  unfold buildCache at h
  split at h
  · next ht =>
    split at h
    · exact ⟨⟨t, ht⟩, (Option.some.inj h).symm⟩
    · cases h
  · cases h

/-- A partial that has just started: an LFO period of at least 1, and three envelopes with attack segments (R170). -/
theorem startedPartial_counterInv {F : OpenFns} {sr : Nat} {pcm : List PcmWave} {mt : Byte} {timbre : List Byte}
    {t : Nat} {ctx : PatchContext} {key vel : Byte} {c : PatchCache}
    (h : buildCache F sr pcm mt timbre t ctx key vel = some c) (v : Nat) (q : Fin 4) :
    CounterInv (startedPartial v q c) := by
  obtain ⟨r, rfl⟩ := buildCache_some h
  have hperiod : 1 ≤ (cacheOf F sr pcm mt timbre r ctx key vel).lfoPeriod := Nat.le_max_left 1 _
  exact ⟨hperiod, hperiod, envInit_phaseInside (Nat.succ_pos 2), envInit_phaseInside (Nat.succ_pos 3),
    envInit_phaseInside (Nat.succ_pos 3)⟩

/-- Settles O34: release, kill, start and step each keep a partial's counters in range, and no effect does more to a
slot. -/
theorem countersStayInRange : Obligations.CountersStayInRange := by
  intro s t hs h
  exact step_keeps (P := AllPartials CounterInv) (fun _ _ => hs)
    (fun i _ => effect_keepsPartials releasePartial_counterInv killPartial_counterInv s
      (fun _ _ _ _ _ v _ q _ hc => startedPartial_counterInv hc v q)
      (fun u p _ _ _ => steppedPartial_counterInv _ u p) hs i)
    (fun _ _ hu => hu) h

end Sys2Proof.Machine
end

section
/-! PROOFS. The voice invariants (10_state.md R25): stealing as a trace of kills (43_voice_allocator.md R247), a note, a
frame, and every effect. -/

namespace Sys2Proof.Machine

/-! ## Stealing -/

/-- What stealing does for `n` slots: nothing where as many are free, else the kill of the oldest playing voice and what
stealing does after it (R247). -/
inductive Steals (n : Nat) : State → State → Prop where
  | enough {s : State} (hs : VoiceInv s) (hn : n ≤ freePartials s) : Steals n s s
  | kill {s t : State} {u : Nat} {x : Voice} (hs : VoiceInv s) (hn : freePartials s < n)
      (hx : s.voices[u]? = some x) (hp : x.playing = true)
      (oldest : ∀ (w : Nat) (y : Voice), s.voices[w]? = some y → y.playing = true →
        y.age.toNat ≤ x.age.toNat ∧ (y.age.toNat = x.age.toNat → u ≤ w))
      (rest : Steals n (killVoice s u) t) : Steals n s t

/-- A voice that plays after the kill of voice `u` is another one, untouched. -/
theorem killVoice_playing {s : State} (hs : VoiceInv s) {u w : Nat} {x y : Voice} (hx : s.voices[u]? = some x)
    (hp : x.playing = true) (hy : (killVoice s u).voices[w]? = some y) (hyp : y.playing = true) :
    w ≠ u ∧ s.voices[w]? = some y := by
  rw [(killVoice_slots s hs u x hx hp).1 w] at hy
  split at hy
  · cases hy
    cases hyp
  · next hw => exact ⟨hw, hy⟩

/-- Stealing with passes for the slots that are short is such a trace: each kill frees a slot. -/
theorem stealVoices_steals {n fuel : Nat} {s : State} (hs : VoiceInv s) (hn : n ≤ s.partials.length)
    (hfuel : n ≤ freePartials s + fuel) : Steals n s (stealVoices n fuel s) := by
  induction fuel generalizing s with
  | zero => exact .enough hs hfuel
  | succ fuel ih =>
    unfold stealVoices
    split
    · next hshort =>
      obtain ⟨u, hu⟩ := exists_playing s hs (by omega)
      obtain ⟨x, hx, hp, hold⟩ := oldest_some _ _ _ hu
      have hfrees := killVoice_frees s hs u x hx hp
      have hlen := (killVoice_slotsOnly s u).2.2
      rw [hu]
      exact .kill hs hshort hx hp hold (ih (killVoice_voiceInv s hs u x hx hp) (by omega) (by omega))
    · exact .enough hs (by omega)

namespace Steals

variable {n : Nat} {s t : State}

theorem before (h : Steals n s t) : VoiceInv s := by
  cases h with
  | enough hs => exact hs
  | kill hs => exact hs

theorem after (h : Steals n s t) : VoiceInv t ∧ n ≤ freePartials t := by
  induction h with
  | enough hs hn => exact ⟨hs, hn⟩
  | kill _ _ _ _ _ _ ih => exact ih

/-- Nothing is taken where enough slots are free. -/
theorem eq_of_enough (h : Steals n s t) (hn : n ≤ freePartials s) : t = s := by
  cases h with
  | enough => rfl
  | kill _ hshort => omega

/-- A voice is left as it was, or taken whole. -/
theorem voice (h : Steals n s t) (v : Nat) :
    t.voices[v]? = s.voices[v]? ∨ (t.voices[v]? = some Voice.reset ∧ v < s.voices.length) := by
  induction h with
  | enough => exact .inl rfl
  | @kill s t u x hs _ hx hp _ _ ih =>
    rw [(killVoice_slots s hs u x hx hp).1 v, (killVoice_slotsOnly s u).2.1] at ih
    obtain ⟨hu, -⟩ := List.getElem?_eq_some_iff.mp hx
    by_cases hv : v = u
    · subst hv
      rw [if_pos rfl] at ih
      exact .inr ⟨ih.elim id And.left, hu⟩
    · rwa [if_neg hv] at ih

/-- A voice that plays after stealing is untouched. -/
theorem voice_of_playing (h : Steals n s t) {v : Nat} {y : Voice} (hy : t.voices[v]? = some y)
    (hp : y.playing = true) : s.voices[v]? = some y := by
  obtain hv | ⟨hv, -⟩ := h.voice v
  · exact hv ▸ hy
  · rw [hv] at hy
    cases hy
    cases hp

/-- A voice that is free before stealing is free after it. -/
theorem voice_of_reset (h : Steals n s t) {v : Nat} (hv : s.voices[v]? = some Voice.reset) :
    t.voices[v]? = some Voice.reset :=
  (h.voice v).elim (fun e => e.trans hv) And.left

/-- Voices are taken oldest first, the lowest slot among equal ages. -/
theorem oldestFirst (h : Steals n s t) {u w : Nat} {x y : Voice} (hx : s.voices[u]? = some x)
    (hp : x.playing = true) (hu : t.voices[u]? = some Voice.reset) (hy : t.voices[w]? = some y)
    (hyp : y.playing = true) :
    y.age.toNat ≤ x.age.toNat ∧ (y.age.toNat = x.age.toNat → u < w) := by
  induction h with
  | enough =>
    rw [hu] at hx
    cases hx
    cases hp
  | @kill s t k z hs hn hz hzp hold rest ih =>
    have hvoice := (killVoice_slots s hs k z hz hzp).1
    by_cases huk : u = k
    · subst huk
      rw [hz] at hx
      cases hx
      obtain ⟨hle, hlow⟩ := hold w y ((Steals.kill hs hn hz hzp hold rest).voice_of_playing hy hyp) hyp
      have hne : w ≠ u := by
        rintro rfl
        rw [hu] at hy
        cases hy
        cases hyp
      exact ⟨hle, fun e => lt_of_le_of_ne (hlow e) hne.symm⟩
    · exact ih ((hvoice u).trans (by rw [if_neg huk, hx])) hu hy

/-- Where slots are still short, another voice is taken. -/
theorem takes_one (h : Steals n s t) (hn : freePartials s < n) :
    ∃ (u : Nat) (x : Voice), s.voices[u]? = some x ∧ x.playing = true ∧ t.voices[u]? = some Voice.reset := by
  cases h with
  | enough _ henough => omega
  | @kill _ _ u x hs _ hx hp _ rest =>
    refine ⟨u, x, hx, hp, rest.voice_of_reset ?_⟩
    rw [(killVoice_slots s hs u x hx hp).1 u, if_pos rfl]

/-- Stealing stops at once: without the last voice taken fewer slots would be free than the note needs. -/
theorem stops_at_once (h : Steals n s t) {u : Nat} {x : Voice} (hx : s.voices[u]? = some x) (hp : x.playing = true)
    (hu : t.voices[u]? = some Voice.reset)
    (hlast : ∀ (w : Nat) (y : Voice), s.voices[w]? = some y → y.playing = true → t.voices[w]? = some Voice.reset →
      x.age.toNat ≤ y.age.toNat ∧ (x.age.toNat = y.age.toNat → w ≤ u)) :
    freePartials t < n + x.partials.toList.countP (·.isSome) := by
  induction h with
  | enough =>
    rw [hu] at hx
    cases hx
    cases hp
  | @kill s t k z hs hn hz hzp hold rest ih =>
    have hvoice := (killVoice_slots s hs k z hz hzp).1
    by_cases huk : u = k
    · subst huk
      rw [hz] at hx
      cases hx
      by_cases henough : n ≤ freePartials (killVoice s u)
      · rw [rest.eq_of_enough henough]
        have := killVoice_frees_at_most s u x hz
        omega
      · obtain ⟨w, y, hy, hyp, hw⟩ := rest.takes_one (by omega)
        obtain ⟨hwu, hy⟩ := killVoice_playing hs hz hzp hy hyp
        obtain ⟨hle, hlow⟩ := hold w y hy hyp
        obtain ⟨hge, hhigh⟩ := hlast w y hy hyp hw
        have := hlow (by omega)
        have := hhigh (by omega)
        omega
    · have hx' := ((killVoice_slots s hs k z hz hzp).1 u).trans (by rw [if_neg huk, hx])
      refine ih hx' hu fun w y hy hyp hw => ?_
      obtain ⟨-, hy⟩ := killVoice_playing hs hz hzp hy hyp
      exact hlast w y hy hyp hw

/-- A slot is left as it was, or ended with the voice that owns it. -/
theorem slot (h : Steals n s t) {j : Nat} {p : Partial} (hp : s.partials[j]? = some p) :
    t.partials[j]? = some p ∨
      (t.partials[j]? = some { p with st := .inactive } ∧ t.voices[p.owner]? = some Voice.reset) := by
  induction h generalizing p with
  | enough => exact .inl hp
  | @kill s t k z hs hn hz hzp hold rest ih =>
    obtain ⟨hvoice, hslot⟩ := killVoice_slots s hs k z hz hzp
    have hkill := hslot j p hp
    split at hkill
    · next hk =>
      have hreset : t.voices[p.owner]? = some Voice.reset :=
        rest.voice_of_reset (by rw [hvoice, if_pos hk.2])
      exact .inr ⟨(ih hkill).elim id And.left, hreset⟩
    · exact ih hkill

end Steals

/-! ## Invariants of the voices -/

/-- The voice invariants speak of the voices and the partials alone. -/
theorem VoiceInv.congr {s t : State} (hs : VoiceInv s) (hv : t.voices = s.voices) (hp : t.partials = s.partials) :
    VoiceInv t :=
  SameShape.voiceInv ⟨fun _ => by rw [hv], fun _ => by rw [hp], by rw [hv], by rw [hp]⟩ hs

theorem releaseWhere_voiceInv {s : State} (hs : VoiceInv s) (m : Voice → Bool) : VoiceInv (releaseWhere s m) :=
  releaseWhere_eq s m ▸ (releaseAll_sameShape s m).voiceInv hs

theorem releaseKey_voiceInv {s : State} (hs : VoiceInv s) (p : Nat) (key : Byte) : VoiceInv (releaseKey p key s) := by
  unfold releaseKey
  split
  · exact (holdWhere_sameShape s _).voiceInv hs
  · exact releaseWhere_voiceInv hs _

theorem setPedal_voiceInv {s : State} (hs : VoiceInv s) (p : Nat) (on : Bool) : VoiceInv (setPedal p on s) := by
  have hpart : VoiceInv (s.modPart p fun r => { r with pedal := on }) := hs.congr rfl rfl
  cases on with
  | true => exact hpart
  | false => exact releaseWhere_voiceInv hpart _

/-- A note of a timbre has at most four partials. -/
theorem popcount4_le (m : BitVec 4) : popcount4 m ≤ 4 := by
  have bit : ∀ k, (m.getLsbD k).toNat ≤ 1 := fun k => Bool.toNat_le _
  have := bit 0
  have := bit 1
  have := bit 2
  have := bit 3
  unfold popcount4
  omega

/-- A note keeps the invariants: stealing frees the slots that its partials take (R245 to R247). -/
theorem strike_voiceInv (F : OpenFns) {s : State} (hs : VoiceInv s) (p : BitVec 4) (key vel : Byte) :
    VoiceInv (strike F p key vel s) := by
  unfold strike
  split
  · exact hs
  · next timbre ctx _ =>
    simp only
    split
    · exact hs
    · next hpos =>
      generalize hr : (if assignPolicy ctx.assignMode = .mono then monoRelease s p.toNat else s) = r
      have hinv : VoiceInv r := by
        rw [← hr]
        split
        · exact (monoRelease_sameShape s _).voiceInv hs
        · exact hs
      have hle := (popcount4_le (partialMask timbre)).trans hinv.atLeastFour
      obtain ⟨hfreed, henough⟩ := (stealVoices_steals hinv hle (hle.trans (Nat.le_add_left _ _))).after
      obtain ⟨_, _, -, hnote, -⟩ :=
        allocateNote_spec F p key vel timbre ctx _ hfreed (Nat.pos_of_ne_zero hpos) henough
      exact hnote

/-- A slot after the steps comes from the same slot before them. -/
theorem Stepped.slot_before {s t : State} (h : Stepped s t) {i : Nat} {q : Partial} (hq : t.partials[i]? = some q) :
    ∃ p : Partial, s.partials[i]? = some p ∧ q.owner = p.owner ∧ q.tIdx = p.tIdx ∧
      (p.st = .inactive → q.st = .inactive) := by
  have hi : i < s.partials.length := h.length ▸ (List.getElem?_eq_some_iff.mp hq).1
  obtain ⟨q', hq', hshape⟩ := h.slots i _ (List.getElem?_eq_getElem hi)
  cases hq.symm.trans hq'
  exact ⟨_, List.getElem?_eq_getElem hi, hshape⟩

/-- A voice that plays after the bookkeeping played before it, and names those of its partials that have not ended. -/
theorem bookkeep_voice_playing {t : State} {v : Nat} {y : Voice} (hy : (bookkeep t).voices[v]? = some y)
    (hyp : y.playing = true) :
    ∃ x, t.voices[v]? = some x ∧ x.playing = true ∧ y.partials = (clearVoice t x).partials ∧
      ∃ u i, y.partials.get u = some i := by
  rw [bookkeep_voice] at hy
  obtain ⟨x, hx, rfl⟩ := Option.map_eq_some_iff.mp hy
  cases hp : x.playing with
  | false =>
    rw [bookkeep_free t x hp, hp] at hyp
    cases hyp
  | true =>
    obtain ⟨e, -⟩ | ⟨e, hsome⟩ := bookkeep_playing t x hp
    · rw [e] at hyp
      cases hyp
    · rw [e]
      exact ⟨x, hx, hp, rfl, hsome⟩

/-- A voice that is free after the bookkeeping was free before it, or has been freed (44_mixer_render.md R285). -/
theorem bookkeep_voice_free {t : State} {v : Nat} {y : Voice} (hy : (bookkeep t).voices[v]? = some y)
    (hyp : y.playing = false) : t.voices[v]? = some y ∨ y = Voice.reset := by
  rw [bookkeep_voice] at hy
  obtain ⟨x, hx, rfl⟩ := Option.map_eq_some_iff.mp hy
  cases hp : x.playing with
  | false => exact .inl (by rw [bookkeep_free t x hp, hx])
  | true =>
    obtain ⟨e, -⟩ | ⟨e, -⟩ := bookkeep_playing t x hp
    · exact .inr e
    · rw [e] at hyp
      exact absurd hp (Bool.eq_false_iff.mp hyp)

/-- A playing voice that names a partial which has not ended plays on and still names it. -/
theorem bookkeep_voice_named {t : State} {v i : Nat} {x : Voice} {u : Fin 4} (hx : t.voices[v]? = some x)
    (hp : x.playing = true) (hi : x.partials.get u = some i) (hlive : t.partialSt i ≠ .inactive) :
    ∃ y, (bookkeep t).voices[v]? = some y ∧ y.playing = true ∧ y.partials.get u = some i := by
  refine ⟨ageVoice (freeVoice (clearVoice t x)), by rw [bookkeep_voice, hx]; rfl, ?_⟩
  obtain ⟨-, hended⟩ | ⟨e, -⟩ := bookkeep_playing t x hp
  · exact absurd (hended u i hi) hlive
  · rw [e]
    exact ⟨hp, (clearVoice_get t x hp u i).mpr ⟨hi, hlive⟩⟩

/-- The bookkeeping restores the invariants after steps that ended partials (44_mixer_render.md R284, R285). -/
theorem Stepped.bookkeep_voiceInv {s t : State} (h : Stepped s t) (hs : VoiceInv s) : VoiceInv (bookkeep t) where
  atLeastFour := hs.atLeastFour.trans_eq h.length.symm
  atMost255 := h.length.trans_le hs.atMost255
  voicesMatch := by
    rw [bookkeep, List.length_map, h.voices, hs.voicesMatch]
    exact h.length.symm
  namesSome v y hy hyp := by
    obtain ⟨_, -, -, -, hsome⟩ := bookkeep_voice_playing hy hyp
    exact hsome
  namesLive v y hy hyp u i hi := by
    obtain ⟨x, hx, hp, hpart, -⟩ := bookkeep_voice_playing hy hyp
    rw [hpart, clearVoice_get t x hp] at hi
    obtain ⟨hi, hlive⟩ := hi
    obtain ⟨p, hpi, -, howner, htidx⟩ := hs.namesLive v x (h.voices ▸ hx) hp u i hi
    obtain ⟨q, hq, hqo, hqt, -⟩ := h.slots i p hpi
    exact ⟨q, hq, partialSt_of t i q hq ▸ hlive, hqo.trans howner, hqt.trans htidx⟩
  freeNamesNone v y hy hyp u := by
    obtain hx | rfl := bookkeep_voice_free hy hyp
    · exact hs.freeNamesNone v y (h.voices ▸ hx) hyp u
    · exact quad_get_const none u
  liveNamed i q hq hlive := by
    obtain ⟨p, hpi, howner, htidx, hend⟩ := h.slot_before hq
    obtain ⟨x, hx, hp, hname⟩ := hs.liveNamed i p hpi fun e => hlive (hend e)
    rw [howner, htidx]
    exact bookkeep_voice_named (h.voices ▸ hx) hp hname (partialSt_of t i q hq ▸ hlive)

/-- A frame keeps the invariants (R281). -/
theorem frameStep_voiceInv (F : OpenFns) {s : State} (hs : VoiceInv s) : VoiceInv (frameStep F s) := by
  generalize hu : (if s.reverbDirty then reverbRecompute F s else s) = u
  have hinv : VoiceInv u := by
    rw [← hu]
    split
    · exact hs.congr rfl rfl
    · exact hs
  have hout : Stepped u (outputFrame F (stepPartials F u)) :=
    (stepPartials_stepped F u).trans ⟨rfl, rfl, fun _ p hp => ⟨p, hp, rfl, rfl, id⟩⟩
  have hframe : frameStep F s = bookkeep (outputFrame F (stepPartials F u)) := by rw [← hu]; rfl
  exact hframe ▸ hout.bookkeep_voiceInv hinv

theorem frames_voiceInv (F : OpenFns) (n : Nat) {s : State} (hs : VoiceInv s) : VoiceInv (frames F n s) := by
  induction n generalizing s with
  | zero => exact hs
  | succ n ih => exact ih (frameStep_voiceInv F hs)

theorem effect_voiceInv {s : State} (hs : VoiceInv s) (i : Instr) : VoiceInv (effect i s) := by
  have hslots := (effect_writesOnly i s).slots_kept
  cases i with
  | noteOn part key vel rsv => exact strike_voiceInv _ hs part key vel
  | noteOff part key rsv => exact releaseKey_voiceInv hs _ key
  | sustain part rsv on => exact setPedal_voiceInv hs _ _
  | allNotesOff part rsv => exact releaseWhere_voiceInv hs _
  | render rsv count => exact frames_voiceInv _ _ hs
  | programChange | blockWrite | blockRead | status | reserved0 | reservedAB | reservedCF =>
    exact hs.congr (hslots rfl).1 (hslots rfl).2

/-- Settles O46: every effect keeps the voice invariants, and rejects and the advance of `cp` touch no slot. -/
theorem voicesStayConsistent : Obligations.VoicesStayConsistent := fun _ _ hs h =>
  step_keeps (P := VoiceInv) (fun _ _ => hs.congr rfl rfl) (fun i _ => effect_voiceInv hs i)
    (fun _ _ hu => hu.congr rfl rfl) h

/-- Settles O40: each clause is an induction over the kills that stealing makes. -/
theorem stealingOldestFirst : Obligations.StealingOldestFirst := by
  intro s n hs hn
  have h : Steals n s (stealVoices n s.partials.length s) :=
    stealVoices_steals hs (hn.trans hs.atLeastFour) (hn.trans (hs.atLeastFour.trans (Nat.le_add_left _ _)))
  simp only [← freePartials_eq]
  exact ⟨h.after.1, h.after.2, h.eq_of_enough, h.voice, fun u w x y hx hp hu hy => h.oldestFirst hx hp hu hy,
    fun u x hx hp hu => h.stops_at_once hx hp hu, fun j p hp => h.slot hp⟩

end Sys2Proof.Machine
end

section
/-! PROOFS. What a voice captures (10_state.md R24): the operations that write a voice, and the range of the operands
that a note captures from a legal memory. -/

namespace Sys2Proof.Machine

/-! ## Effects on voices -/

/-- Every voice slot has a property. -/
def AllVoices (P : Voice → Prop) (s : State) : Prop := ∀ x ∈ s.voices, P x

/-- A property of voices that every write of a voice keeps, the start of a note apart. -/
structure VoiceKept (P : Voice → Prop) : Prop where
  reset : P Voice.reset
  released : ∀ x, P x → P (releasedVoice x)
  held : ∀ x : Voice, P x → P { x with pedalHeld := true }
  named : ∀ (x : Voice) (q : Quad (Option Nat)), P x → P { x with partials := q }
  aged : ∀ (x : Voice) (n : U32), P x → P { x with age := n }

section

variable {P : Voice → Prop} {s : State}

theorem allVoices_modify {f : Voice → Voice} (hf : ∀ x, P x → P (f x)) (h : AllVoices P s) (v : Nat) :
    ∀ x ∈ s.voices.modify v f, P x := by
  intro x hx
  obtain ⟨w, hw⟩ := List.getElem?_of_mem hx
  rw [List.getElem?_modify] at hw
  obtain ⟨y, hy, rfl⟩ := Option.map_eq_some_iff.mp hw
  have hPy := h y (List.mem_of_getElem? hy)
  by_cases hv : v = w
  · simpa [hv] using hf y hPy
  · simpa [hv] using hPy

theorem releaseVoice_allVoices (hP : VoiceKept P) (h : AllVoices P s) (v : Nat) : AllVoices P (releaseVoice s v) := by
  cases hx : s.voices[v]? with
  | none => simpa only [releaseVoice, hx] using h
  | some x =>
    rw [releaseVoice_eq s v x hx]
    exact allVoices_modify hP.released h v

theorem monoRelease_allVoices (hP : VoiceKept P) (h : AllVoices P s) (p : Nat) : AllVoices P (monoRelease s p) := by
  unfold monoRelease
  split
  · exact releaseVoice_allVoices hP h _
  · exact h

theorem killVoice_allVoices (hP : VoiceKept P) (h : AllVoices P s) (u : Nat) : AllVoices P (killVoice s u) := by
  cases hx : s.voices[u]? with
  | none => simpa only [killVoice, hx] using h
  | some x =>
    rw [killVoice_eq s u x hx]
    exact allVoices_modify (fun _ _ => hP.reset) h u

theorem stealVoices_allVoices (hP : VoiceKept P) (n fuel : Nat) (h : AllVoices P s) :
    AllVoices P (stealVoices n fuel s) := by
  induction fuel generalizing s with
  | zero => exact h
  | succ fuel ih =>
    unfold stealVoices
    split
    · split
      · exact ih (killVoice_allVoices hP h _)
      · exact h
    · exact h

theorem allocatePartial_allVoices (hP : VoiceKept P) (F : OpenFns) (timbre : List Byte) (ctx : PatchContext)
    (key vel : Byte) (v : Nat) (h : AllVoices P s) (t : Fin 4) :
    AllVoices P (allocatePartial F timbre ctx key vel v s t) := by
  unfold allocatePartial
  split
  · exact allVoices_modify (fun x => hP.named x _) h v
  · exact h

theorem allocateNote_allVoices (hP : VoiceKept P) (F : OpenFns) (p : BitVec 4) (key vel : Byte) (timbre : List Byte)
    (ctx : PatchContext) (hnew : P (newVoice s.mem p key vel timbre ctx)) (h : AllVoices P s) :
    AllVoices P (allocateNote F p key vel timbre ctx s) := by
  unfold allocateNote
  split
  · next v _ =>
    generalize allT = l
    have hstart : AllVoices P (s.modVoice v fun _ => newVoice s.mem p key vel timbre ctx) :=
      allVoices_modify (fun _ _ => hnew) h v
    generalize s.modVoice v (fun _ => newVoice s.mem p key vel timbre ctx) = u at hstart
    induction l generalizing u with
    | nil => exact hstart
    | cons t l ih => exact ih _ (allocatePartial_allVoices hP F timbre ctx key vel v hstart t)
  · exact h

/-- A note keeps what the writes of a voice keep, if it holds of the new voice; release and stealing leave the memory
that the note captures (43_voice_allocator.md R245, R250). -/
theorem strike_allVoices (hP : VoiceKept P) (F : OpenFns) (p : BitVec 4) (key vel : Byte)
    (hnew : ∀ timbre ctx, resolve s.mem p.toNat key = some (timbre, ctx) → P (newVoice s.mem p key vel timbre ctx))
    (h : AllVoices P s) : AllVoices P (strike F p key vel s) := by
  unfold strike
  split
  · exact h
  · next timbre ctx hres =>
    simp only
    split
    · exact h
    · have note : ∀ n u, SlotsOnly s u → AllVoices P u →
          AllVoices P (allocateNote F p key vel timbre ctx (stealVoices n u.partials.length u)) := by
        intro n u hu hk
        have hmem := congrArg State.mem (hu.trans (stealVoices_slotsOnly n u.partials.length u)).1
        exact allocateNote_allVoices hP F p key vel timbre ctx (hmem ▸ hnew _ _ hres) (stealVoices_allVoices hP _ _ hk)
      split
      · exact note _ _ (monoRelease_slotsOnly s _) (monoRelease_allVoices hP h _)
      · exact note _ _ (.refl s) h

theorem releaseWhere_allVoices (hP : VoiceKept P) (h : AllVoices P s) (m : Voice → Bool) :
    AllVoices P (releaseWhere s m) := by
  rw [releaseWhere_eq]
  refine List.forall_mem_map.mpr fun x hx => ?_
  split
  · exact hP.released x (h x hx)
  · exact h x hx

theorem releaseKey_allVoices (hP : VoiceKept P) (h : AllVoices P s) (p : Nat) (key : Byte) :
    AllVoices P (releaseKey p key s) := by
  unfold releaseKey
  split
  · refine List.forall_mem_map.mpr fun x hx => ?_
    split
    · exact hP.held x (h x hx)
    · exact h x hx
  · exact releaseWhere_allVoices hP h _

theorem setPedal_allVoices (hP : VoiceKept P) (h : AllVoices P s) (p : Nat) (on : Bool) :
    AllVoices P (setPedal p on s) := by
  cases on with
  | true => exact h
  | false => exact releaseWhere_allVoices (s := s.modPart p fun r => { r with pedal := false }) hP h _

/-- A frame frees, renames or ages a voice, and no more (44_mixer_render.md R284 to R286). -/
theorem frameStep_allVoices (hP : VoiceKept P) (F : OpenFns) (h : AllVoices P s) : AllVoices P (frameStep F s) := by
  have hvoices : ∀ u : State, u.voices = s.voices → AllVoices P (bookkeep (outputFrame F (stepPartials F u))) := by
    intro u hu
    refine List.forall_mem_map.mpr fun x hx => ?_
    have hx' : x ∈ s.voices := hu ▸ stepPartials_voices F u ▸ hx
    cases hp : x.playing with
    | false => exact (bookkeep_free _ x hp).symm ▸ h x hx'
    | true =>
      obtain ⟨e, -⟩ | ⟨e, -⟩ := bookkeep_playing (outputFrame F (stepPartials F u)) x hp
      · exact e ▸ hP.reset
      · rw [e]
        exact hP.aged _ (satU32 (x.age.toNat + 1)) (hP.named x (clearVoice _ x).partials (h x hx'))
  unfold frameStep
  split
  · exact hvoices _ rfl
  · exact hvoices s rfl

theorem frames_allVoices (hP : VoiceKept P) (F : OpenFns) (n : Nat) (h : AllVoices P s) :
    AllVoices P (frames F n s) := by
  induction n generalizing s with
  | zero => exact h
  | succ n ih => exact ih (frameStep_allVoices hP F h)

/-- A property that the writes of a voice keep is kept by every effect, if it holds of the voice a note starts. -/
theorem effect_allVoices (hP : VoiceKept P) {i : Instr}
    (hnew : ∀ part key vel rsv, i = .noteOn part key vel rsv → ∀ timbre ctx,
      resolve s.mem part.toNat key = some (timbre, ctx) → P (newVoice s.mem part key vel timbre ctx))
    (h : AllVoices P s) : AllVoices P (effect i s) := by
  have hslots := (effect_writesOnly i s).slots_kept
  cases i with
  | noteOn part key vel rsv => exact strike_allVoices hP _ part key vel (hnew part key vel rsv rfl) h
  | noteOff part key rsv => exact releaseKey_allVoices hP h _ key
  | sustain part rsv on => exact setPedal_allVoices hP h _ _
  | allNotesOff part rsv => exact releaseWhere_allVoices hP h _
  | render rsv count => exact frames_allVoices hP _ _ h
  | programChange | blockWrite | blockRead | status | reserved0 | reservedAB | reservedCF =>
    rw [AllVoices, (hslots rfl).1]
    exact h

end

/-! ## What a note captures -/

/-- A byte of a legal memory lies in its field's range (20_memory.md R83). -/
theorem MemInv.read_le {s : State} (hs : MemInv s) (r : Region) (n off : Nat) (hn : n < recordCount r)
    (ho : off < recordSize r) : (Memory.read s.mem (recordAddr r n + off)).toNat ≤ fieldMax r off := by
  have h := hs.legal _ (recordAddr_inside r n off hn ho)
  rwa [legal_record r n off _ hn ho, decide_eq_true_eq] at h

/-- As `MemInv.read_le`, of a byte of a record read as a block. -/
theorem MemInv.byteAt_le {s : State} (hs : MemInv s) (r : Region) (n off len : Nat) (hn : n < recordCount r)
    (ho : off < recordSize r) (hlen : off < len) :
    (byteAt (Memory.readBlock s.mem (recordAddr r n) len) off).toNat ≤ fieldMax r off := by
  rw [byteAt_readBlock _ _ _ _ hlen]
  exact hs.read_le r n off hn ho

/-- The context of a note is in range: key shift, output level and panpot (20_memory.md R74 to R76). -/
theorem MemInv.context_range {s : State} (hs : MemInv s) {p : Nat} {key : Byte} {timbre : List Byte}
    {ctx : PatchContext} (hkey : p = 8 → 24 ≤ key.toNat ∧ key.toNat ≤ 87) (hp : p ≤ 8)
    (h : resolve s.mem p key = some (timbre, ctx)) :
    ctx.keyShift.toNat ≤ 48 ∧ ctx.level.toNat ≤ 100 ∧ ctx.pan.toNat ≤ 14 := by
  unfold resolve at h
  split at h
  · next hmelodic =>
    cases h
    exact ⟨hs.byteAt_le .patchTemp p 2 16 hmelodic (by decide) (by decide),
      hs.byteAt_le .patchTemp p 8 16 hmelodic (by decide) (by decide),
      hs.byteAt_le .patchTemp p 9 16 hmelodic (by decide) (by decide)⟩
  · next hrhythm =>
    simp only [Config.rhythmPart] at hrhythm
    obtain ⟨hlow, hhigh⟩ := hkey (by omega)
    have hn : key.toNat - 24 < recordCount .rhythmTemp := by simp only [recordCount]; omega
    simp only at h
    split at h
    · cases h
    · cases h
      exact ⟨Nat.le_add_right 24 24, hs.byteAt_le .rhythmTemp _ 1 4 hn (by decide) (by decide),
        hs.byteAt_le .rhythmTemp _ 2 4 hn (by decide) (by decide)⟩

/-- The checks of NOTE_ON that a note has passed (43_voice_allocator.md R250). -/
theorem checkNoteOn_eq_none {part : BitVec 4} {key vel : Byte} {rsv : BitVec 8}
    (h : checkNoteOn part key vel rsv = none) :
    part.toNat ≤ 8 ∧ key.toNat ≤ 127 ∧ vel.toNat ≤ 127 ∧ (part.toNat = 8 → 24 ≤ key.toNat ∧ key.toNat ≤ 87) := by
  rw [checkNoteOn, firstReject_eq_none] at h
  simp only [List.forall_mem_cons, badPart, above127, isRhythm, outsideRhythmKeys, Config.rhythmPart,
    decide_eq_false_iff_not, Bool.and_eq_false_iff, Bool.or_eq_false_iff] at h
  omega

/-- The narrowing of a frequency loses nothing (10_state.md R26). -/
theorem toInt_toS32 {x : Int} (hlow : -(2 ^ 31) ≤ x) (hhigh : x < 2 ^ 31) : (toS32 x).toInt = x := by
  rw [toS32, BitVec.toInt_ofInt]
  exact Int.bmod_eq_of_le (by omega) (by omega)

theorem toInt_noteFreq (key : Byte) (ctx : PatchContext) :
    (noteFreq key ctx).toInt = key.toNat + ctx.keyShift.toNat - 24 :=
  toInt_toS32 (by omega) (by omega)

/-- A note struck with operands in range captures values in range (R245). -/
theorem newVoice_range {s : State} (hs : MemInv s) {part : BitVec 4} {key vel : Byte} {rsv : BitVec 8}
    (hcheck : checkNoteOn part key vel rsv = none) {timbre : List Byte} {ctx : PatchContext}
    (h : resolve s.mem part.toNat key = some (timbre, ctx)) :
    VoiceRange (newVoice s.mem part key vel timbre ctx) := by
  obtain ⟨hpart, hkey, hvel, hrhythm⟩ := checkNoteOn_eq_none hcheck
  obtain ⟨hshift, hlevel, hpan⟩ := hs.context_range hrhythm hpart h
  have hfreq := toInt_noteFreq key ctx
  exact {
    part := by
      simp only [newVoice, BitVec.toNat_setWidth]
      omega
    key := hkey
    velocity := hvel
    level := hlevel
    pan := hpan
    masterVol := hs.read_le .system 0 22 (by decide) (by decide)
    freqLow := by
      simp only [newVoice]
      omega
    freqHigh := by
      simp only [newVoice]
      omega }

/-- The range of what a voice captures is a matter of what only a note writes. -/
theorem voiceRange_kept : VoiceKept VoiceRange where
  reset := by constructor <;> decide
  released _ h := ⟨h.part, h.key, h.velocity, h.level, h.pan, h.masterVol, h.freqLow, h.freqHigh⟩
  held _ h := ⟨h.part, h.key, h.velocity, h.level, h.pan, h.masterVol, h.freqLow, h.freqHigh⟩
  named _ _ h := ⟨h.part, h.key, h.velocity, h.level, h.pan, h.masterVol, h.freqLow, h.freqHigh⟩
  aged _ _ h := ⟨h.part, h.key, h.velocity, h.level, h.pan, h.masterVol, h.freqLow, h.freqHigh⟩

/-- Settles O47: a note captures operands that passed its checks and bytes of a legal memory, and nothing else writes
what a voice captures. -/
theorem voiceFieldsStayInRange : Obligations.VoiceFieldsStayInRange := by
  intro s t hmem hs h
  refine step_keeps (P := AllVoices VoiceRange) (fun _ _ => hs) (fun i hcheck => ?_) (fun _ _ hu => hu) h
  refine effect_allVoices voiceRange_kept ?_ hs
  rintro part key vel rsv rfl timbre ctx hres
  exact newVoice_range hmem hcheck hres

end Sys2Proof.Machine
end

section
/-! PROOFS. The partner of a partial (10_state.md R29) and one whole step of a partial (42_partial.md R197 to R206); and
what the earlier lemmas and the definitions give at once: `cp`, STATUS, the laws of the OPEN functions. -/

namespace Sys2Proof.Machine

/-! ## The partner -/

/-- The partner of a partial: the live slot that its voice names at the partner index of its cache. -/
theorem partnerSlot_eq_some {s : State} {p pj : Partial} :
    partnerSlot s p = some pj ↔
      ∃ q x j, p.cache.partner = some q ∧ s.voices[p.owner]? = some x ∧ x.partials.get q = some j ∧
        s.partials[j]? = some pj ∧ pj.st ≠ .inactive := by
  unfold partnerSlot
  constructor
  · intro h
    split at h
    · next q x hq hx =>
      split at h
      · next j hj =>
        split at h
        · next pk hpk =>
          split at h
          · next hlive =>
            cases h
            exact ⟨q, x, j, hq, hx, hj, hpk, hlive⟩
          · cases h
        · cases h
      · cases h
    · cases h
  · rintro ⟨q, x, j, hq, hx, hj, hpj, hlive⟩
    simp only [hq, hx, hj, hpj, if_pos hlive]

/-- Settles O32: the partner is a slot that the owning voice names, and a playing voice names its own slots at their
indices. -/
theorem partnerOfSameVoice : Obligations.PartnerOfSameVoice := by
  refine ⟨fun s p => ⟨fun q x j pj hq hx hj hpj hlive =>
    partnerSlot_eq_some.mpr ⟨q, x, j, hq, hx, hj, hpj, hlive⟩, fun hnone => ?_, fun q x hq hx hdead => ?_⟩, ?_⟩
  · refine Option.eq_none_iff_forall_ne_some.mpr fun pj h => ?_
    obtain ⟨q, _, _, hq, -⟩ := partnerSlot_eq_some.mp h
    exact absurd (hnone.symm.trans hq) (by simp)
  · refine Option.eq_none_iff_forall_ne_some.mpr fun pj h => ?_
    obtain ⟨q', x', j, hq', hx', hj, hpj, hlive⟩ := partnerSlot_eq_some.mp h
    cases hq.symm.trans hq'
    cases hx.symm.trans hx'
    exact hlive (hdead j pj hj hpj)
  · intro s i p pj hs hp hlive h
    obtain ⟨q, x, j, hq, hx, hj, hpj, hpl⟩ := partnerSlot_eq_some.mp h
    obtain ⟨y, hy, hplaying, -⟩ := hs.liveNamed i p hp hlive
    cases hx.symm.trans hy
    obtain ⟨pk, hpk, -, howner, htidx⟩ := hs.namesLive _ x hx hplaying q j hj
    cases hpj.symm.trans hpk
    exact ⟨hpl, howner, htidx ▸ hq⟩

/-! ## One step of a partial -/

theorem bendOf_off {s : State} {p : Partial} (h : p.cache.benderOn = false) : bendOf s p = 0 := by
  unfold bendOf
  rw [h]
  rfl

theorem bendOf_on {s : State} {p : Partial} {x : Voice} {g : PartRegs} (h : p.cache.benderOn = true)
    (hx : s.voices[p.owner]? = some x) (hg : s.parts[x.part.toNat]? = some g) : bendOf s p = g.bend := by
  simp only [bendOf, h, hx, hg, if_true]

theorem oscStep_synth (F : OpenFns) {s : State} {p : Partial} (inc : U32) (h : p.cache.pcm = false) :
    oscStep F s p inc = synthStep F s.sr p inc := by
  simp only [oscStep, h, Bool.false_eq_true, if_false]

theorem oscStep_pcm (F : OpenFns) {s : State} {p : Partial} {w : PcmWave} (inc : U32) (h : p.cache.pcm = true)
    (hw : s.pcm[p.cache.pcmWave.toNat]? = some w) : oscStep F s p inc = pcmStep s.rom w p inc := by
  simp only [oscStep, h, hw, if_true]

/-- The slave of a pair of mix 1 or 2 is ring-modulated by its partner (R202). -/
theorem combine_slave {s : State} {p pj : Partial} (x : S16) (hpartner : partnerSlot s p = some pj)
    (hmix : p.cache.mix = 1 ∨ p.cache.mix = 2) (hpos : p.cache.structPos = 1) : combine s p x = ring pj.raw x := by
  simp only [combine, if_pos (And.intro hmix hpos), hpartner]

/-- A master, a partial of mix 0 or 3 and one without a partner pass their sample on (R202). -/
theorem combine_other {s : State} {p : Partial} (x : S16)
    (h : p.cache.structPos = 0 ∨ p.cache.mix = 0 ∨ p.cache.mix = 3 ∨ partnerSlot s p = none) :
    combine s p x = x := by
  unfold combine
  split
  · next hslave =>
    have hnone : partnerSlot s p = none := by
      obtain ⟨hmix, hpos⟩ := hslave
      obtain h | h | h | h := h
      · omega
      · omega
      · omega
      · exact h
    rw [hnone]
  · rfl

/-- The master of a pair of mix 2 is muted while it has a partner (R204). -/
theorem ampOut_muted (F : OpenFns) {s : State} {p pj : Partial} (l : S32) (y : S16)
    (hpartner : partnerSlot s p = some pj) (hmix : p.cache.mix = 2) (hpos : p.cache.structPos = 0) :
    ampOut F s p l y = 0 := by
  rw [ampOut, if_pos ⟨hmix, hpos, by rw [hpartner]; rfl⟩]

/-- Every other partial is amplified (R204). -/
theorem ampOut_other (F : OpenFns) {s : State} {p : Partial} (l : S32) (y : S16)
    (h : p.cache.structPos = 1 ∨ p.cache.mix ≠ 2 ∨ partnerSlot s p = none) :
    ampOut F s p l y = fTva F s.sr p.cache l y := by
  rw [ampOut, if_neg]
  rintro ⟨hmix, hpos, hsome⟩
  obtain h | h | h := h
  · omega
  · exact h hmix
  · rw [h] at hsome
    cases hsome

/-- The sample that is the ring product for a slave with a partner, and the raw sample otherwise, is the filter's
input. -/
theorem combine_unique {s : State} {p : Partial} {raw x : S16}
    (hslave : ∀ pj, partnerSlot s p = some pj → p.cache.mix = 1 ∨ p.cache.mix = 2 → p.cache.structPos = 1 →
      x = ring pj.raw raw)
    (hother : p.cache.structPos = 0 ∨ p.cache.mix = 0 ∨ p.cache.mix = 3 ∨ partnerSlot s p = none → x = raw) :
    x = combine s p raw := by
  cases hpartner : partnerSlot s p with
  | none => rw [hother (by simp [hpartner]), combine_other raw (by simp [hpartner])]
  | some pj =>
    by_cases hpos : p.cache.structPos = 1
    · by_cases hmix : p.cache.mix = 1 ∨ p.cache.mix = 2
      · rw [hslave pj hpartner hmix hpos, combine_slave raw hpartner hmix hpos]
      · have hmix : p.cache.mix = 0 ∨ p.cache.mix = 3 := by omega
        rw [hother (by tauto), combine_other raw (by tauto)]
    · have hpos : p.cache.structPos = 0 := by omega
      rw [hother (.inl hpos), combine_other raw (.inl hpos)]

/-- Settles O31: the step's fields are those of the oscillator, the combination, the filter and the amplifier, each by
its own rule. -/
theorem pairRules : Obligations.PairRules := by
  intro F s p c T r lfoVal inc
  have hosc : (⟨r.raw, r.phase, r.pcmPos, r.pcmFrac, r.pcmEnded⟩ : OscStep) = oscStep F s p inc := rfl
  refine ⟨rfl, bendOf_off, fun hon x g hx hg => bendOf_on hon hx hg, fun hsynth => ?_, fun hpcm w hw => ?_,
    fun x hslave hother => ?_, fun x y l => ⟨fun pj hpj => ⟨combine_slave x hpj, ampOut_muted F l y hpj⟩,
      combine_other x, ampOut_other F l y⟩⟩
  · rw [oscStep_synth F inc hsynth] at hosc
    obtain ⟨hraw, hphase, hpos, hfrac, hended⟩ := OscStep.mk.inj hosc
    exact ⟨hraw, by rw [hphase, BitVec.toNat_add], hpos, hfrac, hended⟩
  · rw [hosc, oscStep_pcm F inc hpcm hw]
  · obtain rfl : x = combine s p r.raw := combine_unique hslave hother
    exact ⟨rfl, fun pj hpj => ampOut_muted F _ _ hpj, ampOut_other F _ _⟩

/-! ## `cp`, STATUS, the OPEN functions -/

/-- Settles O7: every command keeps `cp` and the stream but for the advance by its length. -/
theorem cpAdvancesByLength : Obligations.CpAdvancesByLength :=
  ⟨rfl, fun _ _ _ h => ⟨(exec_filesKept h).cp, (exec_filesKept h).stream⟩⟩

/-- Settles O17: with its reserved bits 0 a STATUS passes its checks, and the live count is the number of slots that are
not INACTIVE. -/
theorem statusPushes : Obligations.StatusPushes := by
  intro s clear
  have hcount : activePartials s = (s.partials.filter fun p => decide (p.st ≠ .inactive)).length :=
    List.countP_eq_length_filter
  rw [← hcount]
  by_cases hclear : clear = 1
  · subst hclear
    rfl
  · have hbeq : (clear == 1#1) = false := beq_eq_false_iff_ne.mpr hclear
    simp only [exec, execStatus, hbeq, if_neg hclear]
    rfl

/-- Settles O21: the wrappers clamp where a law fails, and leave a value that has its law. -/
theorem openFunctionLaws : Obligations.OpenFunctionLaws := by
  intro F
  refine ⟨fun sr => ⟨rfl, rfl, rfl, rfl, rfl, rfl⟩, fun _ => rfl, fun rate sr h => max_eq_right h, fun sr x h => ?_,
    fun sr c l y h => if_neg (not_le.mpr h), fun sr v l m h => if_neg h, fun rate sr => le_max_left _ _,
    fun sr x hkind => ?_, fun sr c l y h => if_pos h, fun _ _ _ => rfl⟩
  · exact if_neg fun ⟨hkind, hneg⟩ => absurd (h hkind) (not_le.mpr hneg)
  · simp only [fEnvLevel]
    split
    · exact le_rfl
    · next h => exact not_lt.mp fun hneg => h ⟨hkind, hneg⟩

end Sys2Proof.Machine
end

section
/-! PROOFS. Construction (70_reset_and_hazards.md R330 to R333): what a successful one has checked, the invariants of
the state it yields, and the state after reset as one of them. -/

namespace Sys2Proof.Machine

/-- Inversion of `construct`: every check passed, and the state is the reset table's (R307, R333). -/
theorem construct_ok {F : OpenFns} {x : ConstructArgs} {s : State} (h : construct F x = .ok s) :
    (Config.maxPartialsMin ≤ x.maxPartials ∧ x.maxPartials ≤ Config.maxPartialsMax) ∧
    (Config.srMin ≤ x.sr ∧ x.sr ≤ Config.srMax) ∧
    (x.pcm.length = Config.numPcmWaves ∧ ∀ e ∈ x.pcm, waveOk x.rom.length e = true) ∧
    (x.img.length = Config.memSize ∧ allLegal 0 x.img = true) ∧
    s = State.constructed (fRs0 F x.sr) x.maxPartials x.sr x.rom (x.pcm.map clampLoop) (Memory.ofImage 0 x.img) := by
  unfold construct checkPcm at h
  split at h
  · cases h
  · next hsize =>
    split at h
    · cases h
    · next hrate =>
      split at h
      · cases h
      · next pcm hpcm =>
        split at h
        · next himage =>
          cases h
          split at hpcm
          · next hok =>
            cases hpcm
            simp only [checkImage, Bool.and_eq_true, decide_eq_true_eq] at himage
            exact ⟨by omega, by omega, ⟨hok.1, List.all_eq_true.mp hok.2⟩, himage, rfl⟩
          · cases hpcm
        · cases h

/-- A malformed entry apart, the clamp leaves a wave whose loop starts inside it (R331). -/
theorem clampLoop_waveInv {romSize : Nat} {e : PcmWave} (h : waveOk romSize e = true) :
    WaveInv romSize (clampLoop e) := by
  simp only [waveOk, Bool.and_eq_true, decide_eq_true_eq] at h
  obtain ⟨hlen, hrom⟩ := h
  unfold clampLoop
  split
  · exact ⟨hlen, hrom, Nat.sub_lt hlen Nat.one_pos⟩
  · next hloop => exact ⟨hlen, hrom, not_le.mp hloop⟩

/-! ## The reset table -/

section

variable {rs0 : RevState} {n sr : Nat} {rom : List S16} {pcm : List PcmWave} {mem : Memory}

/-- Every voice slot of the reset table is free. -/
theorem constructed_voice {v : Nat} {x : Voice}
    (h : (State.constructed rs0 n sr rom pcm mem).voices[v]? = some x) : x = Voice.reset :=
  List.eq_of_mem_replicate (List.mem_of_getElem? h)

/-- Every partial slot of the reset table is INACTIVE. -/
theorem constructed_partial {i : Nat} {p : Partial}
    (h : (State.constructed rs0 n sr rom pcm mem).partials[i]? = some p) : p = Partial.reset :=
  List.eq_of_mem_replicate (List.mem_of_getElem? h)

theorem constructed_voiceInv (hlow : Config.maxPartialsMin ≤ n) (hhigh : n ≤ Config.maxPartialsMax) :
    VoiceInv (State.constructed rs0 n sr rom pcm mem) where
  atLeastFour := hlow.trans_eq List.length_replicate.symm
  atMost255 := List.length_replicate.trans_le hhigh
  voicesMatch := List.length_replicate.trans List.length_replicate.symm
  namesSome v x hx hp := by
    cases constructed_voice hx
    cases hp
  namesLive v x hx hp := by
    cases constructed_voice hx
    cases hp
  freeNamesNone v x hx _ t := by
    cases constructed_voice hx
    exact quad_get_const none t
  liveNamed i p hp hlive := by
    cases constructed_partial hp
    exact absurd rfl hlive

/-- No slot of the reset table plays a wave. -/
theorem constructed_pcmInv (hsize : pcm.length = Config.numPcmWaves) (hwaves : ∀ w ∈ pcm, WaveInv rom.length w) :
    PcmInv (State.constructed rs0 n sr rom pcm mem) where
  tableSize := hsize
  waves := hwaves
  position i p w hp hpcm := by
    cases constructed_partial hp
    cases hpcm

theorem constructed_fileInv (hlow : Config.srMin ≤ sr) (hhigh : sr ≤ Config.srMax) :
    FileInv (State.constructed rs0 n sr rom pcm mem) where
  nineParts := List.length_replicate
  noBend r hr := by rw [List.eq_of_mem_replicate hr]; rfl
  rateLow := hlow
  rateHigh := hhigh
  cpInside := le_rfl

theorem constructed_counterInv : ∀ p ∈ (State.constructed rs0 n sr rom pcm mem).partials, CounterInv p := by
  intro p hp
  cases List.eq_of_mem_replicate hp
  have hdone : phaseInside EnvUnit.reset blankEnvDef := phaseInside_of_ne_atk (fun _ => EnvPhase.noConfusion)
  exact ⟨le_rfl, Nat.one_pos, hdone, hdone, hdone⟩

theorem constructed_voiceRange : ∀ y ∈ (State.constructed rs0 n sr rom pcm mem).voices, VoiceRange y := by
  intro y hy
  cases List.eq_of_mem_replicate hy
  exact voiceRange_kept.reset

end

/-- The memory of a legal image reads as the image and is legal (20_memory.md R83). -/
theorem ofImage_memInv {s : State} {img : List Byte} (hmem : s.mem = Memory.ofImage 0 img)
    (hsize : img.length = Config.memSize) (hlegal : allLegal 0 img = true) : MemInv s where
  canonical := hmem ▸ wf_ofImage img 0
  inside c hc := by
    have h := (mem_ofImage img 0 c (hmem ▸ hc)).2
    omega
  legal a ha := by
    have h := (allLegal_iff img 0).mp hlegal a (hsize ▸ ha)
    rw [hmem, read_ofImage, if_pos ⟨Nat.zero_le a, by omega⟩]
    simpa using h

/-- Settles O55, from the checks that a successful construction has made. -/
theorem constructionYieldsReset : Obligations.ConstructionYieldsReset := by
  intro F x s h
  obtain ⟨⟨hmin, hmax⟩, ⟨hlow, hhigh⟩, ⟨hsize, hwaves⟩, ⟨himg, hlegal⟩, rfl⟩ := construct_ok h
  refine ⟨rfl, rfl, rfl, rfl, List.length_replicate, fun p hp => List.eq_of_mem_replicate hp, rfl, fun a ha => ?_, rfl,
    rfl, rfl, rfl, rfl, rfl, rfl, rfl, rfl, ofImage_memInv rfl himg hlegal, constructed_voiceInv hmin hmax,
    constructed_pcmInv (by rw [List.length_map, hsize]) ?_, constructed_fileInv hlow hhigh, constructed_counterInv,
    constructed_voiceRange⟩
  · have hin : a < x.img.length := ha.trans_eq himg.symm
    simp only [State.constructed]
    rw [read_ofImage, if_pos ⟨Nat.zero_le a, by omega⟩, Nat.sub_zero, List.getD_eq_getElem _ _ hin,
      List.getElem?_eq_getElem hin]
  · exact List.forall_mem_map.mpr fun e he => clampLoop_waveInv (hwaves e he)

/-! ## The state after reset -/

/-- The model's wave table passes its check as it is: its loops start inside their waves. -/
theorem checkPcm_resetPcm : checkPcm resetPcm resetRom.length = some resetPcm := by
  have hok : ∀ e ∈ resetPcm, waveOk resetRom.length e = true := by
    intro e he
    rw [List.eq_of_mem_replicate he]
    decide
  rw [checkPcm, if_pos ⟨List.length_replicate, List.all_eq_true.mpr hok⟩, resetPcm, List.map_replicate]
  rfl

/-- Settles O56: the model's arguments pass every check, and the all-zero image lists nothing. -/
theorem resetIsConstructed : Obligations.ResetIsConstructed := by
  have himage : checkImage (List.replicate 0x10347 0) = true := by
    rw [checkImage, List.length_replicate, allLegal_zero 0 0x10347 (Nat.le_refl _)]
    rfl
  unfold Obligations.ResetIsConstructed construct
  rw [if_neg (by decide), if_neg (by decide), checkPcm_resetPcm]
  simp only [himage, if_true]
  rw [show Memory.ofImage 0 (List.replicate 0x10347 0) = [] from ofImage_zero _ 0]
  rfl

/-- Settles O57: reset is a construction, and a construction establishes every invariant. -/
theorem invariantsHoldAtReset : Obligations.InvariantsHoldAtReset := by
  obtain ⟨-, -, -, -, -, -, -, -, -, -, -, -, -, -, -, -, -, hinv⟩ :=
    constructionYieldsReset _ _ _ resetIsConstructed
  exact hinv

end Sys2Proof.Machine
end

section
/-! PROOFS. Which commands write each register (10_state.md R22, R23, R34, R35, R40), and that no command reads the
queues (R35). -/

namespace Sys2Proof.Machine

/-! ## The writers of each register -/

namespace WritesOnly

variable {i : Instr} {s t : State}

/-- No effect writes a construction argument (R40). -/
theorem construction_kept (h : WritesOnly i s t) : t.sr = s.sr ∧ t.rom = s.rom ∧ t.pcm = s.pcm := by
  cases i <;> exact ⟨(congrArg State.sr h :), (congrArg State.rom h :), (congrArg State.pcm h :)⟩

theorem mem_writers (h : WritesOnly i s t) (hne : t.mem ≠ s.mem) :
    (∃ rsv addr rsvLen n data, i = .blockWrite rsv addr rsvLen n data) ∨
      ∃ part patch rsv, i = .programChange part patch rsv := by
  cases i with
  | blockWrite => exact .inl ⟨_, _, _, _, _, rfl⟩
  | programChange => exact .inr ⟨_, _, _, rfl⟩
  | _ => exact absurd (congrArg State.mem h :) hne

theorem parts_writers (h : WritesOnly i s t) (hne : t.parts ≠ s.parts) : ∃ part rsv on, i = .sustain part rsv on := by
  cases i with
  | sustain => exact ⟨_, _, _, rfl⟩
  | _ => exact absurd (congrArg State.parts h :) hne

theorem slots_writers (h : WritesOnly i s t) (hne : t.voices ≠ s.voices ∨ t.partials ≠ s.partials) :
    (∃ part key vel rsv, i = .noteOn part key vel rsv) ∨ (∃ part key rsv, i = .noteOff part key rsv) ∨
      (∃ part rsv on, i = .sustain part rsv on) ∨ (∃ part rsv, i = .allNotesOff part rsv) ∨
      ∃ rsv count, i = .render rsv count := by
  have hkept := h.slots_kept
  cases i with
  | noteOn => exact .inl ⟨_, _, _, _, rfl⟩
  | noteOff => exact .inr (.inl ⟨_, _, _, rfl⟩)
  | sustain => exact .inr (.inr (.inl ⟨_, _, _, rfl⟩))
  | allNotesOff => exact .inr (.inr (.inr (.inl ⟨_, _, rfl⟩)))
  | render => exact .inr (.inr (.inr (.inr ⟨_, _, rfl⟩)))
  | programChange | blockWrite | blockRead | status | reserved0 | reservedAB | reservedCF =>
    exact absurd hne (not_or.mpr ⟨not_not.mpr (hkept rfl).1, not_not.mpr (hkept rfl).2⟩)

theorem status_writers (h : WritesOnly i s t) (hne : t.status ≠ s.status) : ∃ rsv clear, i = .status rsv clear := by
  cases i with
  | status => exact ⟨_, _, rfl⟩
  | _ => exact absurd (congrArg State.status h :) hne

theorem reverbDirty_writers (h : WritesOnly i s t) (hne : t.reverbDirty ≠ s.reverbDirty) :
    (∃ rsv addr rsvLen n data, i = .blockWrite rsv addr rsvLen n data) ∨ ∃ rsv count, i = .render rsv count := by
  cases i with
  | blockWrite => exact .inl ⟨_, _, _, _, _, rfl⟩
  | render => exact .inr ⟨_, _, rfl⟩
  | _ => exact absurd (congrArg State.reverbDirty h :) hne

theorem readQ_writers (h : WritesOnly i s t) (hne : t.readQ ≠ s.readQ) :
    (∃ rsv addr rsvLen n, i = .blockRead rsv addr rsvLen n) ∨ ∃ rsv clear, i = .status rsv clear := by
  cases i with
  | blockRead => exact .inl ⟨_, _, _, _, rfl⟩
  | status => exact .inr ⟨_, _, rfl⟩
  | _ => exact absurd (congrArg State.readQ h :) hne

/-- RENDER alone writes the audio queue and the reverb's coefficients and state (R34, R35). -/
theorem audio_writers (h : WritesOnly i s t) (hne : t.audioQ ≠ s.audioQ ∨ t.rc ≠ s.rc ∨ t.rs ≠ s.rs) :
    ∃ rsv count, i = .render rsv count := by
  cases i with
  | render => exact ⟨_, _, rfl⟩
  | _ =>
    obtain hne | hne | hne := hne
    · exact absurd (congrArg State.audioQ h :) hne
    · exact absurd (congrArg State.rc h :) hne
    · exact absurd (congrArg State.rs h :) hne

end WritesOnly

/-- A STATUS that does not clear keeps the status register (40_memory_commands.md R145). -/
theorem effect_status_cleared {s : State} {rsv : BitVec 27} {clear : BitVec 1}
    (hne : (effect (.status rsv clear) s).status ≠ s.status) : clear = 1 := by
  by_contra hclear
  apply hne
  have hbeq : (clear == 1#1) = false := beq_eq_false_iff_ne.mpr hclear
  simp only [effect, hbeq]
  rfl

/-- A pedal is set before its voices are released (43_voice_allocator.md R252). -/
theorem setPedal_slotsOnly (p : Nat) (on : Bool) (s : State) :
    SlotsOnly (s.modPart p fun r => { r with pedal := on }) (setPedal p on s) := by
  cases on with
  | true => exact .refl _
  | false => exact releaseWhere_slotsOnly _ _

/-- No effect adds or removes a slot. -/
theorem effect_lengths (i : Instr) (s : State) :
    (effect i s).voices.length = s.voices.length ∧ (effect i s).partials.length = s.partials.length := by
  have hkept := (effect_writesOnly i s).slots_kept
  cases i with
  | noteOn part key vel rsv => exact (strike_slotsOnly _ part key vel s).2
  | noteOff part key rsv => exact (releaseKey_slotsOnly _ key s).2
  | sustain part rsv on => exact (setPedal_slotsOnly _ _ s).2
  | allNotesOff part rsv => exact (releaseWhere_slotsOnly s _).2
  | render rsv count => exact ⟨(frames_frameOnly _ _ s).voices, (frames_frameOnly _ _ s).partials⟩
  | programChange | blockWrite | blockRead | status | reserved0 | reservedAB | reservedCF =>
    exact ⟨congrArg List.length (hkept rfl).1, congrArg List.length (hkept rfl).2⟩

/-- Settles O59: a reject writes the status register and `cp`, and each effect the registers of its row. -/
theorem writersOfEachRegister : Obligations.WritersOfEachRegister := by
  intro i s t h
  have hbends := (exec_filesKept h).bends
  obtain ⟨c, rfl⟩ | ⟨-, rfl⟩ := exec_next h
  · exact ⟨⟨rfl, rfl, rfl, rfl, rfl, hbends⟩, absurd rfl, absurd rfl, Or.rec (absurd rfl) (absurd rfl),
      fun _ => .inl ⟨c, rfl⟩, absurd rfl, absurd rfl, absurd rfl, Or.rec (absurd rfl) (absurd rfl)⟩
  · have hw := effect_writesOnly i s
    obtain ⟨hsr, hrom, hpcm⟩ := hw.construction_kept
    obtain ⟨hvoices, hpartials⟩ := effect_lengths i s
    refine ⟨⟨hsr, hrom, hpcm, hvoices, hpartials, hbends⟩, hw.mem_writers, hw.parts_writers, hw.slots_writers,
      fun hne => .inr ?_, hw.reverbDirty_writers, hw.readQ_writers, fun hne => hw.audio_writers (.inl hne),
      fun hne => hw.audio_writers (.inr hne)⟩
    obtain ⟨rsv, clear, rfl⟩ := hw.status_writers hne
    cases effect_status_cleared hne
    exact ⟨rsv, rfl⟩

/-! ## The queues -/

/-- `s` with other queues. -/
def withQueues (s : State) (q : List Word) (a : List Frame) : State := { s with readQ := q, audioQ := a }

/-- An operation that neither reads nor writes the queues. -/
def QueueFree (f : State → State) : Prop := ∀ s q a, f (withQueues s q a) = withQueues (f s) q a

/-- An operation that does not read the queues, and writes them by pushing alone. -/
def QueuePush (f : State → State) : Prop :=
  ∀ s q a, ∃ (dq : List Word) (da : List Frame), (f s).readQ = s.readQ ++ dq ∧ (f s).audioQ = s.audioQ ++ da ∧
    f (withQueues s q a) = withQueues (f s) (q ++ dq) (a ++ da)

/-- An operation that does not read the queues leaves them. -/
theorem QueueFree.push {f : State → State} (hf : QueueFree f) : QueuePush f := by
  intro s q a
  have hself : f s = withQueues (f s) s.readQ s.audioQ := hf s s.readQ s.audioQ
  refine ⟨[], [], ?_, ?_, ?_⟩
  · rw [hself, List.append_nil]
    rfl
  · rw [hself, List.append_nil]
    rfl
  · rw [List.append_nil, List.append_nil]
    exact hf s q a

theorem QueueFree.foldl {α : Type} {f : State → α → State} (hf : ∀ x, QueueFree fun s => f s x) (l : List α) :
    QueueFree fun s => l.foldl f s :=
  fun _ q a => List.foldl_hom (fun u => withQueues u q a) fun u x => hf x u q a

theorem releaseVoice_queueFree (v : Nat) : QueueFree fun s => releaseVoice s v := by
  intro s q a
  cases hx : s.voices[v]? with
  | none =>
    have hx' : (withQueues s q a).voices[v]? = none := hx
    simp only [releaseVoice, hx, hx']
  | some x =>
    have hx' : (withQueues s q a).voices[v]? = some x := hx
    simp only [releaseVoice_eq _ v x hx, releaseVoice_eq _ v x hx']
    rfl

theorem killVoice_queueFree (u : Nat) : QueueFree fun s => killVoice s u := by
  intro s q a
  cases hx : s.voices[u]? with
  | none =>
    have hx' : (withQueues s q a).voices[u]? = none := hx
    simp only [killVoice, hx, hx']
  | some x =>
    have hx' : (withQueues s q a).voices[u]? = some x := hx
    simp only [killVoice_eq _ u x hx, killVoice_eq _ u x hx']
    rfl

theorem monoRelease_queueFree (p : Nat) : QueueFree fun s => monoRelease s p := by
  intro s q a
  simp only [monoRelease, show (withQueues s q a).voices = s.voices from rfl]
  split
  · exact releaseVoice_queueFree _ s q a
  · rfl

theorem stealVoices_queueFree (n fuel : Nat) : QueueFree (stealVoices n fuel) := by
  intro s q a
  induction fuel generalizing s with
  | zero => rfl
  | succ fuel ih =>
    simp only [stealVoices, show freePartials (withQueues s q a) = freePartials s from rfl,
      show (withQueues s q a).voices = s.voices from rfl]
    split
    · split
      · next u _ => exact (congrArg _ (killVoice_queueFree u s q a)).trans (ih _)
      · rfl
    · rfl

theorem allocatePartial_queueFree (F : OpenFns) (timbre : List Byte) (ctx : PatchContext) (key vel : Byte) (v : Nat)
    (t : Fin 4) : QueueFree fun s => allocatePartial F timbre ctx key vel v s t := by
  intro s q a
  simp only [allocatePartial, show lowestFreePartial (withQueues s q a) = lowestFreePartial s from rfl,
    show (withQueues s q a).sr = s.sr from rfl, show (withQueues s q a).pcm = s.pcm from rfl,
    show (withQueues s q a).mem = s.mem from rfl]
  split <;> rfl

theorem allocateNote_queueFree (F : OpenFns) (p : BitVec 4) (key vel : Byte) (timbre : List Byte)
    (ctx : PatchContext) : QueueFree (allocateNote F p key vel timbre ctx) := by
  intro s q a
  simp only [allocateNote, show lowestFreeVoice (withQueues s q a) = lowestFreeVoice s from rfl]
  split
  · next v _ =>
    exact QueueFree.foldl (allocatePartial_queueFree F timbre ctx key vel v) allT
      (s.modVoice v fun _ => newVoice s.mem p key vel timbre ctx) q a
  · rfl

theorem strike_queueFree (F : OpenFns) (p : BitVec 4) (key vel : Byte) : QueueFree (strike F p key vel) := by
  intro s q a
  simp only [strike, show (withQueues s q a).mem = s.mem from rfl]
  split
  · rfl
  · next timbre ctx _ =>
    have note : ∀ n u, allocateNote F p key vel timbre ctx
          (stealVoices n (withQueues u q a).partials.length (withQueues u q a)) =
        withQueues (allocateNote F p key vel timbre ctx (stealVoices n u.partials.length u)) q a := fun n u =>
      (congrArg _ (stealVoices_queueFree n _ u q a)).trans (allocateNote_queueFree F p key vel timbre ctx _ q a)
    split
    · rfl
    · split
      · have hmono : monoRelease (withQueues s q a) p.toNat = withQueues (monoRelease s p.toNat) q a :=
          monoRelease_queueFree p.toNat s q a
        rw [hmono]
        exact note _ _
      · exact note _ s

theorem releaseWhere_queueFree (m : Voice → Bool) : QueueFree fun s => releaseWhere s m := by
  intro s q a
  simp only [releaseWhere_eq]
  rfl

theorem releaseKey_queueFree (p : Nat) (key : Byte) : QueueFree (releaseKey p key) := by
  intro s q a
  simp only [releaseKey, show pedalOf (withQueues s q a) p = pedalOf s p from rfl]
  split
  · rfl
  · exact releaseWhere_queueFree _ s q a

theorem setPedal_queueFree (p : Nat) (on : Bool) : QueueFree (setPedal p on) := by
  intro s q a
  cases on with
  | true => rfl
  | false => exact releaseWhere_queueFree _ (s.modPart p fun r => { r with pedal := false }) q a

theorem readBytes_queuePush (addr n : Nat) : QueuePush (readBytes addr n) :=
  fun _ _ _ => ⟨_, [], rfl, (List.append_nil _).symm, by rw [List.append_nil]; rfl⟩

theorem pushStatus_queuePush (clear : Bool) : QueuePush (pushStatus clear) := by
  intro s q a
  refine ⟨[statusWord s], [], ?_⟩
  rw [List.append_nil, List.append_nil]
  cases clear with
  | true => exact ⟨rfl, rfl, rfl⟩
  | false => exact ⟨rfl, rfl, rfl⟩

/-- A rendering pushes its frames, whatever stands in the queues before (44_mixer_render.md R280). -/
theorem frames_queuePush (F : OpenFns) (n : Nat) : QueuePush (frames F n) := by
  intro s q a
  obtain ⟨pushed, hpushed, houter⟩ := frames_withOuter F n s (withQueues s q a) rfl
  have hrest := (frames_frameOnly F n s).rest
  refine ⟨[], pushed, ?_, hpushed, ?_⟩
  · rw [hrest, List.append_nil]
  · rw [List.append_nil]
    refine houter.trans ?_
    rw [hrest]
    rfl

theorem effect_queuePush (i : Instr) : QueuePush (effect i) := by
  cases i with
  | noteOn part key vel rsv => exact (strike_queueFree _ part key vel).push
  | noteOff part key rsv => exact (releaseKey_queueFree _ key).push
  | sustain part rsv on => exact (setPedal_queueFree _ _).push
  | programChange part patch rsv => exact QueueFree.push fun _ _ _ => by simp only [effect, withQueues]
  | allNotesOff part rsv => exact (releaseWhere_queueFree _).push
  | blockWrite rsv addr rsvLen n data => exact QueueFree.push fun _ _ _ => rfl
  | blockRead rsv addr rsvLen n => exact readBytes_queuePush _ _
  | render rsv count => exact frames_queuePush _ _
  | status rsv clear => exact pushStatus_queuePush _
  | reserved0 | reservedAB | reservedCF => exact QueueFree.push fun _ _ _ => rfl

/-- Settles O60: neither the checks nor an effect reads the queues, and an effect writes them by pushing alone. -/
theorem queuesAreNeverRead : Obligations.QueuesAreNeverRead := by
  intro i s t q a h
  rw [show ({ s with readQ := q, audioQ := a } : State) = withQueues s q a from rfl]
  rw [exec_eq] at h ⊢
  split at h
  · cases h
  · next hshort =>
    rw [if_neg hshort]
    cases hcheck : checkOf i with
    | some c =>
      rw [hcheck] at h
      cases h
      refine ⟨[], [], (List.append_nil _).symm, (List.append_nil _).symm, ?_⟩
      rw [List.append_nil, List.append_nil]
      rfl
    | none =>
      rw [hcheck] at h
      cases h
      obtain ⟨dq, da, hread, haudio, heq⟩ := effect_queuePush i s q a
      refine ⟨dq, da, hread, haudio, ?_⟩
      rw [command_none, heq]
      rfl

end Sys2Proof.Machine
end

section
/-! PROOFS. The parameter memory (20_memory.md, 40_memory_commands.md): its layout, its legality, which every step keeps,
the blocks that are written and read back, and the copies of PROGRAM_CHANGE. -/

namespace Sys2Proof.Machine

/-! ## The layout (20_memory.md R72 to R82) -/

/-- A list repeated is read at the remainder. -/
theorem getD_flatten_replicate {α : Type} (l : List α) (d : α) (m k : Nat) (h : k < m * l.length) :
    (List.replicate m l).flatten.getD k d = l.getD (k % l.length) d := by
  induction m generalizing k with
  | zero => omega
  | succ m ih =>
    rw [List.replicate_succ, List.flatten_cons]
    by_cases hk : k < l.length
    · rw [List.getD_append _ _ _ _ hk, Nat.mod_eq_of_lt hk]
    · rw [Nat.succ_mul] at h
      rw [List.getD_append_right _ _ _ _ (not_lt.mp hk), ih _ (by omega), ← Nat.mod_eq_sub_mod (not_lt.mp hk)]

/-- The ranges of a timbre record are those of its common block and of four partial blocks (R79). -/
theorem timbreMax_eq (off : Nat) (h : off < 246) :
    timbreMax off = (timbreCommonMax ++ (List.replicate 4 timbrePartialMax).flatten).getD off 0 := by
  have hcommon : timbreCommonMax.length = 14 := rfl
  have hpartial : timbrePartialMax.length = 58 := rfl
  unfold timbreMax
  split
  · next hlow => rw [List.getD_append _ _ _ _ (hcommon ▸ hlow)]
  · next hhigh =>
    rw [List.getD_append_right _ _ _ _ (by omega), getD_flatten_replicate _ _ _ _ (by omega), hcommon, hpartial]

theorem decodeAddr_eq_none_iff (a : Nat) : decodeAddr a = none ↔ Config.memSize ≤ a := by
  unfold decodeAddr
  split
  · next hin => simpa using hin
  · next hout => simpa using hout

/-- What an address decodes to is the one byte of a record that it is (R73). -/
theorem decodeAddr_eq_some {a : Nat} {r : Region} {n off : Nat} (h : decodeAddr a = some (r, n, off)) :
    a < Config.memSize ∧ n < recordCount r ∧ off < recordSize r ∧ recordAddr r n + off = a := by
  have hin : a < Config.memSize := by
    by_contra hout
    rw [(decodeAddr_eq_none_iff a).mpr (not_lt.mp hout)] at h
    cases h
  obtain ⟨r', n', off', hn, hoff, ha⟩ := decodeAddr_inside a hin
  rw [← ha, decodeAddr_record r' n' off' hn hoff] at h
  cases h
  exact ⟨hin, hn, hoff, ha⟩

/-- Settles O13: a byte of a record decodes to its record and offset, and its field's range stands in the region's
table. -/
theorem addressDecode : Obligations.AddressDecode := by
  unfold Obligations.AddressDecode
  intro patch patchTemp rhythmTemp common block timbre system
  have htimbre : ∀ off, off < 246 → timbreMax off = timbre.getD off 0 := timbreMax_eq
  refine ⟨fun n off b => ⟨fun hn ho => ?_, fun hn ho => ?_, fun hn ho => ?_, fun hn ho => ?_, fun hn ho => ?_,
    fun ho => ?_⟩, fun n => ⟨recordAddr_patchTemp n, rfl, rfl, rfl, rfl, rfl⟩, rfl, decodeAddr_record,
    fun a r n off => decodeAddr_eq_some, decodeAddr_eq_none_iff⟩
  · rw [← recordAddr_patchTemp, legal_record .patchTemp n off b hn ho]
    rfl
  · rw [← recordAddr_rhythmTemp, legal_record .rhythmTemp n off b hn ho]
    rfl
  · rw [← recordAddr_timbreTemp, legal_record .timbreTemp n off b hn ho, fieldMax, htimbre off ho]
  · rw [← recordAddr_patches, legal_record .patches n off b hn ho]
    rfl
  · rw [← recordAddr_timbres, legal_record .timbres n off b hn ho, fieldMax, htimbre off ho]
  · exact legal_record .system 0 off b Nat.one_pos ho

/-! ## What a command that is applied has checked -/

/-- A command that has arrived whole and passes its checks has its whole effect (60_exceptions.md R304). -/
theorem exec_applied (i : Instr) (hshort : dataShort i = false) (hcheck : checkOf i = none) (s : State) :
    exec i s = .next ((effect i s).advance i.length) := by
  rw [exec_eq, hshort, hcheck]
  rfl

theorem unusedDataBits_eq_false_iff (data : List Word) (n : BitVec 16) :
    unusedDataBits data n = false ↔
      (n.toNat % 4 ≠ 0 → data.getD (dataWords n - 1) 0 >>> (8 * (n.toNat % 4)) = 0) := by
  simp only [unusedDataBits, Bool.and_eq_false_imp, bne_iff_ne, bne_eq_false_iff_eq]
  rfl

/-- The checks of BLOCK_WRITE, each by itself (40_memory_commands.md R142). -/
theorem checkBlockWrite_eq_none_iff (rsv : BitVec 4) (addr : BitVec 24) (rsvLen n : BitVec 16) (data : List Word) :
    checkBlockWrite rsv addr rsvLen n data = none ↔
      (rsv = 0 ∧ rsvLen = 0 ∧ unusedDataBits data n = false) ∧ addr.toNat + n.toNat ≤ Config.memSize ∧
        allLegal addr.toNat (unpackBytes data n.toNat) = true := by
  rw [checkBlockWrite, firstReject_eq_none]
  simp only [List.forall_mem_cons, List.not_mem_nil, false_imp_iff, implies_true, and_true, Bool.or_eq_false_iff,
    bne_eq_false_iff_eq, badAddress, decide_eq_false_iff_not, not_lt, Bool.not_eq_false', and_assoc]
  rfl

/-- The checks of BLOCK_READ (R143). -/
theorem checkBlockRead_eq_none_iff (rsv : BitVec 4) (addr : BitVec 24) (rsvLen n : BitVec 16) :
    checkBlockRead rsv addr rsvLen n = none ↔
      (rsv = 0 ∧ rsvLen = 0) ∧ addr.toNat + n.toNat ≤ Config.memSize := by
  rw [checkBlockRead, firstReject_eq_none]
  simp only [List.forall_mem_cons, List.not_mem_nil, false_imp_iff, implies_true, and_true, Bool.or_eq_false_iff,
    bne_eq_false_iff_eq, badAddress, decide_eq_false_iff_not, not_lt, and_assoc]
  rfl

/-- The checks of PROGRAM_CHANGE (43_voice_allocator.md R253). -/
theorem checkProgramChange_eq_none_iff (part : BitVec 4) (patch : Byte) (rsv : BitVec 16) :
    checkProgramChange part patch rsv = none ↔ rsv = 0 ∧ part.toNat ≤ 7 ∧ patch.toNat ≤ 127 := by
  rw [checkProgramChange, firstReject_eq_none]
  simp only [List.forall_mem_cons, List.not_mem_nil, false_imp_iff, implies_true, and_true, bne_eq_false_iff_eq,
    badPart, isRhythm, above127, Config.rhythmPart, decide_eq_false_iff_not]
  refine and_congr_right fun _ => ?_
  omega

/-! ## Legal memories -/

theorem lt_memSize_of_legal {a : Nat} {b : Byte} (h : legal a b = true) : a < Config.memSize := by
  by_contra hout
  rw [legal_outside a b (not_lt.mp hout)] at h
  cases h

namespace MemInv

variable {s t : State}

theorem of_mem_eq (hs : MemInv s) (h : t.mem = s.mem) : MemInv t where
  canonical := h ▸ hs.canonical
  inside := h ▸ hs.inside
  legal := h ▸ hs.legal

/-- A block that is legal where it is written keeps the memory legal (20_memory.md R83). -/
theorem of_writeBlock (hs : MemInv s) {addr : Nat} {bytes : List Byte} (hlegal : allLegal addr bytes = true)
    (h : t.mem = Memory.writeBlock s.mem addr bytes) : MemInv t where
  canonical := h ▸ wf_writeBlock bytes s.mem addr hs.canonical
  inside c hc := by
    obtain ⟨hlow, hhigh⟩ | hold := mem_writeBlock bytes s.mem addr c (h ▸ hc)
    · have hbyte := (allLegal_iff bytes addr).mp hlegal (c.1 - addr) (by omega)
      rw [Nat.add_sub_cancel' hlow] at hbyte
      exact lt_memSize_of_legal hbyte
    · exact hs.inside c hold
  legal a ha := by
    rw [h, read_writeBlock bytes s.mem addr a hs.canonical]
    split
    · next hin =>
      have hbyte := (allLegal_iff bytes addr).mp hlegal (a - addr) (by omega)
      rwa [Nat.add_sub_cancel' hin.1] at hbyte
    · exact hs.legal a ha

/-- Bytes of a record are legal in a record whose fields have the same ranges. -/
theorem allLegal_readBlock (hs : MemInv s) {r r' : Region} {n n' len : Nat} (hn : n < recordCount r)
    (hn' : n' < recordCount r') (hlen : len ≤ recordSize r) (hlen' : len ≤ recordSize r')
    (hmax : ∀ off, off < len → fieldMax r' off = fieldMax r off) :
    allLegal (recordAddr r' n') (Memory.readBlock s.mem (recordAddr r n) len) = true := by
  rw [allLegal_iff, length_readBlock]
  intro off hoff
  rw [legal_record r' n' off _ hn' (hoff.trans_le hlen'), getD_readBlock _ _ _ _ hoff, hmax off hoff,
    decide_eq_true_eq]
  exact hs.read_le r n off hn (hoff.trans_le hlen)

/-- A patch of a legal memory selects one of the 256 timbres (R84). -/
theorem timbreIndex_lt (hs : MemInv s) {n : Nat} (hn : n < recordCount .patches) :
    timbreIndex (Memory.readBlock s.mem (recordAddr .patches n) 8) < recordCount .timbres := by
  have hgroup : _ ≤ 3 := hs.byteAt_le .patches n 0 8 hn (by decide) (by decide)
  have hnum : _ ≤ 63 := hs.byteAt_le .patches n 1 8 hn (by decide) (by decide)
  simp only [timbreIndex, recordCount]
  omega

/-- Both copies of a PROGRAM_CHANGE are of bytes into a record with the same ranges (R75, R79, R253). -/
theorem of_loadPatch (hs : MemInv s) {p n : Nat} (hp : p ≤ 7) (hn : n ≤ 127)
    (h : t.mem = loadPatch s.mem p n) : MemInv t := by
  have hn : n < recordCount .patches := Nat.lt_succ_of_le hn
  have hpatch := hs.allLegal_readBlock (r' := .patchTemp) (len := 8) hn (Nat.lt_succ_of_le hp) (by decide) (by decide)
    fieldMax_patch
  have hs1 : MemInv { s with mem := _ } := hs.of_writeBlock hpatch rfl
  have htimbre := hs1.allLegal_readBlock (r' := .timbreTemp) (len := 246) (hs.timbreIndex_lt hn)
    (Nat.lt_succ_of_le hp) (by decide) (by decide) fun off _ => fieldMax_timbre off
  exact hs1.of_writeBlock htimbre h

end MemInv

/-- An effect writes the memory by a legal block or by a PROGRAM_CHANGE, or not at all. -/
theorem effect_memInv {s : State} (hs : MemInv s) {i : Instr} (hcheck : checkOf i = none) : MemInv (effect i s) := by
  by_cases hmem : (effect i s).mem = s.mem
  · exact hs.of_mem_eq hmem
  obtain ⟨rsv, addr, rsvLen, n, data, rfl⟩ | ⟨part, patch, rsv, rfl⟩ := (effect_writesOnly i s).mem_writers hmem
  · obtain ⟨-, -, hlegal⟩ := (checkBlockWrite_eq_none_iff _ _ _ _ _).mp hcheck
    exact hs.of_writeBlock hlegal rfl
  · obtain ⟨-, hpart, hpatch⟩ := (checkProgramChange_eq_none_iff _ _ _).mp hcheck
    exact hs.of_loadPatch hpart hpatch (by simp only [effect])

/-- Settles O18: a reject and the advance of `cp` leave the memory, and every effect keeps it legal. -/
theorem memoryStaysLegal : Obligations.MemoryStaysLegal := by
  intro s t hs h
  exact step_keeps (P := MemInv) (fun _ _ => hs.of_mem_eq rfl) (fun _ => effect_memInv hs)
    (fun _ _ hu => hu.of_mem_eq rfl) h

/-! ## Blocks (40_memory_commands.md R142, R143) -/

/-- A BLOCK_WRITE that passes its checks (R142). -/
theorem exec_blockWrite_applied {addr : BitVec 24} {n : BitVec 16} {data : List Word}
    (hlen : data.length = dataWords n) (hcheck : checkBlockWrite 0 addr 0 n data = none) (s : State) :
    exec (.blockWrite 0 addr 0 n data) s =
      .next ((writeBytes addr.toNat (unpackBytes data n.toNat) s).advance (2 + dataWords n)) :=
  exec_applied (.blockWrite 0 addr 0 n data) (decide_eq_false (Nat.not_lt.mpr hlen.ge)) hcheck s

/-- Settles O14: the write passes its checks, and a block write is read back at its own addresses alone. -/
theorem blockWriteStores : Obligations.BlockWriteStores := by
  intro s addr n data hwf hlen hunused haddr hlegal
  have hcheck : checkBlockWrite 0 addr 0 n data = none :=
    (checkBlockWrite_eq_none_iff _ _ _ _ _).mpr
      ⟨⟨rfl, rfl, (unusedDataBits_eq_false_iff data n).mpr hunused⟩, haddr, (allLegal_unpackBytes _ _ _).mpr hlegal⟩
  have hread := fun a => read_writeBlock (unpackBytes data n.toNat) s.mem addr.toNat a hwf
  simp only [unpackBytes_length] at hread
  refine ⟨Memory.writeBlock s.mem addr.toNat (unpackBytes data n.toNat), ?_, wf_writeBlock _ _ _ hwf,
    fun k hk => ?_, fun a ha => ?_⟩
  · rw [exec_blockWrite_applied hlen hcheck]
    simp only [writeBytes, State.advance, touchesReverb, unpackBytes_length, Bool.decide_and, Bool.and_assoc]
    rfl
  · rw [hread, if_pos ⟨Nat.le_add_right _ _, Nat.add_lt_add_left hk _⟩, Nat.add_sub_cancel_left,
      unpackBytes_getD _ _ _ hk]
  · rw [hread, if_neg (by omega)]

/-- Reading back a block that was written. -/
theorem readBlock_writeBlock (m : Memory) (addr : Nat) (bytes : List Byte) (h : Memory.wf m = true) :
    Memory.readBlock (Memory.writeBlock m addr bytes) addr bytes.length = bytes := by
  refine List.ext_getElem (length_readBlock _ _ _) fun k hk hk' => ?_
  rw [← List.getD_eq_getElem _ 0 hk, getD_readBlock _ _ _ _ hk', read_writeBlock _ _ _ _ h,
    if_pos ⟨Nat.le_add_right _ _, Nat.add_lt_add_left hk' _⟩, Nat.add_sub_cancel_left, List.getD_eq_getElem _ 0 hk']

/-- A word with no bit from `lo` up has the byte 0 at every place from `lo` up. -/
theorem field_eq_zero_of_shift {w : Word} {lo lo' : Nat} (h : w >>> lo = 0) (hlo : lo ≤ lo') (len : Nat) :
    field w lo' len = 0 := by
  have hw : w.toNat < 2 ^ lo := by
    have hdiv := congrArg BitVec.toNat h
    rw [BitVec.toNat_ushiftRight, Nat.shiftRight_eq_div_pow] at hdiv
    exact (Nat.div_eq_zero_iff.mp hdiv).resolve_left (by positivity)
  apply BitVec.eq_of_toNat_eq
  rw [field_toNat, Nat.div_eq_of_lt (hw.trans_le (Nat.pow_le_pow_right Nat.two_pos hlo)), Nat.zero_mod]
  rfl

/-- Data words with no unused bit set are what their bytes are packed to (20_memory.md R99, 30_encoding.md R118). -/
theorem packBytes_unpackBytes {data : List Word} {n : BitVec 16} (hlen : data.length = dataWords n)
    (hunused : unusedDataBits data n = false) : packBytes (unpackBytes data n.toNat) = data := by
  rw [unusedDataBits_eq_false_iff] at hunused
  have hlen' : data.length = (n.toNat + 3) / 4 := hlen
  refine List.ext_getElem (by rw [packBytes_length, unpackBytes_length, hlen']) fun j hj hj' => ?_
  rw [← List.getD_eq_getElem _ 0 hj, ← List.getD_eq_getElem _ 0 hj']
  refine word_ext _ _ fun r hr => ?_
  have hbyte := packBytes_byte (unpackBytes data n.toNat) (4 * j + r) (by rw [unpackBytes_length]; omega)
  rw [show (4 * j + r) / 4 = j by omega, show (4 * j + r) % 4 = r by omega] at hbyte
  refine hbyte.trans ?_
  by_cases hk : 4 * j + r < n.toNat
  · rw [unpackBytes_getD _ _ _ hk, show (4 * j + r) / 4 = j by omega, show (4 * j + r) % 4 = r by omega]
    rfl
  · have hlast : dataWords n - 1 = j := by rw [← hlen]; omega
    rw [List.getD_eq_default _ _ (by rw [unpackBytes_length]; omega)]
    exact (field_eq_zero_of_shift (hlast ▸ hunused (by omega)) (by omega) 8).symm

/-- A BLOCK_WRITE with no cause of a reject passes its checks (60_exceptions.md R301). -/
theorem checkBlockWrite_of_no_cause {rsv : BitVec 4} {addr : BitVec 24} {rsvLen n : BitVec 16} {data : List Word}
    (h : ∀ c, ¬hasCause (.blockWrite rsv addr rsvLen n data) c) : checkBlockWrite rsv addr rsvLen n data = none := by
  have hbits := h .reservedBits
  have haddr := h .badAddress
  have hparam := h .illegalParam
  simp only [hasCause, reduceCtorEq, true_and, false_and, or_false, false_or, not_or, not_and, not_not, not_lt,
    not_exists, Bool.not_eq_false] at hbits haddr hparam
  obtain ⟨hrsv, hrsvLen, hunused⟩ := hbits
  exact (checkBlockWrite_eq_none_iff _ _ _ _ _).mpr ⟨⟨hrsv, hrsvLen, (unusedDataBits_eq_false_iff data n).mpr hunused⟩,
    haddr, (allLegal_unpackBytes _ _ _).mpr hparam⟩

/-- Settles O16: the read gets back the bytes written, and packs them to the data words they came from. -/
theorem blockRoundTrip : Obligations.BlockRoundTrip := by
  intro s t addr n data hwf hwell hcause h
  have hlen : data.length = dataWords n := eq_of_beq hwell
  have hcheck := checkBlockWrite_of_no_cause hcause
  obtain ⟨⟨-, -, hunused⟩, haddr, -⟩ := (checkBlockWrite_eq_none_iff _ _ _ _ _).mp hcheck
  have hread : checkBlockRead 0 addr 0 n = none := (checkBlockRead_eq_none_iff _ _ _ _).mpr ⟨⟨rfl, rfl⟩, haddr⟩
  rw [exec_blockWrite_applied hlen hcheck] at h
  cases h
  refine ⟨_, exec_applied (.blockRead 0 addr 0 n) rfl hread _, ?_⟩
  have hback := readBlock_writeBlock s.mem addr.toNat (unpackBytes data n.toNat) hwf
  rw [unpackBytes_length] at hback
  simp only [effect, readBytes, writeBytes, advance_readQ, advance_mem, hback, packBytes_unpackBytes hlen hunused]

/-! ## The copies of PROGRAM_CHANGE (43_voice_allocator.md R253) -/

/-- Settles O44: the command passes its checks, and the two copies are read at their own addresses alone. -/
theorem programChangeCopies : Obligations.ProgramChangeCopies := by
  intro s part patch hwf hpart hpatch p from_ ti
  have hread := read_loadPatch s.mem p patch.toNat ti hwf hpart rfl
  refine ⟨loadPatch s.mem p patch.toNat, ?_, wf_loadPatch _ _ _ hwf, fun k hk => ?_, fun k hk => ?_,
    fun a hpatchTemp htimbreTemp => ?_⟩
  · have hcheck : checkProgramChange part patch 0 = none :=
      (checkProgramChange_eq_none_iff _ _ _).mpr ⟨rfl, hpart, hpatch⟩
    rw [exec_applied (.programChange part patch 0) rfl hcheck]
    simp only [effect, State.advance, Instr.length, p]
  · have hbelow : p ≤ 7 := hpart
    rw [hread, if_neg (by omega), if_pos (by omega), Nat.add_sub_cancel_left]
  · rw [hread, if_pos (by omega), Nat.add_sub_cancel_left]
  · rw [hread, if_neg htimbreTemp, if_neg hpatchTemp]

end Sys2Proof.Machine
end

section
/-! PROOFS. The PCM fetch (42_partial.md R200): where it reads the ROM and where it leaves the position, and the position of
every PCM partial, which every step keeps inside its wave (20_memory.md R98). -/

namespace Sys2Proof.Machine

/-! ## One fetch -/

/-- The advanced position of a fetch in units of 1/65536 sample, before it is folded into a loop (R200). -/
def pcmTotal (p : Partial) (inc : U32) : Nat := p.pcmPos * 65536 + p.pcmFrac.toNat + inc.toNat

theorem pcmStep_ended (rom : List S16) (w : PcmWave) {p : Partial} (inc : U32) (h : p.pcmEnded = true) :
    pcmStep rom w p inc = ⟨0, p.phase, p.pcmPos, p.pcmFrac, true⟩ := if_pos h

theorem pcmStep_running (rom : List S16) (w : PcmWave) {p : Partial} (inc : U32) (h : p.pcmEnded = false) :
    pcmStep rom w p inc =
      ⟨romAt rom (w.addr + p.pcmPos), p.phase, pcmFold w (pcmTotal p inc / 65536),
        BitVec.ofNat 16 (pcmTotal p inc % 65536), decide (w.len ≤ pcmTotal p inc / 65536) && !w.loop⟩ :=
  if_neg (Bool.eq_false_iff.mp h)

/-- A position inside the wave stays as it is. -/
theorem pcmFold_inside {w : PcmWave} {pos : Nat} (h : pos < w.len) : pcmFold w pos = pos :=
  if_neg fun ⟨hout, _⟩ => absurd hout (not_le.mpr h)

/-- A position past the end of a looping wave is folded into its loop. -/
theorem pcmFold_loop {w : PcmWave} {pos : Nat} (h : w.len ≤ pos) (hloop : w.loop = true) :
    pcmFold w pos = w.loopStart + (pos - w.loopStart) % (w.len - w.loopStart) := if_pos ⟨h, hloop⟩

/-- The folded position of a wave that goes on lies inside the wave: the loop ends where the wave does. -/
theorem pcmFold_lt {n : Nat} {w : PcmWave} (hw : WaveInv n w) {pos : Nat} (h : pos < w.len ∨ w.loop = true) :
    pcmFold w pos < w.len := by
  by_cases hin : pos < w.len
  · rwa [pcmFold_inside hin]
  · rw [pcmFold_loop (not_lt.mp hin) (h.resolve_left hin)]
    have hstart := hw.loopInside
    have hmod := Nat.mod_lt (pos - w.loopStart) (Nat.sub_pos_of_lt hstart)
    omega

/-- A fetch leaves the position inside the wave, or the wave ended (R200). -/
theorem pcmStep_inside {rom : List S16} {w : PcmWave} (hw : WaveInv rom.length w) {p : Partial} {inc : U32}
    (h : (pcmStep rom w p inc).pcmEnded = false) : (pcmStep rom w p inc).pcmPos < w.len := by
  cases hended : p.pcmEnded with
  | true =>
    rw [pcmStep_ended rom w inc hended] at h
    cases h
  | false =>
    rw [pcmStep_running rom w inc hended] at h ⊢
    simp only [Bool.and_eq_false_imp, decide_eq_true_eq, Bool.not_eq_false'] at h
    exact pcmFold_lt hw ((Nat.lt_or_ge _ _).imp_right h)

/-- A sample of a wave is a sample of the ROM (20_memory.md R98). -/
theorem romAt_wave {rom : List S16} {w : PcmWave} (hw : WaveInv rom.length w) {pos : Nat} (h : pos < w.len) :
    rom[w.addr + pos]? = some (romAt rom (w.addr + pos)) := by
  have hin : w.addr + pos < rom.length := (Nat.add_lt_add_left h _).trans_le hw.inRom
  rw [romAt, List.getD_eq_getElem _ _ hin, List.getElem?_eq_getElem hin]

/-- Settles O28: the fields of a running fetch, each by the rule of its case. -/
theorem pcmFetchInRange : Obligations.PcmFetchInRange := by
  intro rom w p inc r total pos
  refine ⟨pcmStep_ended rom w inc, fun hw hrun hpos => ?_⟩
  have hr : r = _ := pcmStep_running rom w inc hrun
  have hended : r.pcmEnded = (decide (w.len ≤ pos) && !w.loop) := congrArg OscStep.pcmEnded hr
  have hfold : r.pcmPos = pcmFold w pos := congrArg OscStep.pcmPos hr
  refine ⟨?_, congrArg OscStep.phase hr, ?_, fun hin => ⟨?_, ?_⟩, fun hout hloop => ⟨?_, ?_⟩, fun hout hloop => ?_,
    pcmStep_inside hw⟩
  · rw [congrArg OscStep.sample hr]
    exact romAt_wave hw hpos
  · rw [congrArg OscStep.pcmFrac hr, BitVec.toNat_ofNat]
    exact Nat.mod_mod total 65536
  · rw [hfold, pcmFold_inside hin]
  · rw [hended, decide_eq_false (not_le.mpr hin), Bool.false_and]
  · rw [hfold, pcmFold_loop hout hloop]
  · rw [hended, hloop, Bool.not_true, Bool.and_false]
  · rw [hended, hloop, decide_eq_true hout]
    rfl

/-! ## The positions of the partials -/

/-- The position of a partial that plays a wave of the table and has not ended lies inside the wave. -/
def PositionInside (pcm : List PcmWave) (p : Partial) : Prop :=
  ∀ w, p.cache.pcm = true → pcm[p.cache.pcmWave.toNat]? = some w → p.pcmEnded = false → p.pcmPos < w.len

theorem releasePartial_positionInside {pcm : List PcmWave} (p : Partial) (h : PositionInside pcm p) :
    PositionInside pcm (releasePartial p) := by
  unfold releasePartial
  split
  · exact h
  · exact h

/-- A fresh slot stands at the first sample of its wave, and no wave is empty. -/
theorem startedPartial_positionInside {n : Nat} {pcm : List PcmWave} (hwaves : ∀ w ∈ pcm, WaveInv n w) (v : Nat)
    (t : Fin 4) (c : PatchCache) : PositionInside pcm (startedPartial v t c) :=
  fun w _ hw _ => (hwaves w (List.mem_of_getElem? hw)).nonEmpty

/-- A step of a PCM partial writes its position by the fetch of its wave alone (R206 step 3). -/
theorem steppedPartial_positionInside (F : OpenFns) {s : State} (hwaves : ∀ w ∈ s.pcm, WaveInv s.rom.length w)
    (p : Partial) : PositionInside s.pcm (steppedPartial F s p) := by
  intro w hpcm hw
  obtain ⟨inc, hended, hpos⟩ : ∃ inc, (steppedPartial F s p).pcmEnded = (oscStep F s p inc).pcmEnded ∧
      (steppedPartial F s p).pcmPos = (oscStep F s p inc).pcmPos := ⟨_, rfl, rfl⟩
  rw [hended, hpos, oscStep_pcm F (p := p) inc hpcm hw]
  exact pcmStep_inside (hwaves w (List.mem_of_getElem? hw))

/-- The PCM invariant slot by slot. -/
theorem pcmInv_iff (s : State) :
    PcmInv s ↔ s.pcm.length = Config.numPcmWaves ∧ (∀ w ∈ s.pcm, WaveInv s.rom.length w) ∧
      AllPartials (PositionInside s.pcm) s := by
  constructor
  · intro h
    refine ⟨h.tableSize, h.waves, fun p hp w => ?_⟩
    obtain ⟨i, hi⟩ := List.getElem?_of_mem hp
    exact h.position i p w hi
  · rintro ⟨hsize, hwaves, hpos⟩
    exact ⟨hsize, hwaves, fun i p w hp => hpos p (List.mem_of_getElem? hp) w⟩

theorem effect_pcmInv {s : State} (hs : PcmInv s) (i : Instr) : PcmInv (effect i s) := by
  obtain ⟨hsize, hwaves, hpos⟩ := (pcmInv_iff s).mp hs
  obtain ⟨-, hrom, hpcm⟩ := (effect_writesOnly i s).construction_kept
  rw [pcmInv_iff, hrom, hpcm]
  refine ⟨hsize, hwaves, effect_keepsPartials releasePartial_positionInside (fun _ h => h) s
    (fun _ _ _ _ _ v _ q c _ => startedPartial_positionInside hwaves v q c) (fun u p _ hrom hpcm _ => ?_) hpos i⟩
  rw [← hpcm]
  exact steppedPartial_positionInside _ (hpcm ▸ hrom ▸ hwaves) p

/-- Settles O29: a reject and the advance of `cp` leave the partials, and a partial's position is written by its start
and by its fetch alone. -/
theorem pcmPositionsStayInside : Obligations.PcmPositionsStayInside := by
  intro s t hs h
  exact step_keeps (P := PcmInv) (fun _ _ => ⟨hs.tableSize, hs.waves, hs.position⟩) (fun i _ => effect_pcmInv hs i)
    (fun _ _ hu => ⟨hu.tableSize, hu.waves, hu.position⟩) h

end Sys2Proof.Machine
end

section
/-! PROOFS. The encoding (30_encoding.md): the fields of each format's words, the two round trips of `decode` and
`encode`, what the opcode and the length word decide, and when the words of a command have not all arrived; the block
read and the reserved opcodes. -/

namespace Sys2Proof.Machine

/-! ## The words of each format, field by field (R112, R116, R117) -/

section

variable {a b : Nat} (x : BitVec a) (y : BitVec b)

/-- Bits are two values side by side exactly when their upper and their lower part are those values. -/
theorem extract_eq_append_iff {n : Nat} (w : BitVec n) (lo : Nat) :
    w.extractLsb' lo (a + b) = x ++ y ↔ w.extractLsb' (lo + b) a = x ∧ w.extractLsb' lo b = y := by
  rw [← BitVec.extractLsb'_append_extractLsb'_eq_extractLsb' rfl]
  constructor
  · intro h
    have hhigh := congrArg (BitVec.extractLsb' b a) h
    have hlow := congrArg (BitVec.extractLsb' 0 b) h
    simp only [BitVec.extractLsb'_append_eq_left] at hhigh
    simp only [BitVec.extractLsb'_append_eq_right] at hlow
    exact ⟨hhigh, hlow⟩
  · rintro ⟨rfl, rfl⟩
    rfl

theorem eq_append_iff (w : BitVec (a + b)) : w = x ++ y ↔ w.extractLsb' b a = x ∧ w.extractLsb' 0 b = y := by
  simpa only [BitVec.extractLsb'_eq_self, Nat.zero_add] using extract_eq_append_iff x y w 0

end

section

variable (w : Word) (op part : BitVec 4)

theorem noteOn_word_iff (key vel rsv : Byte) :
    w = op ++ part ++ key ++ vel ++ rsv ↔
      field w 28 4 = op ∧ field w 24 4 = part ∧ field w 16 8 = key ∧ field w 8 8 = vel ∧ field w 0 8 = rsv := by
  rw [eq_append_iff (a := 4 + 4 + 8 + 8) (b := 8), extract_eq_append_iff, extract_eq_append_iff, extract_eq_append_iff]
  simp only [and_assoc, field]

/-- The format of NOTE_OFF and of PROGRAM_CHANGE. -/
theorem key_word_iff (key : Byte) (rsv : BitVec 16) :
    w = op ++ part ++ key ++ rsv ↔
      field w 28 4 = op ∧ field w 24 4 = part ∧ field w 16 8 = key ∧ field w 0 16 = rsv := by
  rw [eq_append_iff (a := 4 + 4 + 8) (b := 16), extract_eq_append_iff, extract_eq_append_iff]
  simp only [and_assoc, field]

theorem sustain_word_iff (rsv : BitVec 23) (on : BitVec 1) :
    w = op ++ part ++ rsv ++ on ↔
      field w 28 4 = op ∧ field w 24 4 = part ∧ field w 1 23 = rsv ∧ field w 0 1 = on := by
  rw [eq_append_iff (a := 4 + 4 + 23) (b := 1), extract_eq_append_iff, extract_eq_append_iff]
  simp only [and_assoc, field]

/-- The format of ALL_NOTES_OFF and of RENDER, and of the header of a block command. -/
theorem header_word_iff (body : BitVec 24) :
    w = op ++ part ++ body ↔ field w 28 4 = op ∧ field w 24 4 = part ∧ field w 0 24 = body := by
  rw [eq_append_iff (a := 4 + 4) (b := 24), extract_eq_append_iff]
  simp only [and_assoc, field]

theorem status_word_iff (rsv : BitVec 27) (clear : BitVec 1) :
    w = op ++ rsv ++ clear ↔ field w 28 4 = op ∧ field w 1 27 = rsv ∧ field w 0 1 = clear := by
  rw [eq_append_iff (a := 4 + 27) (b := 1), extract_eq_append_iff]
  simp only [and_assoc, field]

theorem reserved0_word_iff (body : BitVec 28) : w = op ++ body ↔ field w 28 4 = op ∧ field w 0 28 = body :=
  eq_append_iff (a := 4) (b := 28) op body w

theorem length_word_iff (rsvLen n : BitVec 16) : w = rsvLen ++ n ↔ field w 16 16 = rsvLen ∧ field w 0 16 = n :=
  eq_append_iff (a := 16) (b := 16) rsvLen n w

/-- The opcode is the quotient by `2 ^ 28` (R110). -/
theorem opcode_toNat : (field w 28 4).toNat = w.toNat / 2 ^ 28 := by
  rw [field_toNat]
  omega

theorem reservedAB_word_iff (body : BitVec 29) :
    w = 0x5#3 ++ body ↔ ((field w 28 4).toNat = 0xA ∨ (field w 28 4).toNat = 0xB) ∧ field w 0 29 = body := by
  refine (eq_append_iff (a := 3) (b := 29) _ _ _).trans (and_congr_left fun _ => ?_)
  change field w 29 3 = _ ↔ _
  rw [← BitVec.toNat_inj, field_toNat, field_toNat, show (0x5#3).toNat = 5 from rfl]
  omega

theorem reservedCF_word_iff (body : BitVec 30) :
    w = 0x3#2 ++ body ↔ 0xC ≤ (field w 28 4).toNat ∧ field w 0 30 = body := by
  refine (eq_append_iff (a := 2) (b := 30) _ _ _).trans (and_congr_left fun _ => ?_)
  change field w 30 2 = _ ↔ _
  rw [← BitVec.toNat_inj, field_toNat, field_toNat, show (0x3#2).toNat = 3 from rfl]
  omega

end

/-! ## The two round trips -/

/-- Settles O1: each format's word has the fields it was written from, and the opcode selects the format. -/
theorem decodeOfEncode : Obligations.DecodeOfEncode := by
  intro i rest hwf
  cases i with
  | noteOn part key vel rsv =>
    obtain ⟨hop, hpart, hkey, hvel, hrsv⟩ := (noteOn_word_iff _ 0x1#4 part key vel rsv).mp rfl
    simp only [encode, List.cons_append, List.nil_append, decode, hop, BitVec.reduceToNat, hpart, hkey, hvel, hrsv]
  | noteOff part key rsv =>
    obtain ⟨hop, hpart, hkey, hrsv⟩ := (key_word_iff _ 0x2#4 part key rsv).mp rfl
    simp only [encode, List.cons_append, List.nil_append, decode, hop, BitVec.reduceToNat, hpart, hkey, hrsv]
  | sustain part rsv on =>
    obtain ⟨hop, hpart, hrsv, hon⟩ := (sustain_word_iff _ 0x3#4 part rsv on).mp rfl
    simp only [encode, List.cons_append, List.nil_append, decode, hop, BitVec.reduceToNat, hpart, hrsv, hon]
  | programChange part patch rsv =>
    obtain ⟨hop, hpart, hpatch, hrsv⟩ := (key_word_iff _ 0x4#4 part patch rsv).mp rfl
    simp only [encode, List.cons_append, List.nil_append, decode, hop, BitVec.reduceToNat, hpart, hpatch, hrsv]
  | allNotesOff part rsv =>
    obtain ⟨hop, hpart, hrsv⟩ := (header_word_iff _ 0x5#4 part rsv).mp rfl
    simp only [encode, List.cons_append, List.nil_append, decode, hop, BitVec.reduceToNat, hpart, hrsv]
  | blockWrite rsv addr rsvLen n data =>
    obtain ⟨hop, hrsv, haddr⟩ := (header_word_iff _ 0x6#4 rsv addr).mp rfl
    obtain ⟨hrsvLen, hn⟩ := (length_word_iff _ rsvLen n).mp rfl
    have hlen : data.length = dataWords n := eq_of_beq hwf
    simp only [encode, List.cons_append, decode, decodeBlockWrite, hop, BitVec.reduceToNat, hrsv, haddr, hrsvLen, hn,
      ← hlen, List.length_append, List.take_left', List.drop_left', Nat.not_lt.mpr (Nat.le_add_right _ _), if_false]
  | blockRead rsv addr rsvLen n =>
    obtain ⟨hop, hrsv, haddr⟩ := (header_word_iff _ 0x7#4 rsv addr).mp rfl
    obtain ⟨hrsvLen, hn⟩ := (length_word_iff _ rsvLen n).mp rfl
    simp only [encode, List.cons_append, List.nil_append, decode, decodeBlockRead, hop, BitVec.reduceToNat, hrsv, haddr,
      hrsvLen, hn]
  | render rsv count =>
    obtain ⟨hop, hrsv, hcount⟩ := (header_word_iff _ 0x8#4 rsv count).mp rfl
    simp only [encode, List.cons_append, List.nil_append, decode, hop, BitVec.reduceToNat, hrsv, hcount]
  | status rsv clear =>
    obtain ⟨hop, hrsv, hclear⟩ := (status_word_iff _ 0x9#4 rsv clear).mp rfl
    simp only [encode, List.cons_append, List.nil_append, decode, hop, BitVec.reduceToNat, hrsv, hclear]
  | reserved0 body =>
    obtain ⟨hop, hbody⟩ := (reserved0_word_iff _ 0x0#4 body).mp rfl
    simp only [encode, List.cons_append, List.nil_append, decode, hop, BitVec.reduceToNat, hbody]
  | reservedAB body =>
    obtain ⟨hop | hop, hbody⟩ := (reservedAB_word_iff _ body).mp rfl
    all_goals simp only [encode, List.cons_append, List.nil_append, decode, hop, hbody]
  | reservedCF body =>
    obtain ⟨hop, hbody⟩ := (reservedCF_word_iff _ body).mp rfl
    simp only [encode, List.cons_append, List.nil_append, decode, hbody]
    split
    case h_13 => rfl
    all_goals omega

/-- Inversion of `decodeBlockWrite`: the length word and the data words have arrived (R113, R118). -/
theorem decodeBlockWrite_ok {w : Word} {ws rest : List Word} {i : Instr} (h : decodeBlockWrite w ws = .ok (i, rest)) :
    ∃ w1 tail, ws = w1 :: tail ∧ dataWords (field w1 0 16) ≤ tail.length ∧
      i = .blockWrite (field w 24 4) (field w 0 24) (field w1 16 16) (field w1 0 16)
        (tail.take (dataWords (field w1 0 16))) ∧
      rest = tail.drop (dataWords (field w1 0 16)) := by
  cases ws with
  | nil => cases h
  | cons w1 tail =>
    simp only [decodeBlockWrite] at h
    split at h
    next => cases h
    next hlen =>
      cases h
      exact ⟨w1, tail, rfl, not_lt.mp hlen, rfl, rfl⟩

/-- Inversion of `decodeBlockRead`: the length word has arrived. -/
theorem decodeBlockRead_ok {w : Word} {ws rest : List Word} {i : Instr} (h : decodeBlockRead w ws = .ok (i, rest)) :
    ∃ w1, ws = w1 :: rest ∧ i = .blockRead (field w 24 4) (field w 0 24) (field w1 16 16) (field w1 0 16) := by
  cases ws with
  | nil => cases h
  | cons w1 tail =>
    cases h
    exact ⟨w1, rfl, rfl⟩

/-- Inversion of `decode`: the command is well-formed, and its words and those after it are the words decoded. -/
theorem decode_ok {ws rest : List Word} {i : Instr} (h : decode ws = .ok (i, rest)) :
    i.wellFormed = true ∧ encode i ++ rest = ws := by
  cases ws with
  | nil => cases h
  | cons w ws =>
    have one_word : ∀ {v : Word}, w = v → [v] ++ ws = w :: ws := fun hw => hw ▸ rfl
    have opcode : ∀ {op : BitVec 4}, (field w 28 4).toNat = op.toNat → field w 28 4 = op := BitVec.eq_of_toNat_eq
    simp only [decode] at h
    split at h
    case h_1 hop =>
      cases h
      exact ⟨rfl, one_word ((reserved0_word_iff w _ _).mpr ⟨opcode hop, rfl⟩)⟩
    case h_2 hop =>
      cases h
      exact ⟨rfl, one_word ((noteOn_word_iff w _ _ _ _ _).mpr ⟨opcode hop, rfl, rfl, rfl, rfl⟩)⟩
    case h_3 hop =>
      cases h
      exact ⟨rfl, one_word ((key_word_iff w _ _ _ _).mpr ⟨opcode hop, rfl, rfl, rfl⟩)⟩
    case h_4 hop =>
      cases h
      exact ⟨rfl, one_word ((sustain_word_iff w _ _ _ _).mpr ⟨opcode hop, rfl, rfl, rfl⟩)⟩
    case h_5 hop =>
      cases h
      exact ⟨rfl, one_word ((key_word_iff w _ _ _ _).mpr ⟨opcode hop, rfl, rfl, rfl⟩)⟩
    case h_6 hop =>
      cases h
      exact ⟨rfl, one_word ((header_word_iff w _ _ _).mpr ⟨opcode hop, rfl, rfl⟩)⟩
    case h_7 hop =>
      obtain ⟨w1, tail, rfl, hlen, rfl, rfl⟩ := decodeBlockWrite_ok h
      refine ⟨beq_iff_eq.mpr (List.length_take_of_le hlen), ?_⟩
      simp only [encode, List.cons_append, List.take_append_drop]
      rw [← (header_word_iff w 0x6#4 _ _).mpr ⟨opcode hop, rfl, rfl⟩, ← (length_word_iff w1 _ _).mpr ⟨rfl, rfl⟩]
    case h_8 hop =>
      obtain ⟨w1, rfl, rfl⟩ := decodeBlockRead_ok h
      refine ⟨rfl, ?_⟩
      simp only [encode, List.cons_append, List.nil_append]
      rw [← (header_word_iff w 0x7#4 _ _).mpr ⟨opcode hop, rfl, rfl⟩, ← (length_word_iff w1 _ _).mpr ⟨rfl, rfl⟩]
    case h_9 hop =>
      cases h
      exact ⟨rfl, one_word ((header_word_iff w _ _ _).mpr ⟨opcode hop, rfl, rfl⟩)⟩
    case h_10 hop =>
      cases h
      exact ⟨rfl, one_word ((status_word_iff w _ _ _).mpr ⟨opcode hop, rfl, rfl⟩)⟩
    case h_11 hop =>
      cases h
      exact ⟨rfl, one_word ((reservedAB_word_iff w _).mpr ⟨.inl hop, rfl⟩)⟩
    case h_12 hop =>
      cases h
      exact ⟨rfl, one_word ((reservedAB_word_iff w _).mpr ⟨.inr hop, rfl⟩)⟩
    case h_13 =>
      cases h
      simp only [imp_false] at *
      exact ⟨rfl, one_word ((reservedCF_word_iff w _).mpr ⟨by omega, rfl⟩)⟩

/-- Settles O2: a word that is taken apart into the fields of its format is those fields side by side. -/
theorem encodeOfDecode : Obligations.EncodeOfDecode := fun _ _ _ => decode_ok

/-! ## The opcode and the length word -/

/-- The opcode selects the command (R111). -/
theorem opcode_of_decode {w : Word} {ws rest : List Word} {i : Instr} (h : decode (w :: ws) = .ok (i, rest)) :
    (field w 28 4).toNat ∈ opcodesOf i := by
  simp only [decode] at h
  split at h
  case h_7 hop =>
    obtain ⟨_, _, -, -, rfl, -⟩ := decodeBlockWrite_ok h
    exact List.mem_singleton.mpr hop
  case h_8 hop =>
    obtain ⟨_, -, rfl⟩ := decodeBlockRead_ok h
    exact List.mem_singleton.mpr hop
  case h_13 =>
    cases h
    have hlt := (field w 28 4).isLt
    simp only [opcodesOf, List.mem_cons, List.not_mem_nil, or_false, imp_false] at *
    omega
  all_goals
    rename_i hop
    cases h
    simp only [opcodesOf, hop, List.mem_cons, true_or, or_true]

/-- The words `ws` after the header of a BLOCK_WRITE lack its length word, or a data word that it asks for (R113). -/
def DataMissing (ws : List Word) : Prop :=
  ws = [] ∨ ∃ w1 tail, ws = w1 :: tail ∧ tail.length < (w1.toNat % 2 ^ 16 + 3) / 4

/-- The words `ws` after the header `w` lack a word of the command (R119). -/
def WordsMissing (w : Word) (ws : List Word) : Prop :=
  (w.toNat / 2 ^ 28 = 7 ∧ ws = []) ∨ (w.toNat / 2 ^ 28 = 6 ∧ DataMissing ws)

theorem dataWords_field (w1 : Word) : dataWords (field w1 0 16) = (w1.toNat % 2 ^ 16 + 3) / 4 := by
  rw [dataWords, field_toNat, Nat.pow_zero, Nat.div_one]

theorem dataMissing_cons (w1 : Word) (tail : List Word) :
    DataMissing (w1 :: tail) ↔ tail.length < dataWords (field w1 0 16) := by
  simp [DataMissing, dataWords_field]

theorem decodeBlockWrite_error_iff {w : Word} {ws : List Word} {e : DecodeStop} :
    decodeBlockWrite w ws = .error e ↔ e = .incomplete ∧ DataMissing ws := by
  cases ws with
  | nil => simp [decodeBlockWrite, DataMissing, eq_comm]
  | cons w1 tail =>
    rw [dataMissing_cons]
    by_cases hlen : tail.length < dataWords (field w1 0 16)
    · simp [decodeBlockWrite, hlen, eq_comm]
    · simp [decodeBlockWrite, hlen]

theorem decodeBlockRead_error_iff {w : Word} {ws : List Word} {e : DecodeStop} :
    decodeBlockRead w ws = .error e ↔ e = .incomplete ∧ ws = [] := by
  cases ws <;> simp [decodeBlockRead, eq_comm]

/-- Where a header has arrived, `decode` stops only for a word of the command that has not (R119, R121). -/
theorem decode_error_iff {w : Word} {ws : List Word} {e : DecodeStop} :
    decode (w :: ws) = .error e ↔ e = .incomplete ∧ WordsMissing w ws := by
  simp only [WordsMissing, ← opcode_toNat, decode]
  split
  case h_7 hop => simp [hop, decodeBlockWrite_error_iff]
  case h_8 hop => simp [hop, decodeBlockRead_error_iff]
  case h_13 => simp_all
  all_goals
    rename_i hop
    simp [hop]

theorem decode_noWord_iff {ws : List Word} : decode ws = .error .noWord ↔ ws = [] := by
  cases ws with
  | nil => exact iff_of_true rfl rfl
  | cons w ws => exact iff_of_false (fun h => DecodeStop.noConfusion (decode_error_iff.mp h).1) (List.cons_ne_nil _ _)

theorem decode_incomplete_iff {ws : List Word} :
    decode ws = .error .incomplete ↔ ∃ w tail, ws = w :: tail ∧ WordsMissing w tail := by
  cases ws with
  | nil => simp [decode]
  | cons w ws => simp [decode_error_iff]

/-- The words of the longest command are 2 and 16384 data words. -/
theorem not_wordsMissing {w : Word} {ws : List Word} (h : 16385 ≤ ws.length) : ¬WordsMissing w ws := by
  rintro (⟨-, rfl⟩ | ⟨-, rfl | ⟨w1, tail, rfl, hlen⟩⟩)
  · simp at h
  · simp at h
  · rw [List.length_cons] at h
    omega

/-- Settles O3: no word of a command is missing behind a header that 16385 words follow. -/
theorem opcodeSelectsCommand : Obligations.OpcodeSelectsCommand := by
  refine ⟨fun w rest i rest' h => opcode_toNat w ▸ opcode_of_decode h, fun w rest hlen => ?_⟩
  cases hd : decode (w :: rest) with
  | ok x => exact ⟨x.1, x.2, rfl⟩
  | error e => exact absurd (decode_error_iff.mp hd).2 (not_wordsMissing hlen)

/-- Settles O4: of the commands that an opcode selects only BLOCK_WRITE reads its length off the length word. -/
theorem commandLength : Obligations.CommandLength := by
  intro w rest i rest' h
  refine ⟨decode_length h, ?_⟩
  have hop := opcode_of_decode h
  rw [opcode_toNat] at hop
  cases i with
  | blockWrite rsv addr rsvLen n data =>
    obtain ⟨-, htail⟩ := List.cons.inj (decode_ok h).2
    have hn : field (rest.getD 0 0) 0 16 = n := ((length_word_iff _ rsvLen n).mp (htail ▸ rfl)).2
    rw [if_pos (List.mem_singleton.mp hop), Instr.length, ← hn, dataWords_field]
  | blockRead rsv addr rsvLen n =>
    rw [List.mem_singleton.mp hop]
    rfl
  | _ =>
    simp only [opcodesOf, List.mem_cons, List.not_mem_nil, or_false] at hop
    rw [if_neg (by omega), if_neg (by omega), Instr.length]

/-- Settles O5: `decode` computes each worked encoding (R125). -/
theorem workedEncodingsDecode : Obligations.WorkedEncodingsDecode :=
  ⟨rfl, rfl, rfl, rfl, rfl, rfl, rfl, rfl, rfl⟩

/-! ## One step -/

/-- A command that has arrived whole is applied or rejected: the engine goes on (60_exceptions.md R308). -/
theorem exec_goesOn {i : Instr} (hwf : i.wellFormed = true) (s : State) : goesOn (exec i s) := by
  have hshort : dataShort i = false := by
    cases i with
    | blockWrite rsv addr rsvLen n data => exact decide_eq_false (eq_of_beq hwf).not_lt
    | _ => rfl
  rw [exec_eq, hshort, command_eq]
  exact ⟨_, rfl⟩

theorem stopFault_injective {e e' : DecodeStop} (h : stopFault e = stopFault e') : e = e' :=
  match e, e', h with
  | .noWord, .noWord, _ => rfl
  | .incomplete, .incomplete, _ => rfl

/-- A step is stuck exactly where no command can be taken, and the fault says why (R119, 60_exceptions.md R316). -/
theorem step_stuck_iff {s : State} {e : DecodeStop} : step s = .fault (stopFault e) ↔ decode s.pending = .error e := by
  refine ⟨fun h => ?_, step_of_decode_error⟩
  cases hd : decode s.pending with
  | ok x =>
    obtain ⟨t, ht⟩ := exec_goesOn (decode_ok hd).1 s
    rw [step_of_decode hd, ht] at h
    cases h
  | error e' =>
    rw [step_of_decode_error hd] at h
    rw [stopFault_injective (Host.Outcome.fault.inj h)]

/-- Settles O8: a step is stuck exactly where `decode` stops. -/
theorem stuckOnlyWhileIncomplete : Obligations.StuckOnlyWhileIncomplete := by
  intro s
  refine ⟨?_, ?_, ?_⟩
  · exact step_stuck_iff.trans (decode_noWord_iff.trans List.drop_eq_nil_iff)
  · exact step_stuck_iff.trans decode_incomplete_iff
  · cases hd : decode s.pending with
    | ok x => exact .inl (step_of_decode hd ▸ exec_goesOn (decode_ok hd).1 s)
    | error e =>
      cases e with
      | noWord => exact .inr (.inl (step_of_decode_error hd))
      | incomplete => exact .inr (.inr (step_of_decode_error hd))

/-! ## Blocks that are read, and reserved opcodes -/

/-- Settles O15: the read passes its checks, and pushes the bytes of its range packed. -/
theorem blockReadPushes : Obligations.BlockReadPushes := by
  intro s addr n haddr
  have hcheck : checkBlockRead 0 addr 0 n = none := (checkBlockRead_eq_none_iff _ _ _ _).mpr ⟨⟨rfl, rfl⟩, haddr⟩
  have hlen := length_readBlock s.mem addr.toNat n.toNat
  refine ⟨packBytes (Memory.readBlock s.mem addr.toNat n.toNat), exec_applied (.blockRead 0 addr 0 n) rfl hcheck s,
    by rw [packBytes_length, hlen], fun k hk => ?_⟩
  rw [packBytes_length] at hk
  rw [packBytes_byte _ _ hk]
  split
  next hin => exact getD_readBlock _ _ _ _ hin
  next hout => exact List.getD_eq_default _ _ (hlen.trans_le (not_lt.mp hout))

theorem rejectOpcode_eq (s : State) : rejectOpcode s = .next (rejectedState 1 .badOpcode s) :=
  congrArg Host.Outcome.next (reject_eq 1 .badOpcode s)

/-- Settles O11: the three reserved rows are the one reject, and none reads the rest of its word. -/
theorem reservedOpcodeRejected : Obligations.ReservedOpcodeRejected :=
  fun s => ⟨fun _ => rejectOpcode_eq s, fun _ => rejectOpcode_eq s, fun _ => rejectOpcode_eq s⟩

end Sys2Proof.Machine
end

section
/-! PROOFS. The patch cache (41_patch_cache.md): for which timbre partials there is one (R161), and what each of its
fields holds (R164 to R172). -/

namespace Sys2Proof.Machine

/-! ## Which timbre partials have a cache (R161) -/

section
variable {F : OpenFns} {sr : Nat} {pcm : List PcmWave} {mt : Byte} {timbre : List Byte} {t : Nat} {ctx : PatchContext}
  {key vel : Byte}

theorem buildCache_outside (h : 4 ≤ t) : buildCache F sr pcm mt timbre t ctx key vel = none :=
  dif_neg (not_lt.mpr h)

theorem buildCache_eq_some_iff {c : PatchCache} :
    buildCache F sr pcm mt timbre t ctx key vel = some c ↔
      ∃ q : Fin 4, q.val = t ∧ playable timbre q = true ∧ cacheOf F sr pcm mt timbre q ctx key vel = c := by
  by_cases ht : t < 4
  · have hbuild := buildCache_playable F sr pcm mt timbre ⟨t, ht⟩ ctx key vel
    simp only at hbuild
    rw [hbuild, Option.ite_none_right_eq_some, Option.some.injEq]
    constructor
    · exact fun h => ⟨⟨t, ht⟩, rfl, h⟩
    · rintro ⟨q, rfl, h⟩
      exact h
  · rw [buildCache_outside (not_lt.mp ht)]
    constructor
    · exact fun h => nomatch h
    · rintro ⟨q, rfl, -⟩
      exact absurd q.isLt ht

theorem buildCache_isSome_iff :
    (∃ c, buildCache F sr pcm mt timbre t ctx key vel = some c) ↔
      ∃ q : Fin 4, q.val = t ∧ playable timbre q = true := by
  simp only [buildCache_eq_some_iff]
  constructor
  · rintro ⟨_, q, hq, hplay, -⟩
    exact ⟨q, hq, hplay⟩
  · rintro ⟨q, hq, hplay⟩
    exact ⟨_, q, hq, hplay, rfl⟩

end

/-- Settles O19: there is a cache of a playable partial alone, and a partial is playable by its bit of byte 12. -/
theorem cacheOnlyForPlayable : Obligations.CacheOnlyForPlayable := by
  intro F sr pcm masterTune timbre t ctx key vel
  rw [← not_iff_not, not_not, ← ne_eq, Option.ne_none_iff_exists', buildCache_isSome_iff]
  constructor
  · rintro ⟨q, rfl, hplay⟩
    exact ⟨Nat.le_of_lt_succ q.isLt, playable_bit timbre q ▸ hplay⟩
  · rintro ⟨ht, hbit⟩
    exact ⟨⟨t, Nat.lt_succ_of_le ht⟩, rfl, (playable_bit timbre _).trans hbit⟩

/-! ## The structure fields (R164, R165) -/

/-- The structure byte of the pair that timbre partial `t` belongs to (R164). -/
theorem structRow_eq (timbre : List Byte) (t : Fin 4) :
    structRow timbre t = structTable.getD (timbre.getD (if t.val < 2 then 10 else 11) 0).toNat (0, 0) := by
  unfold structRow
  split <;> rfl

/-- The column `mix` of the structure table (R164). -/
theorem structRow_mix (timbre : List Byte) (t : Fin 4) :
    (structRow timbre t).2.val =
      [0, 1, 0, 1, 1, 0, 1, 3, 3, 2, 2, 2, 2].getD (timbre.getD (if t.val < 2 then 10 else 11) 0).toNat 0 := by
  rw [structRow_eq]
  exact (List.getD_map structTable (0, 0) fun row => row.2.val).symm

/-- The column `pcmBits` of the structure table (R164). -/
theorem structRow_pcmBits (timbre : List Byte) (t : Fin 4) :
    (structRow timbre t).1.toNat =
      [0, 0, 2, 2, 1, 3, 3, 0, 3, 0, 2, 1, 3].getD (timbre.getD (if t.val < 2 then 10 else 11) 0).toNat 0 := by
  rw [structRow_eq]
  exact (List.getD_map structTable (0, 0) fun row => row.1.toNat).symm

/-- The PCM flag is the bit of `pcmBits` that the position selects, the master's being the higher (R165). -/
theorem pcmFlag_eq (timbre : List Byte) (t : Fin 4) :
    pcmFlag timbre t = (structRow timbre t).1.toNat.testBit (1 - t.val % 2) := by
  have hpos : structPosOf t = 0 ↔ t.val % 2 = 0 := Fin.ext_iff
  unfold pcmFlag
  split
  next hmaster => rw [hpos.mp hmaster]; rfl
  next hslave => rw [Nat.mod_two_ne_zero.mp (mt hpos.mpr hslave)]; rfl

theorem pairOf_val (t : Fin 4) : (pairOf t).val = t.val ^^^ 1 := by
  revert t
  decide

/-- The partner is the other partial of the pair, where it is playable (R165). -/
theorem partnerOf_eq_some_iff (timbre : List Byte) (t q : Fin 4) :
    partnerOf timbre t = some q ↔ q.val = t.val ^^^ 1 ∧ (timbre.getD 12 0).getLsbD q.val = true := by
  rw [partnerOf, Option.ite_none_right_eq_some, Option.some.injEq, ← pairOf_val, ← Fin.ext_iff, ← playable_bit]
  constructor
  · rintro ⟨hplay, rfl⟩
    exact ⟨rfl, hplay⟩
  · rintro ⟨rfl, hplay⟩
    exact ⟨hplay, rfl⟩

/-! ## The partial block (R79, R162) -/

theorem length_partialBlock {timbre : List Byte} (h : timbre.length = 246) (t : Fin 4) :
    (partialBlock timbre t).length = 58 := by
  rw [partialBlock, List.length_take, List.length_drop]
  omega

theorem getD_partialBlock (timbre : List Byte) (t : Fin 4) {k : Nat} (h : k < 58) :
    (partialBlock timbre t).getD k 0 = timbre.getD (14 + 58 * t.val + k) 0 := by
  rw [partialBlock, List.getD_eq_getElem?_getD, List.getElem?_take_of_lt h, List.getElem?_drop,
    List.getD_eq_getElem?_getD]

/-! ## The tuning and the bias sides (R166, R171, R172) -/

theorem waveTuning_of_getElem? {pcm : List PcmWave} {wave : Byte} {w : PcmWave} (h : pcm[wave.toNat]? = some w) :
    waveTuning pcm wave = w.tuning := by
  rw [waveTuning, h]

/-- The key point does not wrap: it is at most 96. -/
theorem biasSide_pointKey (point levelByte : Byte) (offset : Int) :
    (biasSide point levelByte offset).pointKey.toNat = 33 + point.toNat % 64 := by
  have hmask : (point &&& 0x3F).toNat = point.toNat % 64 := Nat.and_two_pow_sub_one_eq_mod point.toNat 6
  have hpoint : (33 : Byte).toNat = 33 := rfl
  rw [biasSide, BitVec.toNat_add, hmask, hpoint]
  exact Nat.mod_eq_of_lt (by omega)

/-- The narrowing of a bias level loses nothing for the offsets of R171 and R172. -/
theorem biasSide_level (point levelByte : Byte) {offset : Int} (hlow : 0 ≤ offset) (hhigh : offset ≤ 12) :
    (biasSide point levelByte offset).level.toInt = levelByte.toNat - offset :=
  toInt_toS32 (by omega) (by omega)

/-! ## The base pitch (R166) -/

section
variable {F : OpenFns} {sr : Nat} {pcm : List PcmWave} {mt : Byte} {timbre : List Byte} {t : Fin 4}
  {ctx : PatchContext} {key vel : Byte}

/-- The base pitch of timbre partial `t`, for a PCM flag and the tuning that goes with it. -/
def basePitchOf (F : OpenFns) (sr : Nat) (mt : Byte) (timbre : List Byte) (t : Fin 4) (ctx : PatchContext) (key : Byte)
    (flag : Bool) (tuning : S32) : S32 :=
  let src := partialBlock timbre t
  F.basePitch (commonTables F sr) ⟨wgPitchCoarse src, wgPitchFine src,
    F.keyfollowPitch (commonTables F sr) (wgPitchKeyfollow src), noteFreq key ctx, ctx.fineTune, mt, flag, tuning⟩

theorem cacheOf_basePitch_synth (h : pcmFlag timbre t = false) :
    (cacheOf F sr pcm mt timbre t ctx key vel).basePitch = basePitchOf F sr mt timbre t ctx key false 0 := by
  simp only [cacheOf, h]
  rfl

theorem cacheOf_basePitch_pcm (h : pcmFlag timbre t = true) {w : PcmWave}
    (hw : pcm[(wgPcmWave (partialBlock timbre t)).toNat]? = some w) :
    (cacheOf F sr pcm mt timbre t ctx key vel).basePitch = basePitchOf F sr mt timbre t ctx key true w.tuning := by
  simp only [cacheOf, h, if_true, waveTuning_of_getElem? hw]
  rfl

end

/-! ## Every field -/

/-- Settles O20: a field that `cacheOf` copies or hands to an OPEN function is right by definition; the structure
fields, the partner, the block, the frequency, the base pitch and the bias sides are right by the lemmas above. -/
theorem cacheFields : Obligations.CacheFields := by
  intro F sr pcm masterTune timbre t ctx key vel c hlen hbuild
  obtain ⟨t, rfl, -, rfl⟩ := buildCache_eq_some_iff.mp hbuild
  have hpcm := pcmFlag_eq timbre t
  rw [structRow_pcmBits] at hpcm
  have hperiod : 1 ≤ fLfoPeriod F (lfoRate (partialBlock timbre t)) sr := Nat.le_max_left 1 _
  exact ⟨
    -- R164, R165
    rfl, rfl, structRow_mix timbre t, hpcm, partnerOf_eq_some_iff timbre t,
    -- R162
    length_partialBlock hlen t, fun _ => getD_partialBlock timbre t, rfl, rfl, toInt_noteFreq key ctx, rfl, rfl,
    -- R169, R166
    rfl, rfl, rfl, rfl, cacheOf_basePitch_synth, fun h _ => cacheOf_basePitch_pcm h, rfl, rfl,
    -- R167, R168, R170
    rfl, rfl, hperiod, rfl, decide_not.symm, rfl, rfl, rfl,
    -- R171, R172
    rfl, biasSide_pointKey .., biasSide_level _ _ (by decide) (by decide),
    rfl, biasSide_pointKey .., biasSide_level _ _ (by decide) (by decide),
    rfl, biasSide_pointKey .., biasSide_level _ _ (by decide) (by decide)⟩

end Sys2Proof.Machine
end

section
/-! PROOFS. The envelope units and the states of a partial (42_partial.md R190 to R196): where a segment stands after
each of its steps, where a step and a release request take a partial's state, and that a slot at rest stays as it is. -/

namespace Sys2Proof.Machine

/-! ## The segments of an envelope (R192) -/

theorem countU32_of_lt (F : OpenFns) {n : Nat} (h : n < 2 ^ 32) : countU32 F n = BitVec.ofNat 32 n := if_pos h

/-- The level `c` samples into a segment, before it is narrowed to its register (R192). -/
def segmentLevel (E : EnvUnit) (seg : EnvSeg) (c : Nat) : Int :=
  E.start.toInt + Int.tdiv ((seg.target.toInt - E.start.toInt) * c) seg.dur

/-- An envelope unit `c` samples into its segment. -/
def inSegment (E : EnvUnit) (seg : EnvSeg) (c : Nat) : EnvUnit :=
  { E with cnt := BitVec.ofNat 32 c, level := BitVec.ofInt 32 (segmentLevel E seg c) }

theorem tdiv_mul_between (x : Int) {c d : Nat} (hc : c < d) :
    min 0 x ≤ Int.tdiv (x * c) d ∧ Int.tdiv (x * c) d ≤ max 0 x := by
  have forward : ∀ y : Int, 0 ≤ y → 0 ≤ Int.tdiv (y * c) d ∧ Int.tdiv (y * c) d ≤ y := by
    intro y hy
    have hmul : y * c ≤ y * d := mul_le_mul_of_nonneg_left (Int.ofNat_le.mpr hc.le) hy
    have hnum : 0 ≤ y * c := mul_nonneg hy (Int.natCast_nonneg c)
    rw [Int.tdiv_eq_ediv_of_nonneg hnum]
    exact ⟨Int.ediv_nonneg hnum (Int.natCast_nonneg d), Int.ediv_le_of_le_mul (by omega) hmul⟩
  obtain hx | hx := le_total 0 x
  · have := forward x hx
    omega
  · have := forward (-x) (by omega)
    rw [neg_mul, Int.neg_tdiv] at this
    omega

section
variable (F : OpenFns) {E : EnvUnit} {D : EnvDef} {seg : EnvSeg}

/-- Outside its segments a unit stands still. -/
theorem envStep_still (h : envSegment E D = none) : envStep F E D = E := by
  simp only [envStep, h]

/-- The last step of a segment reaches its target and enters the next phase. -/
theorem envStep_completes (h : envSegment E D = some seg) (hend : seg.dur ≤ E.cnt.toNat + 1) :
    envStep F E D = ⟨envNext E.phase D, 0, seg.target, seg.target⟩ := by
  simp only [envStep, h, if_pos hend]

/-- Every step before the last moves the level and counts. -/
theorem envStep_moves (h : envSegment E D = some seg) (hrun : E.cnt.toNat + 1 < seg.dur) :
    envStep F E D =
      { inSegment E seg (E.cnt.toNat + 1) with cnt := countU32 F (E.cnt.toNat + 1) } := by
  simp only [envStep, h, if_neg (not_le.mpr hrun)]
  rfl

theorem segmentLevel_between {c : Nat} (hc : c < seg.dur) :
    min E.start.toInt seg.target.toInt ≤ segmentLevel E seg c ∧
      segmentLevel E seg c ≤ max E.start.toInt seg.target.toInt := by
  have h := tdiv_mul_between (seg.target.toInt - E.start.toInt) hc
  unfold segmentLevel
  omega

/-- A level inside a segment lies between two registers, so its narrowing loses nothing. -/
theorem toInt_inSegment_level {c : Nat} (hc : c < seg.dur) :
    (inSegment E seg c).level.toInt = segmentLevel E seg c := by
  have hbetween := segmentLevel_between (E := E) hc
  have hstart : -2 ^ 31 ≤ E.start.toInt ∧ E.start.toInt < 2 ^ 31 := ⟨E.start.le_toInt, E.start.toInt_lt⟩
  have htarget : -2 ^ 31 ≤ seg.target.toInt ∧ seg.target.toInt < 2 ^ 31 := ⟨seg.target.le_toInt, seg.target.toInt_lt⟩
  exact toInt_toS32 (by omega) (by omega)

/-- A segment of a length that the counter holds, sample by sample from its start. -/
theorem envStep_iterate (h : envSegment E D = some seg) (hcnt : E.cnt = 0) (hfits : seg.dur ≤ 2 ^ 32) {k : Nat}
    (hk : 1 ≤ k) (hrun : k < seg.dur) : (fun E => envStep F E D)^[k] E = inSegment E seg k := by
  induction k, hk using Nat.le_induction with
  | base =>
    have hc : E.cnt.toNat + 1 = 1 := by rw [hcnt]; rfl
    rw [Function.iterate_one, envStep_moves F h (by omega), hc, countU32_of_lt F (by omega)]
    rfl
  | succ k hk ih =>
    have hc : (inSegment E seg k).cnt.toNat = k := Nat.mod_eq_of_lt (by omega)
    rw [Function.iterate_succ_apply', ih (by omega), envStep_moves (E := inSegment E seg k) F h (by omega), hc,
      countU32_of_lt F (by omega)]
    rfl

/-- A segment of duration `d ≥ 1` ends with its `d`-th step. -/
theorem envStep_iterate_dur (h : envSegment E D = some seg) (hcnt : E.cnt = 0) (hpos : 1 ≤ seg.dur)
    (hfits : seg.dur ≤ 2 ^ 32) :
    (fun E => envStep F E D)^[seg.dur] E = ⟨envNext E.phase D, 0, seg.target, seg.target⟩ := by
  obtain ⟨k, hd⟩ : ∃ k, seg.dur = k + 1 := ⟨seg.dur - 1, by omega⟩
  rw [hd, Function.iterate_succ_apply']
  obtain rfl | hk := Nat.eq_zero_or_pos k
  · exact envStep_completes F h (by omega)
  · have hc : (inSegment E seg k).cnt.toNat = k := Nat.mod_eq_of_lt (by omega)
    rw [envStep_iterate F h hcnt hfits hk (by omega)]
    exact envStep_completes (E := inSegment E seg k) F h (by omega)

end

/-- Settles O22: the steps of a segment are counted from its start, and the phase after it is read off the
definition. -/
theorem envelopeSegmentShape : Obligations.EnvelopeSegmentShape := by
  refine ⟨fun D j => ⟨fun hnext => if_pos hnext, fun hlast hsustain => ?_, fun hlast hsustain => ?_, rfl⟩,
    fun F E D seg hseg hcnt => ⟨fun hzero => ?_, fun hpos hfits => ⟨fun k => ?_, ?_⟩⟩⟩
  · rw [envNext, if_neg (by omega), if_pos hsustain]
  · rw [envNext, if_neg (by omega), hsustain]
    rfl
  · exact envStep_completes F hseg (by omega)
  · exact envStep_iterate F hseg hcnt hfits
  · exact envStep_iterate_dur F hseg hcnt hpos hfits

/-- Settles O23: a step ends the segment on its target, or stands inside it. -/
theorem envelopeLevelBetween : Obligations.EnvelopeLevelBetween := by
  refine fun F E D => ⟨fun hstill => envStep_still F ?_, fun seg hseg => ?_⟩
  · obtain h | h := hstill <;> rw [envSegment, h]
  · obtain hend | hrun := le_or_gt seg.dur (E.cnt.toNat + 1)
    · rw [envStep_completes F hseg hend]
      exact ⟨min_le_right _ _, le_max_right _ _⟩
    · rw [envStep_moves F hseg hrun]
      exact (toInt_inSegment_level (E := E) hrun).symm ▸ segmentLevel_between hrun

/-! ## The states of a partial (R193 to R195) -/

/-- A step moves a partial's state by the TVA unit it leaves. -/
theorem steppedPartial_st (F : OpenFns) (s : State) (p : Partial) :
    (steppedPartial F s p).st =
      silenceNext (attackNext p.st (envStep F p.aenv p.cache.aenvDef).phase) (envStep F p.aenv p.cache.aenvDef) := rfl

theorem silenceNext_of_ne_release {st : PartialState} (aenv : EnvUnit) (h : st ≠ .release) :
    silenceNext st aenv = st := if_neg fun ⟨hst, _⟩ => h hst

theorem silenceNext_ended {aenv : EnvUnit} (h : aenv.phase = .done ∨ aenv.level.toInt ≤ 0) :
    silenceNext .release aenv = .inactive := if_pos ⟨rfl, h⟩

theorem silenceNext_not_ended {aenv : EnvUnit} (h : ¬(aenv.phase = .done ∨ aenv.level.toInt ≤ 0)) :
    silenceNext .release aenv = .release := if_neg fun ⟨_, hend⟩ => h hend

/-- Settles O24: R194 acts on the state before the step, and R195 on what R194 makes of it. -/
theorem stepStateTransitions : Obligations.StepStateTransitions := by
  intro F s p a ended
  have hst : (steppedPartial F s p).st = silenceNext (attackNext p.st a.phase) a := steppedPartial_st F s p
  rw [hst]
  refine ⟨fun hp => ⟨fun hphase => ?_, fun hphase => ?_, fun hphase hend => ?_, fun hphase hend => ?_⟩,
    fun hp => ?_, fun hp hend => ?_, fun hp hend => ?_⟩ <;> rw [hp]
  · obtain ⟨j, hphase⟩ := hphase
    rw [hphase]
    exact silenceNext_of_ne_release a nofun
  · rw [hphase]
    exact silenceNext_of_ne_release a nofun
  · obtain hphase | hphase := hphase <;> rw [hphase] <;> exact silenceNext_ended hend
  · rw [hphase]
    exact silenceNext_not_ended hend
  · exact silenceNext_of_ne_release a nofun
  · exact silenceNext_ended hend
  · exact silenceNext_not_ended hend

/-- A release request leaves a partial that is in RELEASE or INACTIVE (R193). -/
theorem releasePartial_of_not_sounding {p : Partial} (h : p.st = .release ∨ p.st = .inactive) :
    releasePartial p = p := by
  refine if_neg fun hsounding => ?_
  obtain h | h := h <;> rw [h] at hsounding <;> simp at hsounding

/-- Settles O26: the two tests of `releasePartial` and `envRelease`, case by case. -/
theorem releaseRequest : Obligations.ReleaseRequest := by
  refine fun p => ⟨fun h => if_pos h, releasePartial_of_not_sounding, fun E => ⟨fun h => ?_, fun h => ?_⟩⟩
  · obtain ⟨j, h⟩ | h := h <;> rw [envRelease, h]
  · obtain h | h := h <;> rw [envRelease, h]

/-! ## Slots at rest (R190, R196) -/

/-- Every slot that is INACTIVE in `s` stands unchanged in `t`. -/
def RestKept (s t : State) : Prop :=
  ∀ (j : Nat) (p : Partial), s.partials[j]? = some p → p.st = .inactive → t.partials[j]? = some p

theorem RestKept.refl (s : State) : RestKept s s := fun _ _ hp _ => hp

theorem RestKept.trans {s t u : State} (h1 : RestKept s t) (h2 : RestKept t u) : RestKept s u :=
  fun j p hp hrest => h2 j p (h1 j p hp hrest) hrest

theorem RestKept.of_partials_eq {s t : State} (h : t.partials = s.partials) : RestKept s t :=
  fun _ _ hp _ => h ▸ hp

theorem RestKept.foldl {α : Type} {f : State → α → State} (hf : ∀ s a, RestKept s (f s a)) (l : List α) (s : State) :
    RestKept s (l.foldl f s) := by
  induction l generalizing s with
  | nil => exact .refl s
  | cons a l ih => exact (hf s a).trans (ih _)

theorem releaseWhere_restKept (s : State) (m : Voice → Bool) : RestKept s (releaseWhere s m) := by
  intro j p hp hrest
  rw [releaseWhere_eq]
  simp only [releaseAll, List.getElem?_mapIdx, hp, Option.map_some, releasePartial_of_not_sounding (.inr hrest),
    ite_self]

theorem releaseKey_restKept (p : Nat) (key : Byte) (s : State) : RestKept s (releaseKey p key s) := by
  unfold releaseKey
  split
  · exact .of_partials_eq rfl
  · exact releaseWhere_restKept s _

theorem setPedal_restKept (p : Nat) (on : Bool) (s : State) : RestKept s (setPedal p on s) := by
  cases on with
  | true => exact .of_partials_eq rfl
  | false => exact (RestKept.of_partials_eq rfl).trans (releaseWhere_restKept (s.modPart p _) _)

/-- A step of a frame is for a live slot alone (44_mixer_render.md R281 step 2). -/
theorem stepNamed_restKept (F : OpenFns) (s : State) (i : Option Nat) : RestKept s (stepNamed F s i) := by
  intro j p hp hrest
  unfold stepNamed
  split
  · next i =>
    split
    · next hlive =>
      have hne : i ≠ j := fun e => hlive (by rw [e, partialSt_of s j p hp, hrest])
      rw [stepPartial, modPartial_get, hp, Option.map_some, if_neg hne]
    · exact hp
  · exact hp

theorem frameStep_restKept (F : OpenFns) (s : State) : RestKept s (frameStep F s) := by
  generalize hu : (if s.reverbDirty then reverbRecompute F s else s) = u
  have hpartials : u.partials = s.partials := by
    rw [← hu]
    split <;> rfl
  have hsteps : RestKept u (stepPartials F u) := by
    rw [stepPartials_eq]
    exact RestKept.foldl (fun s i => stepNamed_restKept F s (some i)) _ u
  have hout : RestKept (stepPartials F u) (frameStep F s) := .of_partials_eq (by rw [← hu]; rfl)
  exact (RestKept.of_partials_eq hpartials).trans (hsteps.trans hout)

theorem frames_restKept (F : OpenFns) (n : Nat) (s : State) : RestKept s (frames F n s) := by
  induction n generalizing s with
  | zero => exact .refl s
  | succ n ih => exact (frameStep_restKept F s).trans (ih _)

theorem effect_restKept {i : Instr} (hi : ∀ part key vel rsv, i ≠ .noteOn part key vel rsv) (s : State) :
    RestKept s (effect i s) := by
  have hslots := (effect_writesOnly i s).slots_kept
  cases i with
  | noteOn part key vel rsv => exact absurd rfl (hi part key vel rsv)
  | noteOff part key rsv => exact releaseKey_restKept _ key s
  | sustain part rsv on => exact setPedal_restKept _ _ s
  | allNotesOff part rsv => exact releaseWhere_restKept s _
  | render rsv count => exact frames_restKept _ _ s
  | programChange | blockWrite | blockRead | status | reserved0 | reservedAB | reservedCF =>
    exact .of_partials_eq (hslots rfl).2

/-- Settles O25: a release request and a frame pass over a slot at rest, and no other effect writes a slot. -/
theorem onlyNoteOnStartsPartials : Obligations.OnlyNoteOnStartsPartials := by
  intro i s t j p hi hexec
  obtain ⟨c, rfl⟩ | ⟨-, rfl⟩ := exec_next hexec
  · exact RestKept.refl s j p
  · exact effect_restKept hi s j p

end Sys2Proof.Machine
end

section
/-! PROOFS. The numbers of one sample (42_partial.md): the LFO counter (R197) and the ring product (R202). -/

namespace Sys2Proof.Machine

/-- A period that fits the counter makes its count exact (R197, log 9). -/
theorem toNat_lfoNext (F : OpenFns) {cnt : U32} {period : Nat} (h : cnt.toNat < period) (hfits : period ≤ 2 ^ 32) :
    (lfoNext F cnt period).toNat = (cnt.toNat + 1) % period := by
  have hmod : (cnt.toNat + 1) % period < 2 ^ 32 := (Nat.mod_lt _ (by omega)).trans_le hfits
  rw [lfoNext, countU32_of_lt F hmod, BitVec.toNat_ofNat, Nat.mod_eq_of_lt hmod]

/-- Settles O27: a counter below its period is a fraction of it below 1. -/
theorem lfoCounterInRange : Obligations.LfoCounterInRange := by
  intro F cnt period h
  have hlt := lfoNext_lt F h
  exact ⟨hlt, Nat.div_lt_of_lt_mul (Nat.mul_lt_mul_of_pos_right hlt (by decide)), toNat_lfoNext F h⟩

/-- `sat16` loses nothing on the range of a sample (00_scope.md R9). -/
theorem toInt_sat16 {x : Int} (hlow : -32768 ≤ x) (hhigh : x ≤ 32767) : (sat16 x).toInt = x := by
  rw [sat16, min_eq_right hhigh, max_eq_right hlow, BitVec.toInt_ofInt]
  exact Int.bmod_eq_of_le (by omega) (by omega)

/-- The product of two samples, of which one is not the most negative, is less than 2^30. -/
theorem mul_samples_range {x y : Int} (hx : -32768 ≤ x ∧ x ≤ 32767) (hy : -32768 ≤ y ∧ y ≤ 32767)
    (hne : ¬(x = -32768 ∧ y = -32768)) : -(2 ^ 30) ≤ x * y ∧ x * y < 2 ^ 30 := by
  have hxabs : |x| ≤ 32768 := abs_le.mpr (by omega)
  have hyabs : |y| ≤ 32768 := abs_le.mpr (by omega)
  have hone : |x| ≤ 32767 ∨ |y| ≤ 32767 := by
    rw [abs_le, abs_le]
    omega
  have hprod : |x * y| ≤ 32767 * 32768 := by
    rw [abs_mul]
    obtain h | h := hone
    · exact mul_le_mul h hyabs (abs_nonneg y) (by decide)
    · exact (mul_comm |x| |y|).trans_le (mul_le_mul h hxabs (abs_nonneg x) (by decide))
  rw [abs_le] at hprod
  omega

theorem toInt_sample_range (a : S16) : -32768 ≤ a.toInt ∧ a.toInt ≤ 32767 :=
  ⟨a.le_toInt, Int.le_of_lt_add_one a.toInt_lt⟩

/-- Settles O30: the floor of a product below 2^30 in size is a sample. -/
theorem ringProduct : Obligations.RingProduct := by
  refine ⟨by decide, fun a b hne => ?_⟩
  have hprod := mul_samples_range (toInt_sample_range a) (toInt_sample_range b)
    fun ⟨ha, hb⟩ => hne ⟨BitVec.eq_of_toInt_eq ha, BitVec.eq_of_toInt_eq hb⟩
  rw [Int.fdiv_eq_ediv_of_nonneg _ (by decide), ring, asr]
  exact toInt_sat16 (by omega) (by omega)

end Sys2Proof.Machine
end

section
/-! PROOFS. The steps of a frame: what a frame reads of the memory (44_mixer_render.md R282), and the order in which it
steps the partials (42_partial.md R207). -/

namespace Sys2Proof.Machine

/-! ## The memory (R282, R209) -/

/-- Settles O51: of the registers that `withOuter` replaces a frame reads the reverb bytes alone, and writes the queue
alone. -/
theorem frameReadsNoMemory : Obligations.FrameReadsNoMemory := by
  intro F s m h
  obtain ⟨fr, hpushed, hframe⟩ := frameStep_withOuter F s { s with mem := m } h
  have hrest := (frameStep_frameOnly F s).rest
  refine hframe.trans ?_
  rw [withOuter, ← hpushed, hrest]

/-! ## A fold of steps over slots -/

/-- The steps of the slots of a list, one after the other, whatever their states. -/
def stepSlots (F : OpenFns) (l : List Nat) (s : State) : State := l.foldl (stepPartial F) s

theorem stepSlots_append (F : OpenFns) (l r : List Nat) (s : State) :
    stepSlots F (l ++ r) s = stepSlots F r (stepSlots F l s) := List.foldl_append

theorem stepSlots_cons (F : OpenFns) (i : Nat) (l : List Nat) (s : State) :
    stepSlots F (i :: l) s = stepSlots F l (stepPartial F s i) := rfl

theorem stepSlots_slotsOnly (F : OpenFns) (l : List Nat) (s : State) : SlotsOnly s (stepSlots F l s) :=
  SlotsOnly.foldl _ (fun s i => modPartial_slotsOnly s i _) l s

theorem stepSlots_voices (F : OpenFns) (l : List Nat) (s : State) : (stepSlots F l s).voices = s.voices :=
  foldl_voices (stepPartial F) (fun _ _ => rfl) l s

theorem stepPartial_get_self (F : OpenFns) (s : State) {i : Nat} {p : Partial} (hp : s.partials[i]? = some p) :
    (stepPartial F s i).partials[i]? = some (steppedPartial F s p) := by
  rw [stepPartial, modPartial_get, hp, Option.map_some, if_pos rfl]

theorem stepPartial_get_other (F : OpenFns) (s : State) {i j : Nat} (hne : i ≠ j) :
    (stepPartial F s i).partials[j]? = s.partials[j]? := by
  rw [stepPartial, modPartial_get]
  simp only [if_neg hne, Option.map_id_fun', id_eq]

/-- A slot that is not among those stepped is unchanged. -/
theorem stepSlots_get_of_not_mem (F : OpenFns) {l : List Nat} {j : Nat} (hj : j ∉ l) (s : State) :
    (stepSlots F l s).partials[j]? = s.partials[j]? := by
  induction l generalizing s with
  | nil => rfl
  | cons i l ih =>
    obtain ⟨hne, hj⟩ := not_or.mp (mt List.mem_cons.mpr hj)
    rw [stepSlots_cons, ih hj, stepPartial_get_other F s (Ne.symm hne)]

/-- A slot that is stepped once is stepped in the state that those before it leave. -/
theorem stepSlots_get (F : OpenFns) {l r : List Nat} {i : Nat} (hl : i ∉ l) (hr : i ∉ r) {s : State} {p : Partial}
    (hp : s.partials[i]? = some p) :
    (stepSlots F (l ++ i :: r) s).partials[i]? = some (steppedPartial F (stepSlots F l s) p) := by
  rw [stepSlots_append, stepSlots_cons, stepSlots_get_of_not_mem F hr]
  exact stepPartial_get_self F _ ((stepSlots_get_of_not_mem F hl s).trans hp)

/-! ## The order of a frame (R207) -/

/-- Whether a slot holds a live partial. -/
def isLive (s : State) (i : Nat) : Bool := (s.partials[i]?).any fun p => decide (p.st ≠ .inactive)

/-- The live slots that the playing voices name, voices ascending and `t` ascending within a voice. -/
def stepOrder (s : State) : List Nat := ((s.voices.filter (·.playing)).flatMap namedSlots).filter (isLive s)

theorem isLive_iff (s : State) (i : Nat) : isLive s i = true ↔ s.partialSt i ≠ .inactive := by
  unfold isLive State.partialSt
  cases s.partials[i]? with
  | none => simp
  | some p => simp

theorem isLive_of {s : State} {i : Nat} {p : Partial} (hp : s.partials[i]? = some p) (hst : p.st ≠ .inactive) :
    isLive s i = true := (isLive_iff s i).mpr (partialSt_of s i p hp ▸ hst)

/-- The step of one slot asks whether it is live in the state it is stepped in; where no live slot comes twice that is
whether it was live before the frame. -/
theorem foldl_stepNamed (F : OpenFns) (l : List Nat) (s : State) (h : (l.filter (isLive s)).Nodup) :
    l.foldl (fun s i => stepNamed F s (some i)) s = stepSlots F (l.filter (isLive s)) s := by
  induction l generalizing s with
  | nil => rfl
  | cons i l ih =>
    rw [List.foldl_cons]
    by_cases hi : isLive s i = true
    · rw [List.filter_cons_of_pos hi] at h ⊢
      obtain ⟨hnot, hnodup⟩ := List.nodup_cons.mp h
      have hstep : stepNamed F s (some i) = stepPartial F s i := if_pos ((isLive_iff s i).mp hi)
      have hsame : l.filter (isLive (stepPartial F s i)) = l.filter (isLive s) := by
        refine List.filter_congr fun j hj => ?_
        have hne : i ≠ j := fun e => hnot (e ▸ List.mem_filter.mpr ⟨hj, e ▸ hi⟩)
        rw [isLive, stepPartial_get_other F s hne, isLive]
      rw [hstep, ih _ (hsame ▸ hnodup), hsame, stepSlots_cons]
    · rw [List.filter_cons_of_neg hi] at h ⊢
      have hskip : stepNamed F s (some i) = s := if_neg fun hlive => hi ((isLive_iff s i).mpr hlive)
      rw [hskip, ih s h]

theorem stepPartials_eq_stepSlots (F : OpenFns) {s : State} (h : (stepOrder s).Nodup) :
    stepPartials F s = stepSlots F (stepOrder s) s := by
  rw [stepPartials_eq]
  exact foldl_stepNamed F _ s h

theorem namedSlots_eq (x : Voice) : namedSlots x = allT.filterMap x.partials.get := rfl

theorem mem_namedSlots {x : Voice} {i : Nat} : i ∈ namedSlots x ↔ ∃ t, x.partials.get t = some i := by
  simp only [namedSlots, List.mem_filterMap, id_eq, exists_eq_right, quad_mem_toList]

/-- The owner and the index of a slot tell which voice names it and where (10_state.md R25). -/
theorem VoiceInv.named_once {s : State} (hs : VoiceInv s) {v w : Nat} {x y : Voice} {t u : Fin 4} {i : Nat}
    (hv : s.voices[v]? = some x) (hw : s.voices[w]? = some y) (hx : x.playing = true) (hy : y.playing = true)
    (ht : x.partials.get t = some i) (hu : y.partials.get u = some i) : v = w ∧ t = u := by
  obtain ⟨p, hp, -, hpv, hpt⟩ := hs.namesLive v x hv hx t i ht
  obtain ⟨q, hq, -, hqw, hqu⟩ := hs.namesLive w y hw hy u i hu
  cases hp.symm.trans hq
  exact ⟨hpv.symm.trans hqw, hpt.symm.trans hqu⟩

/-- The order names no slot twice: neither within a voice nor across two. -/
theorem nodup_stepOrder {s : State} (hs : VoiceInv s) : (stepOrder s).Nodup := by
  refine List.Nodup.filter _ (List.nodup_flatMap.mpr ⟨fun x hx => ?_, ?_⟩)
  · rw [namedSlots_eq]
    obtain ⟨hmem, hplay⟩ := List.mem_filter.mp hx
    obtain ⟨v, hv⟩ := List.getElem?_of_mem hmem
    refine List.Nodup.filterMap (fun t u i ht hu => ?_) (by decide : allT.Nodup)
    exact (hs.named_once hv hv hplay hplay ht hu).2
  · rw [List.pairwise_filter]
    refine List.pairwise_iff_getElem.mpr fun v w hv hw hlt hx hy i hiv hiw => ?_
    obtain ⟨t, ht⟩ := mem_namedSlots.mp hiv
    obtain ⟨u, hu⟩ := mem_namedSlots.mp hiw
    exact hlt.ne
      (hs.named_once (List.getElem?_eq_getElem hv) (List.getElem?_eq_getElem hw) hx hy ht hu).1

/-- Of a pair, the slot of the master comes before that of the slave. -/
theorem pair_sublist_namedSlots {m n : Fin 4} (hpair : (m = 0 ∧ n = 1) ∨ (m = 2 ∧ n = 3)) {x : Voice} {i j : Nat}
    (hi : x.partials.get m = some i) (hj : x.partials.get n = some j) : [i, j].Sublist (namedSlots x) := by
  have hmn : [m, n].Sublist allT := by
    obtain ⟨rfl, rfl⟩ | ⟨rfl, rfl⟩ := hpair <;> decide
  have hnamed : [m, n].filterMap x.partials.get = [i, j] := by
    rw [List.filterMap_cons_some hi, List.filterMap_cons_some hj, List.filterMap_nil]
  exact hnamed ▸ hmn.filterMap _

theorem pair_sublist_stepOrder {s : State} {m n : Fin 4} (hpair : (m = 0 ∧ n = 1) ∨ (m = 2 ∧ n = 3)) {x : Voice}
    {i j : Nat} (hx : x ∈ s.voices) (hplay : x.playing = true) (hi : x.partials.get m = some i)
    (hj : x.partials.get n = some j) (hilive : isLive s i = true) (hjlive : isLive s j = true) :
    [i, j].Sublist (stepOrder s) := by
  have hvoice : namedSlots x ∈ (s.voices.filter (·.playing)).map namedSlots :=
    List.mem_map_of_mem (List.mem_filter.mpr ⟨hx, hplay⟩)
  have hsub := (pair_sublist_namedSlots hpair hi hj).trans (List.sublist_flatten_of_mem hvoice)
  rw [← List.flatMap_def] at hsub
  have hfilter := hsub.filter (isLive s)
  rwa [List.filter_cons_of_pos hilive, List.filter_cons_of_pos hjlive] at hfilter

/-- In a list that names no slot twice, a slot stands neither before nor behind itself. -/
theorem not_mem_of_nodup_middle {l r : List Nat} {i : Nat} (h : (l ++ i :: r).Nodup) : i ∉ l ∧ i ∉ r := by
  obtain ⟨hnot, -⟩ := List.nodup_cons.mp (List.nodup_middle.mp h)
  exact not_or.mp (mt List.mem_append.mpr hnot)

/-- Of two slots that are stepped once each, the first sees the second as it was, and the second sees the first
stepped. -/
theorem stepSlots_pair (F : OpenFns) {l : List Nat} (hnodup : l.Nodup) {i j : Nat} (hsub : [i, j].Sublist l) {s : State}
    {p q : Partial} (hp : s.partials[i]? = some p) (hq : s.partials[j]? = some q) :
    ∃ a b : State,
      (stepSlots F l s).partials[i]? = some (steppedPartial F a p) ∧ a.partials[j]? = some q ∧ a.voices = s.voices ∧
      (stepSlots F l s).partials[j]? = some (steppedPartial F b q) ∧
      b.partials[i]? = (stepSlots F l s).partials[i]? ∧ b.voices = s.voices := by
  obtain ⟨l₁, l₂, rfl, hi, hj⟩ := List.cons_sublist_iff.mp hsub
  obtain ⟨A, B, rfl⟩ := List.append_of_mem hi
  obtain ⟨C, D, rfl⟩ := List.append_of_mem (List.singleton_sublist.mp hj)
  have hfirst : A ++ i :: B ++ (C ++ j :: D) = A ++ i :: (B ++ (C ++ j :: D)) := by simp
  have hsecond : A ++ i :: B ++ (C ++ j :: D) = A ++ i :: (B ++ C) ++ j :: D := by simp
  obtain ⟨hiA, hirest⟩ := not_mem_of_nodup_middle (hfirst ▸ hnodup)
  obtain ⟨hjbefore, hjD⟩ := not_mem_of_nodup_middle (hsecond ▸ hnodup)
  have hiBC : i ∉ B ++ C := fun h => hirest (((List.sublist_append_left C _).append_left B).subset h)
  have hjA : j ∉ A := fun h => hjbefore (List.mem_append_left _ h)
  have hstepped : (stepSlots F (A ++ i :: B ++ (C ++ j :: D)) s).partials[i]? =
      some (steppedPartial F (stepSlots F A s) p) := hfirst ▸ stepSlots_get F hiA hirest hp
  refine ⟨stepSlots F A s, stepSlots F (A ++ i :: (B ++ C)) s, hstepped, ?_, stepSlots_voices F A s, ?_, ?_,
    stepSlots_voices F _ s⟩
  · rw [stepSlots_get_of_not_mem F hjA, hq]
  · exact hsecond ▸ stepSlots_get F hjbefore hjD hq
  · rw [hstepped, stepSlots_get F hiA hiBC hp]

/-- The slot at place `k` of the list is stepped in the state that the first `k` leave. -/
theorem stepSlots_get_at (F : OpenFns) {l : List Nat} (hnodup : l.Nodup) {k i : Nat} (hk : l[k]? = some i) {s : State}
    {p : Partial} (hp : s.partials[i]? = some p) :
    (stepSlots F l s).partials[i]? = some (steppedPartial F (stepSlots F (l.take k) s) p) := by
  obtain ⟨hlt, rfl⟩ := List.getElem?_eq_some_iff.mp hk
  have hsplit : l = l.take k ++ l[k] :: l.drop (k + 1) := by
    rw [← List.drop_eq_getElem_cons hlt, List.take_append_drop]
  obtain ⟨hbefore, hbehind⟩ := not_mem_of_nodup_middle (hsplit ▸ hnodup)
  have hget := stepSlots_get F hbefore hbehind hp
  rwa [← hsplit] at hget

/-- Settles O33: a frame is one fold of steps over its order, in which no slot comes twice and a pair's master comes
before its slave. -/
theorem masterStepsFirst : Obligations.MasterStepsFirst := by
  intro F s order t
  refine ⟨nodup_stepOrder, fun hnodup => ?_⟩
  have ht : t = stepSlots F order s := stepPartials_eq_stepSlots F hnodup
  rw [ht]
  refine ⟨rfl, ?_, fun k i p hk => stepSlots_get_at F hnodup hk, fun j hj => stepSlots_get_of_not_mem F hj s,
    fun m n v i j x pi pj hpair hx hplay hi hj hpi hilive hpj hjlive => ?_⟩
  · obtain ⟨hrest, -, -⟩ := stepSlots_slotsOnly F order s
    rwa [stepSlots_voices] at hrest
  · have hsub := pair_sublist_stepOrder hpair (List.mem_of_getElem? hx) hplay hi hj (isLive_of hpi hilive)
      (isLive_of hpj hjlive)
    exact stepSlots_pair F hnodup hsub hpi hpj

end Sys2Proof.Machine
end

section
/-! PROOFS. The releases of the voice allocator (43_voice_allocator.md R248, R249, R251, R252, R254): which voices
NOTE_OFF, SUSTAIN, ALL_NOTES_OFF and the MONO policy release. -/

namespace Sys2Proof.Machine

/-! ## The checks of the three commands (R251, R252, R254) -/

theorem checkNoteOff_eq_none_iff (part : BitVec 4) (key : Byte) (rsv : BitVec 16) :
    checkNoteOff part key rsv = none ↔ rsv = 0 ∧ part.toNat ≤ 8 ∧ key.toNat ≤ 127 := by
  simp only [checkNoteOff, firstReject_eq_none, List.forall_mem_cons, List.not_mem_nil, false_imp_iff, implies_true,
    and_true, bne_eq_false_iff_eq, badPart, above127, Config.rhythmPart, decide_eq_false_iff_not, not_lt]
  rfl

theorem checkSustain_eq_none_iff (part : BitVec 4) (rsv : BitVec 23) :
    checkSustain part rsv = none ↔ rsv = 0 ∧ part.toNat ≤ 8 := by
  simp only [checkSustain, firstReject_eq_none, List.forall_mem_cons, List.not_mem_nil, false_imp_iff, implies_true,
    and_true, bne_eq_false_iff_eq, badPart, Config.rhythmPart, decide_eq_false_iff_not, not_lt]
  rfl

theorem checkAllNotesOff_eq_none_iff (part : BitVec 4) (rsv : BitVec 24) :
    checkAllNotesOff part rsv = none ↔ rsv = 0 ∧ part.toNat ≤ 8 := by
  simp only [checkAllNotesOff, firstReject_eq_none, List.forall_mem_cons, List.not_mem_nil, false_imp_iff, implies_true,
    and_true, bne_eq_false_iff_eq, badPart, Config.rhythmPart, decide_eq_false_iff_not, not_lt]
  rfl

/-! ## What a key and a pedal do -/

/-- A key let go marks the voices it matches where the pedal is down, and releases them where it is up (R251). -/
theorem releaseKey_eq {s : State} {p : Nat} {r : PartRegs} (hr : s.parts[p]? = some r) (key : Byte) :
    releaseKey p key s =
      if r.pedal then holdWhere s (noteOffMatches p key) else releaseAll s (noteOffMatches p key) := by
  simp only [releaseKey, pedalOf, hr, releaseWhere_eq]

/-- A pedal that goes up is cleared, and releases the voices it held (R252). -/
theorem setPedal_up (p : Nat) (s : State) :
    setPedal p false s = releaseAll (s.modPart p fun r => { r with pedal := false }) (pedalUpMatches p) :=
  releaseWhere_eq _ _

/-- Settles O42: the command passes its checks, and the pedal of its part decides what it does to the voices. -/
theorem noteOffReleases : Obligations.NoteOffReleases := by
  intro s part key r hpart hkey hr hits
  have hcheck : checkNoteOff part key 0 = none := (checkNoteOff_eq_none_iff _ _ _).mpr ⟨rfl, hpart, hkey⟩
  have hmatch : noteOffMatches part.toNat key = hits := rfl
  rw [exec_applied (.noteOff part key 0) rfl hcheck, effect, releaseKey_eq hr, hmatch]
  cases r.pedal <;> rfl

/-- Settles O43: the command passes its checks, and a pedal that goes up releases what it held. -/
theorem sustainSetsPedal : Obligations.SustainSetsPedal := by
  intro s part on hpart s1
  have hcheck : checkSustain part 0 = none := (checkSustain_eq_none_iff _ _).mpr ⟨rfl, hpart⟩
  rw [exec_applied (.sustain part 0 on) rfl hcheck, effect]
  by_cases hon : on = 1
  · subst hon
    rfl
  · have hup : (on == 1#1) = false := beq_eq_false_iff_ne.mpr hon
    have hs1 : s1 = s.modPart part.toNat fun r => { r with pedal := false } := by
      simp only [s1, decide_eq_false hon, State.modPart]
    rw [hup, setPedal_up, if_neg hon, hs1]
    rfl

/-- Settles O45: the command passes its checks, and its loop releases the voices its test admits. -/
theorem allNotesOffReleases : Obligations.AllNotesOffReleases := by
  intro s part hpart
  have hcheck : checkAllNotesOff part 0 = none := (checkAllNotesOff_eq_none_iff _ _).mpr ⟨rfl, hpart⟩
  have heffect : effect (.allNotesOff part 0) s = releaseAll s (allOffMatches part.toNat) := releaseWhere_eq _ _
  rw [exec_applied (.allNotesOff part 0) rfl hcheck, heffect]
  rfl

/-! ## MONO (R248) -/

/-- Modes 0 and 1 are MONO, the others POLY. -/
theorem assignPolicy_eq_mono_iff (mode : Byte) : assignPolicy mode = .mono ↔ mode.toNat < 2 := by
  unfold assignPolicy
  split <;> simp [*]

/-- The admitted voice that no admitted voice precedes, by age and then by slot, is the oldest (R241). -/
theorem oldest_eq_some {m : Voice → Bool} {voices : List Voice} {u : Nat} {x : Voice} (hx : voices[u]? = some x)
    (hm : m x = true)
    (hold : ∀ (w : Nat) (y : Voice), voices[w]? = some y → m y = true →
      y.age.toNat ≤ x.age.toNat ∧ (y.age.toNat = x.age.toNat → u ≤ w)) : oldest m voices = some u := by
  cases ho : oldest m voices with
  | none =>
    have hno := (oldest_none m voices).mp ho x (List.mem_of_getElem? hx)
    exact absurd hm (Bool.eq_false_iff.mp hno)
  | some w =>
    obtain ⟨y, hy, hmy, hmin⟩ := oldest_some m voices w ho
    obtain ⟨hyx, huw⟩ := hold w y hy hmy
    obtain ⟨hxy, hwu⟩ := hmin u x hx hm
    have hage : y.age.toNat = x.age.toNat := le_antisymm hyx hxy
    exact congrArg some (le_antisymm (hwu hage.symm) (huw hage))

/-- The test of `monoRelease`: playing, of the part, not decaying. -/
theorem monoTest_iff (p : Nat) (x : Voice) :
    (x.playing && x.part.toNat == p && !x.decay) = true ↔
      x.playing = true ∧ x.part.toNat = p ∧ x.decay = false := by
  simp [and_assoc]

/-- Settles O41: the oldest voice that the test of MONO admits is the one released. -/
theorem monoReleasesOldest : Obligations.MonoReleasesOldest := by
  refine ⟨⟨rfl, rfl, rfl, rfl⟩, fun s p => ⟨fun hnone => ?_, fun u x hx hplay hpart hdecay hold => ?_⟩⟩
  · have ho := (oldest_none (fun x => x.playing && x.part.toNat == p && !x.decay) s.voices).mpr fun x hx =>
      Bool.eq_false_iff.mpr fun h => hnone x hx ((monoTest_iff p x).mp h)
    simp only [monoRelease, ho]
  · have ho := oldest_eq_some hx ((monoTest_iff p x).mpr ⟨hplay, hpart, hdecay⟩) fun w y hy hmy => by
      obtain ⟨hyplay, hypart, hydecay⟩ := (monoTest_iff p y).mp hmy
      exact hold w y hy hyplay hypart hydecay
    simp only [monoRelease, ho]
    exact releaseVoice_eq s u x hx

end Sys2Proof.Machine
end

section
/-! PROOFS. NOTE_ON (43_voice_allocator.md R242 to R250): the records a note reads, the note that starts nothing, and
the note that always starts, in the state that release and stealing leave. -/

namespace Sys2Proof.Machine

/-! ## The records a note reads (R242) -/

theorem resolve_melodic (m : Memory) {p : Nat} (hp : p ≤ 7) (key : Byte) :
    resolve m p key =
      some (Memory.readBlock m (0x0180 + 246 * p) 246, melodicContext (Memory.readBlock m (16 * p) 16)) := by
  rw [resolve, if_pos (Nat.lt_succ_of_le hp), recordAddr_patchTemp, recordAddr_timbreTemp]

/-- On the rhythm part the record of the key names the timbre, 94 being OFF. -/
theorem resolve_rhythm (m : Memory) (key : Byte) :
    let r := 0x0080 + 4 * (key.toNat - 24)
    resolve m 8 key =
      if Memory.read m r = 94 then none
      else
        some (Memory.readBlock m (0x0D30 + 246 * (128 + (Memory.read m r).toNat)) 246,
          rhythmContext (Memory.readBlock m r 4)) := by
  intro r
  have hentry : byteAt (Memory.readBlock m r 4) 0 = Memory.read m r := byteAt_readBlock m r 4 0 (by decide)
  rw [resolve, if_neg (by decide), recordAddr_rhythmTemp]
  simp only [recordAddr_timbres]
  rw [hentry]
  rfl

theorem melodicContext_readBlock (m : Memory) (a : Nat) :
    melodicContext (Memory.readBlock m a 16) =
      ⟨Memory.read m (a + 2), Memory.read m (a + 3), Memory.read m (a + 4), Memory.read m (a + 5),
        decide (Memory.read m (a + 6) = 1), Memory.read m (a + 8), Memory.read m (a + 9)⟩ := by
  have hbyte : ∀ k, k < 16 → byteAt (Memory.readBlock m a 16) k = Memory.read m (a + k) := byteAt_readBlock m a 16
  simp only [melodicContext, hbyte, Nat.reduceLT]
  rfl

theorem rhythmContext_readBlock (m : Memory) (a : Nat) :
    rhythmContext (Memory.readBlock m a 4) =
      ⟨24, 50, 0, 2, decide (Memory.read m (a + 3) = 1), Memory.read m (a + 1), Memory.read m (a + 2)⟩ := by
  have hbyte : ∀ k, k < 4 → byteAt (Memory.readBlock m a 4) k = Memory.read m (a + k) := byteAt_readBlock m a 4
  simp only [rhythmContext, hbyte, Nat.reduceLT]
  rfl

/-- Settles O35: a record read as a block is its bytes at their addresses. -/
theorem resolveReads : Obligations.ResolveReads := by
  intro m p key
  refine ⟨fun hp => ?_, ?_⟩
  · exact ⟨_, _, resolve_melodic m hp key, length_readBlock _ _ _, fun k hk => getD_readBlock _ _ _ _ hk,
      melodicContext_readBlock m _⟩
  · rintro rfl - - r
    refine ⟨fun hoff => ?_, fun hon => ?_⟩
    · exact (resolve_rhythm m key).trans (if_pos hoff)
    · exact ⟨_, _, (resolve_rhythm m key).trans (if_neg hon), length_readBlock _ _ _,
        fun k hk => getD_readBlock _ _ _ _ hk, rhythmContext_readBlock m r⟩

/-! ## A note that passes its checks -/

/-- Operands in range pass the checks of NOTE_ON (R250). -/
theorem checkNoteOn_of_inRange {part : BitVec 4} {key vel : Byte} (hpart : part.toNat ≤ 8) (hkey : key.toNat ≤ 127)
    (hvel : vel.toNat ≤ 127) (hrhythm : part.toNat = 8 → 24 ≤ key.toNat ∧ key.toNat ≤ 87) :
    checkNoteOn part key vel 0 = none := by
  rw [checkNoteOn, firstReject_eq_none]
  simp only [List.forall_mem_cons, List.not_mem_nil, false_imp_iff, implies_true, and_true, bne_eq_false_iff_eq,
    badPart, above127, isRhythm, outsideRhythmKeys, Config.rhythmPart, decide_eq_false_iff_not, Bool.and_eq_false_iff,
    Bool.or_eq_false_iff]
  exact ⟨rfl, by omega⟩

theorem exec_noteOn_applied {part : BitVec 4} {key vel : Byte} (hpart : part.toNat ≤ 8) (hkey : key.toNat ≤ 127)
    (hvel : vel.toNat ≤ 127) (hrhythm : part.toNat = 8 → 24 ≤ key.toNat ∧ key.toNat ≤ 87) (s : State) :
    exec (.noteOn part key vel 0) s = .next ((strike Config.openFns part key vel s).advance 1) :=
  exec_applied (.noteOn part key vel 0) rfl (checkNoteOn_of_inRange hpart hkey hvel hrhythm) s

/-! ## A note that starts nothing (R243) -/

/-- A note that is OFF, or whose timbre has no playable partial, does nothing. -/
theorem strike_of_silent (F : OpenFns) {s : State} {part : BitVec 4} {key : Byte} (vel : Byte)
    (hsilent : ∀ timbre ctx, resolve s.mem part.toNat key = some (timbre, ctx) →
      popcount4 (partialMask timbre) = 0) : strike F part key vel s = s := by
  unfold strike
  cases hres : resolve s.mem part.toNat key with
  | none => rfl
  | some note => exact if_pos (hsilent note.1 note.2 hres)

/-- Settles O38: the command passes its checks, and its note starts nothing. -/
theorem noteOnWithoutPartials : Obligations.NoteOnWithoutPartials := by
  intro s part key vel hpart hkey hvel hrhythm hsilent
  have hstrike : strike Config.openFns part key vel s = s := strike_of_silent _ vel fun timbre ctx hres =>
    Nat.eq_zero_of_not_pos fun hpos => hsilent timbre ctx hres ((popcount4_pos timbre).mp hpos)
  rw [exec_noteOn_applied hpart hkey hvel hrhythm, hstrike]
  rfl

/-! ## The state a note is started in (R247, R248) -/

/-- What the release under MONO leaves for a note of part `p`. -/
def releasedFor (mode : Byte) (p : Nat) (s : State) : State := if mode.toNat < 2 then monoRelease s p else s

/-- What that release and the stealing of `n` slots leave. -/
def freedFor (n : Nat) (mode : Byte) (p : Nat) (s : State) : State :=
  stealVoices n (releasedFor mode p s).partials.length (releasedFor mode p s)

theorem releasedFor_slotsOnly (mode : Byte) (p : Nat) (s : State) : SlotsOnly s (releasedFor mode p s) := by
  unfold releasedFor
  split
  · exact monoRelease_slotsOnly s p
  · exact .refl s

theorem releasedFor_voiceInv {s : State} (hs : VoiceInv s) (mode : Byte) (p : Nat) :
    VoiceInv (releasedFor mode p s) := by
  unfold releasedFor
  split
  · exact (monoRelease_sameShape s p).voiceInv hs
  · exact hs

theorem freedFor_slotsOnly (n : Nat) (mode : Byte) (p : Nat) (s : State) : SlotsOnly s (freedFor n mode p s) :=
  (releasedFor_slotsOnly mode p s).trans (stealVoices_slotsOnly _ _ _)

theorem freedFor_steals {s : State} (hs : VoiceInv s) {n : Nat} (hn : n ≤ 4) (mode : Byte) (p : Nat) :
    Steals n (releasedFor mode p s) (freedFor n mode p s) := by
  have hinv := releasedFor_voiceInv hs mode p
  exact stealVoices_steals hinv (hn.trans hinv.atLeastFour) ((hn.trans hinv.atLeastFour).trans (Nat.le_add_left _ _))

/-- Under POLY a note that finds its slots free is started in the state as it stands. -/
theorem freedFor_of_poly {s : State} (hs : VoiceInv s) {n : Nat} (hn : n ≤ 4) (hfree : n ≤ (freeSlots s).length)
    {mode : Byte} (hpoly : 2 ≤ mode.toNat) (p : Nat) : freedFor n mode p s = s := by
  have hreleased : releasedFor mode p s = s := if_neg (Nat.not_lt.mpr hpoly)
  have hsteals := freedFor_steals hs hn mode p
  rw [hreleased] at hsteals
  exact hsteals.eq_of_enough (freePartials_eq s ▸ hfree)

/-- A note with a playable partial is started in the state that release and stealing leave (R250). -/
theorem strike_of_playable (F : OpenFns) {s : State} {part : BitVec 4} {key : Byte} (vel : Byte) {timbre : List Byte}
    {ctx : PatchContext} (hres : resolve s.mem part.toNat key = some (timbre, ctx))
    (hpos : 0 < popcount4 (partialMask timbre)) :
    strike F part key vel s =
      allocateNote F part key vel timbre ctx
        (freedFor (popcount4 (partialMask timbre)) ctx.assignMode part.toNat s) := by
  simp only [strike, hres, if_neg hpos.ne', assignPolicy_eq_mono_iff]
  rfl

/-! ## A note that starts (R245, R246) -/

/-- The lowest free voice is free, and every voice below it plays (R241). -/
theorem lowestFreeVoice_some {s : State} {v : Nat} (h : lowestFreeVoice s = some v) :
    (∀ (u : Nat) (y : Voice), u < v → s.voices[u]? = some y → y.playing = true) ∧
      ∃ y, s.voices[v]? = some y ∧ y.playing = false := by
  obtain ⟨hv, hfree, hbelow⟩ := List.findIdx?_eq_some_iff_getElem.mp h
  refine ⟨fun u y hu hy => ?_, s.voices[v], List.getElem?_eq_getElem hv, by simpa using hfree⟩
  obtain ⟨hlt, rfl⟩ := List.getElem?_eq_some_iff.mp hy
  simpa using hbelow u hu

/-- What writes slots alone leaves of what a cache is built from. -/
theorem SlotsOnly.cacheInputs {s t : State} (h : SlotsOnly s t) : t.mem = s.mem ∧ t.sr = s.sr ∧ t.pcm = s.pcm := by
  rw [h.1]
  exact ⟨rfl, rfl, rfl⟩

/-- The start of a note (R245 to R250): release and stealing leave the slots it needs, it takes the lowest free voice
and the lowest free slots, and every other voice and slot stays as release and stealing leave it. -/
theorem strike_starts (F : OpenFns) {s : State} (hs : VoiceInv s) {part : BitVec 4} {key vel : Byte}
    {timbre : List Byte} {ctx : PatchContext} (hres : resolve s.mem part.toNat key = some (timbre, ctx))
    (hpos : 0 < popcount4 (partialMask timbre)) {freed : State}
    (hfreed : freed = freedFor (popcount4 (partialMask timbre)) ctx.assignMode part.toNat s) :
    ∃ v q, lowestFreeVoice freed = some v ∧ popcount4 (partialMask timbre) ≤ (freeSlots freed).length ∧
      (∀ u, u ≠ v → (strike F part key vel s).voices[u]? = freed.voices[u]?) ∧
      (∀ j, j ∉ (freeSlots freed).take (popcount4 (partialMask timbre)) →
        (strike F part key vel s).partials[j]? = freed.partials[j]?) ∧
      (strike F part key vel s).voices[v]? = some { newVoice s.mem part key vel timbre ctx with partials := q } ∧
      (∀ r, playable timbre r = false → q.get r = none) ∧
      ∀ r, playable timbre r = true → ∃ i, (freeSlots freed)[rankOf timbre r]? = some i ∧ q.get r = some i ∧
        (strike F part key vel s).partials[i]? =
          some (startedPartial v r (cacheOf F s.sr s.pcm (Memory.read s.mem masterTuneAddr) timbre r ctx key vel)) := by
  obtain ⟨hinv, henough⟩ := (freedFor_steals hs (popcount4_le (partialMask timbre)) ctx.assignMode part.toNat).after
  obtain ⟨hmem, hsr, hpcm⟩ :=
    (freedFor_slotsOnly (popcount4 (partialMask timbre)) ctx.assignMode part.toNat s).cacheInputs
  rw [strike_of_playable F vel hres hpos]
  rw [← hfreed] at hinv henough hmem hsr hpcm ⊢
  obtain ⟨v, q, hv, -, hnote⟩ := allocateNote_spec F part key vel timbre ctx freed hinv hpos henough
  rw [hmem, hsr, hpcm] at hnote
  exact ⟨v, q, hv, freePartials_eq freed ▸ henough, hnote⟩

/-- A note and the advance of `cp` after it write the voices, the partials and `cp` alone. -/
theorem strike_advance (F : OpenFns) (part : BitVec 4) (key vel : Byte) (s : State) :
    (strike F part key vel s).advance 1 =
      { s with
        voices := (strike F part key vel s).voices
        partials := (strike F part key vel s).partials
        cp := s.cp + 1 } :=
  congrArg (State.advance · 1) (strike_slotsOnly F part key vel s).1

/-- Settles O36: the command passes its checks, and the start of the note says each clause. -/
theorem noteOnAlwaysStarts : Obligations.NoteOnAlwaysStarts := by
  intro s part key vel timbre ctx hs hpart hkey hvel hrhythm hres hplayable n released freed
  have hpos : 0 < popcount4 (partialMask timbre) := (popcount4_pos timbre).mpr hplayable
  have hn : popcount4 (partialMask timbre) = n := popcount4_partialMask timbre
  have hfreed : freed = freedFor (popcount4 (partialMask timbre)) ctx.assignMode part.toNat s := hn ▸ rfl
  obtain ⟨v, q, hv, henough, hvoices, hpartials, hvoice, hunnamed, hnamed⟩ :=
    strike_starts Config.openFns (vel := vel) hs hres hpos hfreed
  rw [hn] at henough hpartials
  obtain ⟨hbelow, hfree⟩ := lowestFreeVoice_some hv
  refine ⟨_, v, _, exec_noteOn_applied hpart hkey hvel hrhythm s, strike_advance _ _ _ _ _, hbelow, hfree, hvoices,
    henough, hpartials, fun r hr => ?_, hvoice, rfl, BitVec.toNat_setWidth_of_le (by decide), rfl,
    toInt_noteFreq key ctx, rfl, rfl, rfl, rfl, rfl, rfl, rfl, rfl, rfl, fun r => ?_⟩
  · obtain ⟨i, hi, hq, -⟩ := hnamed r ((playable_bit timbre r).trans hr)
    exact hq.trans hi.symm
  · rw [← playable_bit]
    split
    · next hr =>
      obtain ⟨i, -, hq, hslot⟩ := hnamed r hr
      exact ⟨i, _, hq, by rw [buildCache_playable, if_pos hr], hslot⟩
    · next hr => exact hunnamed r (Bool.eq_false_iff.mpr hr)

/-- Settles O37: where the slots are free and the part is POLY, the state a note is started in is the one it finds. -/
theorem noteOnTakesLowestSlots : Obligations.NoteOnTakesLowestSlots := by
  intro s part key vel timbre ctx n hs hpart hkey hvel hrhythm hres hplayable hfree hpoly
  have hpos : 0 < popcount4 (partialMask timbre) := (popcount4_pos timbre).mpr hplayable
  have hn : popcount4 (partialMask timbre) = n := popcount4_partialMask timbre
  have hfreed := freedFor_of_poly hs (popcount4_le (partialMask timbre)) (hn ▸ hfree) hpoly part.toNat
  obtain ⟨v, q, hv, -, hvoices, hpartials, hvoice, -, hnamed⟩ :=
    strike_starts Config.openFns (vel := vel) hs hres hpos hfreed.symm
  rw [hn] at hpartials
  obtain ⟨hbelow, hvfree⟩ := lowestFreeVoice_some hv
  obtain ⟨-, hvlen, hplen⟩ := strike_slotsOnly Config.openFns part key vel s
  refine ⟨_, v, _, exec_noteOn_applied hpart hkey hvel hrhythm s, strike_advance _ _ _ _ _, hvlen, hplen, hbelow,
    hvfree, hvoice, rfl, rfl, fun r hr => ?_, hvoices, hpartials⟩
  obtain ⟨i, hi, hq, -⟩ := hnamed r ((playable_bit timbre r).trans hr)
  exact hq.trans hi.symm

end Sys2Proof.Machine
end

section
/-! PROOFS. RENDER (44_mixer_render.md R280): its frame steps are an iteration, and a rendering does not read the
command pointer, so that it can be cut in two. -/

namespace Sys2Proof.Machine

theorem frames_eq_iterate (F : OpenFns) (n : Nat) (s : State) : frames F n s = (frameStep F)^[n] s := by
  induction n generalizing s with
  | zero => rfl
  | succ n ih => exact ih (frameStep F s)

theorem frames_cp (F : OpenFns) (n : Nat) (s : State) : (frames F n s).cp = s.cp := by
  rw [(frames_frameOnly F n s).rest]

/-- Where the command pointer stands makes no difference to a rendering. -/
theorem frames_advance (F : OpenFns) (n k : Nat) (s : State) :
    frames F n (s.advance k) = (frames F n s).advance k := by
  obtain ⟨pushed, hpushed, houter⟩ := frames_withOuter F n s (s.advance k) rfl
  have hrest := (frames_frameOnly F n s).rest
  refine houter.trans ?_
  rw [withOuter, advance_audioQ, ← hpushed, hrest]
  rfl

/-- With its reserved bits 0 a RENDER has no check to fail. -/
theorem exec_render_applied (count : BitVec 24) (s : State) :
    exec (.render 0 count) s = .next ((frames Config.openFns count.toNat s).advance 1) :=
  exec_applied (.render 0 count) rfl rfl s

/-- Settles O48: the rendering pushes its frames and writes no more than its frame steps do. -/
theorem renderPushesFrames : Obligations.RenderPushesFrames := by
  intro s count
  obtain ⟨pushed, hlen, hpushed⟩ := frames_audioQ Config.openFns count.toNat s
  have hrest := (frames_frameOnly Config.openFns count.toNat s).rest
  refine ⟨_, pushed, exec_render_applied count s, ?_, hlen, hpushed, fun hzero => ?_, ?_⟩
  · rw [← frames_eq_iterate, State.advance, frames_cp]
  · rw [hzero]
    rfl
  · rw [hrest]
    rfl

/-- Settles O49: the second rendering goes on where the first one ends, whatever its command pointer. -/
theorem renderSplits : Obligations.RenderSplits := by
  intro s t u a b hsum ha hb
  have hcount : (a + b).toNat = a.toNat + b.toNat := BitVec.toNat_add_of_lt (by omega)
  rw [exec_render_applied] at ha hb
  cases ha
  cases hb
  have hcp : (frames Config.openFns b.toNat (frames Config.openFns a.toNat s)).cp = s.cp := by
    rw [frames_cp, frames_cp]
  rw [exec_render_applied, hcount, frames_add, frames_advance, State.advance, hcp]
  rfl

end Sys2Proof.Machine
end

section
/-! PROOFS. One frame (44_mixer_render.md R281 to R291): the reverb registers it starts from, the three buses as sums
over the playing voices, and what becomes of each voice. -/

namespace Sys2Proof.Machine

/-! ## The start of a frame (R283) -/

/-- The state in which a frame steps its partials: the reverb is recomputed where a reverb byte was written. -/
def reverbFresh (F : OpenFns) (s : State) : State := if s.reverbDirty then reverbRecompute F s else s

theorem frameStep_eq (F : OpenFns) (s : State) :
    frameStep F s = bookkeep (outputFrame F (stepPartials F (reverbFresh F s))) := rfl

theorem reverbFresh_eq (F : OpenFns) (s : State) :
    reverbFresh F s =
      { s with
        rc := if s.reverbDirty then (reverbRecompute F s).rc else s.rc
        rs := if s.reverbDirty then fRs0 F s.sr else s.rs
        reverbDirty := false } := by
  unfold reverbFresh
  split
  · rfl
  · next hclean => rw [← Bool.eq_false_iff.mpr hclean]

theorem reverbFresh_voices (F : OpenFns) (s : State) : (reverbFresh F s).voices = s.voices := by
  rw [reverbFresh_eq]

/-- What the output half of a frame reads besides the slots, and the register it pushes to. -/
theorem SlotsOnly.outputInputs {s t : State} (h : SlotsOnly s t) :
    t.sr = s.sr ∧ t.rc = s.rc ∧ t.rs = s.rs ∧ t.audioQ = s.audioQ ∧ t.reverbDirty = s.reverbDirty := by
  obtain ⟨hrest, -, -⟩ := h
  rw [hrest]
  exact ⟨rfl, rfl, rfl, rfl, rfl⟩

/-! ## The buses (R287) -/

/-- The gain of one voice's sum. -/
def voiceGain (F : OpenFns) (s : State) (x : Voice) : Int :=
  fGain F s.sr (toS32 (voiceSum s x)) x.level x.masterVol

theorem mixVoice_free (F : OpenFns) (s : State) (mix : Mix) {x : Voice} (h : x.playing = false) :
    mixVoice F s mix x = mix := if_neg (Bool.eq_false_iff.mp h)

theorem mixVoice_playing (F : OpenFns) (s : State) (mix : Mix) {x : Voice} (h : x.playing = true) :
    mixVoice F s mix x =
      { dryL := mix.dryL + asr (voiceGain F s x * fPanL F s.sr x.pan) 15
        dryR := mix.dryR + asr (voiceGain F s x * fPanR F s.sr x.pan) 15
        send := if x.reverb then mix.send + voiceGain F s x else mix.send } := if_pos h

/-- What the playing voices of a list add to the buses. -/
def busSums (F : OpenFns) (s : State) (voices : List Voice) : Mix where
  dryL := ((voices.filter (·.playing)).map fun x => asr (voiceGain F s x * fPanL F s.sr x.pan) 15).sum
  dryR := ((voices.filter (·.playing)).map fun x => asr (voiceGain F s x * fPanR F s.sr x.pan) 15).sum
  send := (((voices.filter (·.playing)).filter (·.reverb)).map (voiceGain F s)).sum

theorem foldl_mixVoice (F : OpenFns) (s : State) (voices : List Voice) (mix : Mix) :
    voices.foldl (mixVoice F s) mix =
      { dryL := mix.dryL + (busSums F s voices).dryL
        dryR := mix.dryR + (busSums F s voices).dryR
        send := mix.send + (busSums F s voices).send } := by
  induction voices generalizing mix with
  | nil => simp [busSums]
  | cons x voices ih =>
    rw [List.foldl_cons, ih]
    cases hplay : x.playing with
    | false => simp [mixVoice_free F s mix hplay, busSums, hplay]
    | true => cases hsend : x.reverb <;> simp [mixVoice_playing F s mix hplay, busSums, hplay, hsend, add_assoc]

/-- The dry mix and the send are sums over the playing voices. -/
theorem mixVoices_eq (F : OpenFns) (s : State) : mixVoices F s = busSums F s s.voices := by
  simp only [mixVoices, foldl_mixVoice, zero_add]

theorem voiceSum_eq (s : State) (x : Voice) :
    voiceSum s x =
      outOf s (x.partials.get 0) + outOf s (x.partials.get 1) + outOf s (x.partials.get 2) +
        outOf s (x.partials.get 3) := by
  simp only [voiceSum, Quad.toList, Quad.get, List.map_cons, List.map_nil, List.sum_cons, List.sum_nil, add_zero,
    add_assoc]

/-- `asr` rounds toward minus infinity, as `Int.fdiv` does (00_scope.md R9). -/
theorem asr_eq_fdiv (x : Int) (n : Nat) : asr x n = Int.fdiv x (2 ^ n) :=
  (Int.fdiv_eq_ediv_of_nonneg x (by positivity)).symm

/-- `sat16` clamps to the range of a sample (00_scope.md R9). -/
theorem toInt_sat16_eq_clamp (z : Int) : (sat16 z).toInt = max (-32768) (min 32767 z) := by
  rw [sat16, BitVec.toInt_ofInt]
  exact Int.bmod_eq_of_le (by omega) (by omega)

/-! ## The frame pushed (R288, R289) -/

/-- Settles O50: the steps of the partials leave every other register, and the output half reads the buses off them. -/
theorem frameIsMixAndReverb : Obligations.FrameIsMixAndReverb := by
  refine ⟨toInt_sat16_eq_clamp, ?_⟩
  intro F s rc rs s1 outAt outOfSlot sum playing g dryL dryR send rev t
  have ht : t = bookkeep (outputFrame F s1) := by
    simp only [t, frameStep_eq, reverbFresh_eq]
    rfl
  obtain ⟨hsr, hrc, hrs, hqueue, hdirty⟩ :=
    (stepPartials_slotsOnly F { s with rc := rc, rs := rs, reverbDirty := false }).outputInputs
  have hout (slot : Option Nat) : outOf s1 slot = outOfSlot slot := by
    cases slot <;> rfl
  have hgain : voiceGain F s1 = g := by
    funext x
    simp only [voiceGain, voiceSum_eq, hout, g, sum]
    rw [hsr]
    rfl
  have hmix : mixVoices F s1 = ⟨dryL, dryR, send⟩ := by
    simp only [mixVoices_eq, busSums, hgain, asr_eq_fdiv]
    rw [hsr]
    rfl
  have hrev : F.reverbStep (commonTables F s1.sr) s1.rc s1.rs (mixVoices F s1).send = rev := by
    rw [hsr, hrc, hrs, hmix]
  have hframe : outputFrame F s1 = { s1 with
      rs := rev.2.2
      audioQ := s.audioQ ++ [⟨sat16 (dryL + rev.1), sat16 (dryR + rev.2.1)⟩] } := by
    rw [outputFrame_eq, hrev, hmix, hqueue]
  rw [ht, hframe]
  exact ⟨rfl, hrc, rfl, hdirty, rfl⟩

/-! ## The bookkeeping (R284 to R286) -/

theorem partialSt_eq_inactive_iff (s : State) (i : Nat) :
    s.partialSt i = .inactive ↔ ∀ p, s.partials[i]? = some p → p.st = .inactive := by
  unfold State.partialSt
  cases s.partials[i]? with
  | none => simp
  | some p => simp

theorem toNat_satU32 (n : Nat) : (satU32 n).toNat = min 4294967295 n := by
  rw [satU32, BitVec.toNat_ofNat]
  omega

/-- A voice after a frame is what the bookkeeping makes of it: stepping the partials writes no voice. -/
theorem frameStep_voice (F : OpenFns) (s : State) (v : Nat) :
    ∃ u : State, u.partials = (frameStep F s).partials ∧
      (frameStep F s).voices[v]? = s.voices[v]?.map fun x => ageVoice (freeVoice (clearVoice u x)) := by
  refine ⟨outputFrame F (stepPartials F (reverbFresh F s)), rfl, ?_⟩
  have hvoices : (outputFrame F (stepPartials F (reverbFresh F s))).voices = s.voices :=
    (stepPartials_voices F _).trans (reverbFresh_voices F s)
  rw [frameStep_eq, bookkeep_voice, hvoices]

/-- Settles O52: the bookkeeping reads the slots as the frame leaves them. -/
theorem frameBookkeeping : Obligations.FrameBookkeeping := by
  intro F s v x y hx hy ended
  obtain ⟨u, hslots, hvoice⟩ := frameStep_voice F s v
  have hended (i : Nat) : u.partialSt i = .inactive ↔ ended i := by
    rw [partialSt_eq_inactive_iff, hslots]
  rw [hy, hx, Option.map_some] at hvoice
  obtain rfl := Option.some.inj hvoice
  refine ⟨bookkeep_free u x, fun hplay => ?_⟩
  obtain ⟨hreset, hall⟩ | ⟨haged, hsome⟩ := bookkeep_playing u x hplay
  · exact .inl ⟨hreset, fun t i hi => (hended i).mp (hall t i hi)⟩
  · rw [haged]
    refine .inr ⟨rfl, toNat_satU32 _, hsome, fun t i => ?_⟩
    rw [clearVoice_get u x hplay, Ne, hended]

/-! ## A frame without a playing voice (R291) -/

section
variable {s : State} (hidle : ∀ x ∈ s.voices, x.playing = false)
include hidle

theorem filter_playing_of_idle : s.voices.filter (·.playing) = [] :=
  List.filter_eq_nil_iff.mpr fun x hx => Bool.eq_false_iff.mp (hidle x hx)

theorem stepPartials_idle (F : OpenFns) : stepPartials F s = s := by
  rw [stepPartials_eq, filter_playing_of_idle hidle]
  rfl

theorem mixVoices_idle (F : OpenFns) : mixVoices F s = ⟨0, 0, 0⟩ := by
  rw [mixVoices_eq, busSums, filter_playing_of_idle hidle]
  rfl

theorem bookkeep_idle : bookkeep s = s := by
  have hsame : s.voices.map (fun x => ageVoice (freeVoice (clearVoice s x))) = s.voices.map id :=
    List.map_congr_left fun x hx => bookkeep_free s x (hidle x hx)
  rw [bookkeep, hsame, List.map_id]

end

/-- Settles O53: no partial is stepped, the buses are 0, and the bookkeeping has nothing to do. -/
theorem idleFrameIsReverbTail : Obligations.IdleFrameIsReverbTail := by
  intro F s hidle hclean rev
  have hfresh : reverbFresh F s = s := if_neg (Bool.eq_false_iff.mp hclean)
  have hvoices : ∀ x ∈ (outputFrame F s).voices, x.playing = false := hidle
  rw [frameStep_eq, hfresh, stepPartials_idle hidle, bookkeep_idle hvoices, outputFrame_eq, mixVoices_idle hidle,
    zero_add, zero_add]

end Sys2Proof.Machine
end

section
/-! PROOFS. Rejects (60_exceptions.md R300 to R305, R317): the checks of every command as one table, which holds the causes
of R301 in ascending code order, so that the first failing check is the lowest cause; and the worked example. -/

namespace Sys2Proof.Machine

/-! ## The checks of a command are its causes -/

/-- The checks of each command, in the order it makes them (60_exceptions.md R303). -/
def checksOf : Instr → List (Bool × RejectCode)
  | .noteOn part key vel rsv =>
    [(rsv != 0#8, .reservedBits), (badPart part, .badPart), (above127 key, .badKey), (above127 vel, .badVelocity),
      (isRhythm part && outsideRhythmKeys key, .rhythmUnmapped)]
  | .noteOff part key rsv => [(rsv != 0#16, .reservedBits), (badPart part, .badPart), (above127 key, .badKey)]
  | .sustain part rsv _ => [(rsv != 0#23, .reservedBits), (badPart part, .badPart)]
  | .programChange part patch rsv =>
    [(rsv != 0#16, .reservedBits), (badPart part, .badPart), (isRhythm part, .noPatchOnRhythm),
      (above127 patch, .badPatch)]
  | .allNotesOff part rsv => [(rsv != 0#24, .reservedBits), (badPart part, .badPart)]
  | .blockWrite rsv addr rsvLen n data =>
    [(rsv != 0#4 || rsvLen != 0#16 || unusedDataBits data n, .reservedBits), (badAddress addr n, .badAddress),
      (!allLegal addr.toNat (unpackBytes data n.toNat), .illegalParam)]
  | .blockRead rsv addr rsvLen n => [(rsv != 0#4 || rsvLen != 0#16, .reservedBits), (badAddress addr n, .badAddress)]
  | .render rsv _ => [(rsv != 0#4, .reservedBits)]
  | .status rsv _ => [(rsv != 0#27, .reservedBits)]
  | .reserved0 _ => [(true, .badOpcode)]
  | .reservedAB _ => [(true, .badOpcode)]
  | .reservedCF _ => [(true, .badOpcode)]

theorem checkOf_eq_firstReject (i : Instr) : checkOf i = firstReject (checksOf i) := by
  cases i <;> rfl

theorem checksOf_ascending (i : Instr) :
    (checksOf i).Pairwise fun x y => (rejectValue x.2).toNat < (rejectValue y.2).toNat := by
  cases i <;> simp [checksOf, rejectValue]

theorem failed_mem_cons {b : Bool} {c d : RejectCode} {rest : List (Bool × RejectCode)} :
    (true, c) ∈ (b, d) :: rest ↔ c = d ∧ b = true ∨ (true, c) ∈ rest := by
  simp only [List.mem_cons, Prod.mk.injEq, and_comm, eq_comm]

theorem badPart_iff (part : BitVec 4) : badPart part = true ↔ 8 < part.toNat := decide_eq_true_iff

theorem isRhythm_iff (part : BitVec 4) : isRhythm part = true ↔ part.toNat = 8 := decide_eq_true_iff

theorem above127_iff (x : Byte) : above127 x = true ↔ 127 < x.toNat := decide_eq_true_iff

theorem outsideRhythmKeys_iff (key : Byte) :
    outsideRhythmKeys key = true ↔ ¬(24 ≤ key.toNat ∧ key.toNat ≤ 87) := by
  simp only [outsideRhythmKeys, Bool.or_eq_true, decide_eq_true_eq]
  omega

theorem badAddress_iff (addr : BitVec 24) (n : BitVec 16) :
    badAddress addr n = true ↔ 0x10347 < addr.toNat + n.toNat := decide_eq_true_iff

theorem unusedDataBits_iff (data : List Word) (n : BitVec 16) :
    unusedDataBits data n = true ↔
      n.toNat % 4 ≠ 0 ∧ data.getD ((n.toNat + 3) / 4 - 1) 0 >>> (8 * (n.toNat % 4)) ≠ 0 := by
  rw [← Bool.not_eq_false, unusedDataBits_eq_false_iff, Classical.not_imp]
  rfl

/-- A byte of block data is illegal at its own address (40_memory_commands.md R142). -/
theorem not_allLegal_unpackBytes (addr : Nat) (data : List Word) (n : Nat) :
    allLegal addr (unpackBytes data n) = false ↔
      ∃ k, k < n ∧ legal (addr + k) ((data.getD (k / 4) 0).extractLsb' (8 * (k % 4)) 8) = false := by
  simp only [← Bool.not_eq_true, allLegal_unpackBytes, not_forall, exists_prop]

/-- The checks that fail are the causes of R301. -/
theorem failed_mem_checksOf (i : Instr) (c : RejectCode) : (true, c) ∈ checksOf i ↔ hasCause i c := by
  cases i with
  | blockWrite rsv addr rsvLen n data =>
    simp only [checksOf, hasCause, failed_mem_cons, List.not_mem_nil, or_false, Bool.or_eq_true, bne_iff_ne, or_assoc,
      unusedDataBits_iff, badAddress_iff, Bool.not_eq_true', not_allLegal_unpackBytes]
    rfl
  | reserved0 | reservedAB | reservedCF =>
    simp only [checksOf, hasCause, failed_mem_cons, List.not_mem_nil, or_false, and_true]
  | _ =>
    simp only [checksOf, hasCause, failed_mem_cons, List.not_mem_nil, or_false, Bool.or_eq_true, Bool.and_eq_true,
      bne_iff_ne, badPart_iff, isRhythm_iff, above127_iff, outsideRhythmKeys_iff, badAddress_iff]
    rfl

/-! ## The outcome of the checks -/

theorem checkOf_eq_some {i : Instr} {c : RejectCode} (hcause : hasCause i c)
    (hlowest : ∀ c', hasCause i c' → (rejectValue c).toNat ≤ (rejectValue c').toNat) : checkOf i = some c :=
  (checkOf_eq_firstReject i).trans <|
    firstReject_lowest (checksOf i) (checksOf_ascending i) c ((failed_mem_checksOf i c).mpr hcause)
      fun c' h => hlowest c' ((failed_mem_checksOf i c').mp h)

theorem checkOf_eq_none {i : Instr} (hcause : ∀ c, ¬hasCause i c) : checkOf i = none := by
  rw [checkOf_eq_firstReject, firstReject_eq_none]
  rintro ⟨failed, c⟩ hmem
  cases failed with
  | false => rfl
  | true => exact absurd ((failed_mem_checksOf i c).mp hmem) (hcause c)

theorem dataShort_eq_false {i : Instr} (hwf : i.wellFormed = true) : dataShort i = false := by
  cases i with
  | blockWrite => exact decide_eq_false (eq_of_beq hwf).not_lt
  | _ => rfl

/-- A command that has arrived whole and fails a check is rejected (60_exceptions.md R300). -/
theorem exec_rejected {i : Instr} {c : RejectCode} (hshort : dataShort i = false) (hcheck : checkOf i = some c)
    (s : State) : exec i s = .next (reject i.length c s) := by
  rw [exec_eq, hshort, hcheck]
  rfl

/-- Settles O9: the first check that fails is the lowest cause, and the reject of its code is the whole outcome. -/
theorem lowestCodeRejects : Obligations.LowestCodeRejects := by
  refine ⟨⟨rfl, rfl, rfl, rfl, rfl, rfl, rfl, rfl, rfl, rfl⟩, fun i s c hwf hcause hlowest => ?_⟩
  rw [← reject_eq]
  exact exec_rejected (dataShort_eq_false hwf) (checkOf_eq_some hcause hlowest) s

/-- Settles O10: with no cause there is no reject, and the only effect that writes the status register is a STATUS's. -/
theorem appliedCommandKeepsStatus : Obligations.AppliedCommandKeepsStatus := by
  intro i s t hwf hcause hclear h
  rw [exec_applied i (dataShort_eq_false hwf) (checkOf_eq_none hcause)] at h
  cases h
  by_contra hne
  obtain ⟨rsv, clear, rfl⟩ := (effect_writesOnly i s).status_writers hne
  exact hclear rsv (congrArg _ (effect_status_cleared hne))

/-! ## The worked example (R317) -/

/-- What the four commands of R317 do to the state after reset: three rejects, and a STATUS that clears. -/
def afterRejectExample : State :=
  let s := hostAppend State.reset [0x00000000, 0x193C6400, 0x103C6401, 0x90000001]
  (pushStatus true (reject 1 .reservedBits (reject 1 .badPart (reject 1 .badOpcode s)))).advance 1

/-- Settles O12: part 9 and the reserved bit are each the first failing check, and STATUS pushes before it clears. -/
theorem rejectExample : Obligations.RejectExample :=
  ⟨afterRejectExample, rfl, rfl, rfl, rfl, rfl, rfl, rfl⟩

end Sys2Proof.Machine
end

section
/-! PROOFS. The fatal codes of construction (60_exceptions.md R306): what each check of `construct` accepts, and the
outcome by the first that fails. -/

namespace Sys2Proof.Machine

/-! ## The checks of a construction (70_reset_and_hazards.md R330 to R332) -/

/-- The size the host asks for is legal (00_scope.md R6). -/
def ConfigOk (x : ConstructArgs) : Prop := 4 ≤ x.maxPartials ∧ x.maxPartials ≤ 255

/-- The sample rate is legal (00_scope.md R6). -/
def RateOk (x : ConstructArgs) : Prop := 8000 ≤ x.sr ∧ x.sr ≤ 96000

/-- The wave table is whole and no entry of it is malformed (R331). -/
def PcmOk (x : ConstructArgs) : Prop :=
  x.pcm.length = 128 ∧ ∀ e ∈ x.pcm, 1 ≤ e.len ∧ e.addr + e.len ≤ x.rom.length

/-- The image has the memory's size and every byte of it is legal (R332). -/
def ImageOk (x : ConstructArgs) : Prop :=
  x.img.length = 0x10347 ∧ ∀ a, a < x.img.length → legal a (x.img.getD a 0) = true

theorem waveOk_iff (romSize : Nat) (e : PcmWave) :
    waveOk romSize e = true ↔ 1 ≤ e.len ∧ e.addr + e.len ≤ romSize := by
  simp only [waveOk, Bool.and_eq_true, decide_eq_true_eq]

theorem checkPcm_eq_some {x : ConstructArgs} (h : PcmOk x) :
    checkPcm x.pcm x.rom.length = some (x.pcm.map clampLoop) :=
  if_pos ⟨h.1, List.all_eq_true.mpr fun e he => (waveOk_iff _ e).mpr (h.2 e he)⟩

theorem checkPcm_eq_none {x : ConstructArgs} (h : ¬PcmOk x) : checkPcm x.pcm x.rom.length = none :=
  if_neg fun ⟨hlen, hall⟩ => h ⟨hlen, fun e he => (waveOk_iff _ e).mp (List.all_eq_true.mp hall e he)⟩

theorem checkImage_iff (x : ConstructArgs) : checkImage x.img = true ↔ ImageOk x := by
  simp only [checkImage, ImageOk, Bool.and_eq_true, decide_eq_true_eq, allLegal_iff, Nat.zero_add]

/-! ## The outcome, by the first check that fails -/

open Classical in
/-- `construct` is its four checks in the order of R306. -/
theorem construct_eq (F : OpenFns) (x : ConstructArgs) :
    construct F x =
      if ¬ConfigOk x then .error .badConfig
      else if ¬RateOk x then .error .badSampleRate
      else if ¬PcmOk x then .error .badPcmTable
      else if ¬ImageOk x then .error .badInitialMemory
      else .ok (State.constructed (fRs0 F x.sr) x.maxPartials x.sr x.rom (x.pcm.map clampLoop)
        (Memory.ofImage 0 x.img)) := by
  have hconfig : (x.maxPartials < Config.maxPartialsMin ∨ Config.maxPartialsMax < x.maxPartials) ↔ ¬ConfigOk x := by
    simp only [ConfigOk, Config.maxPartialsMin, Config.maxPartialsMax]
    omega
  have hrate : (x.sr < Config.srMin ∨ Config.srMax < x.sr) ↔ ¬RateOk x := by
    simp only [RateOk, Config.srMin, Config.srMax]
    omega
  simp only [construct, hconfig, hrate]
  by_cases hpcm : PcmOk x
  · simp only [checkPcm_eq_some hpcm, checkImage_iff, hpcm, not_true_eq_false, if_false, ite_not]
  · simp only [checkPcm_eq_none hpcm, hpcm, not_false_eq_true, if_true]

/-- Settles O54: in each of the five cases of the first check that fails, the outcome decides every clause. -/
theorem constructionCheckOrder : Obligations.ConstructionCheckOrder := by
  intro F x configOk rateOk pcmOk imageOk
  refine ⟨⟨rfl, rfl, rfl, rfl⟩, ?_⟩
  change (_ ↔ ¬ConfigOk x) ∧ (_ ↔ ConfigOk x ∧ ¬RateOk x) ∧ (_ ↔ ConfigOk x ∧ RateOk x ∧ ¬PcmOk x) ∧
    (_ ↔ ConfigOk x ∧ RateOk x ∧ PcmOk x ∧ ¬ImageOk x) ∧ (_ ↔ ConfigOk x ∧ RateOk x ∧ PcmOk x ∧ ImageOk x)
  rw [construct_eq]
  by_cases hconfig : ConfigOk x
  case neg => simp [hconfig]
  by_cases hrate : RateOk x
  case neg => simp [hconfig, hrate]
  by_cases hpcm : PcmOk x
  case neg => simp [hconfig, hrate, hpcm]
  by_cases himage : ImageOk x
  case neg => simp [hconfig, hrate, hpcm, himage]
  case pos => simp [hconfig, hrate, hpcm, himage]

end Sys2Proof.Machine
end
